-- ==== Sys2Proof/Word.lean ====
section
/-!
DEFINITION. The word types of the Huffman bit-packer/unpacker (HBPU-1).
Widths come from spec/00_scope.md rule R8; bit numbering from R9, bit strings from R10.
-/

namespace Sys2Proof

/-- A bus word: `BUS_WIDTH` = 32 bits (R8, R60). -/
abbrev Word := BitVec 32

/-- A byte value 0..255, always unsigned (R11). -/
abbrev Byte := BitVec 8

/-- A byte address of the block's register space: `ADDR_WIDTH` = 16 bits (R8, R61). -/
abbrev Addr := BitVec 16

/-- A bus descriptor `(WE << 16) | addr` (R96). -/
abbrev Descriptor := BitVec 17

/-- A bit string, first bit first (R10). -/
abbrev Bits := List Bool

end Sys2Proof
end

