-- ==== Sys2Proof/Syntax.lean ====
section
/-!
DEFINITION. The syntax: the commands of format C, the instructions (one constructor for each row of
spec/opcode_table.json), the bus accesses that carry them, and what the world outside the block does.
Every operand has exactly the width of the field it is read from, so no term is ill formed for an
operand out of range.
-/

namespace Sys2Proof

/-- The commands that a write of CMD can issue (spec/30_encoding.md R92, R95). -/
inductive Command where
  | nop
  | startPack
  | startUnpack
  /-- `PUSH d`, the only command with an operand (R93). -/
  | push (d : Byte)
  | finish
  | abort
  | clrtab
  deriving DecidableEq, Repr

/-- One constructor for each row of spec/opcode_table.json: the seven command words of format C
(R92), then the twenty bus operations of format B (R97). `v` is the word a write carries; `b` is the
entry and `w` the word of the code table that the address selects. -/
inductive Instr where
  | nop
  | startPack
  | startUnpack
  | push (d : Byte)
  | finish
  | abort
  | clrtab
  | rdId
  | rdCtrl
  | wrCtrl (v : Word)
  | rdStatus
  | wrCmd (v : Word)
  | rdDout
  | rdTail
  | wrTail (v : Word)
  | rdBitcntLo
  | rdBitcntHi
  | rdOutcnt
  | rdErrinfo
  | rdErrposLo
  | rdErrposHi
  | rdTabinfo
  | rdDbg
  | rdLen (b : Byte)
  | wrLen (b : Byte) (v : Word)
  | rdBits (b : Byte) (w : BitVec 3)
  | wrBits (b : Byte) (w : BitVec 3) (v : Word)
  deriving DecidableEq, Repr

/-- The instruction a command word stands for. -/
def Instr.ofCommand : Command → Instr
  | .nop => .nop
  | .startPack => .startPack
  | .startUnpack => .startUnpack
  | .push d => .push d
  | .finish => .finish
  | .abort => .abort
  | .clrtab => .clrtab

/-- The two primitives through which the host reaches the block (spec/20_memory.md R60). -/
inductive BusAccess where
  /-- `RegRead(addr)` -/
  | read (addr : Addr)
  /-- `RegWrite(addr, v)` -/
  | write (addr : Addr) (v : Word)
  deriving DecidableEq, Repr

/-- An undecoded instruction, in one of the two formats of spec/30_encoding.md. -/
inductive Raw where
  /-- Format C: a command word, the value written to CMD (R90, R91). -/
  | command (w : Word)
  /-- Format B: a bus access, keyed by its descriptor (R96). -/
  | access (a : BusAccess)
  deriving DecidableEq, Repr

/-- What the world outside can do to the block in one step: the host issues one bus access
(spec/00_scope.md R7, R15), or the reset input is pulsed between two accesses
(spec/70_reset_and_hazards.md R250; log 5). -/
inductive Event where
  | access (a : BusAccess)
  | reset
  deriving DecidableEq, Repr

/-- Why the decoder rejects a raw instruction, by name. -/
inductive Reject where
  /-- The CMD word encodes no command (R94). -/
  | illegalCommand (w : Word)
  /-- No row of R97 matches the descriptor (R63, R97). -/
  | unmatchedAccess (bd : Descriptor)
  deriving DecidableEq, Repr

end Sys2Proof
end

