-- ==== Sys2Proof/Decode.lean ====
section
/-!
DEFINITION. Decoding, total on every command word and every bus access, and the encoder after it
(spec/30_encoding.md R90 to R97).
-/

namespace Sys2Proof

/-! ## Format C: command words -/

/-- OPC, bits [31:24] of a command word (R91). -/
def opc (w : Word) : Byte := w.extractLsb' 24 8

/-- RSV, bits [23:8] of a command word (R91). -/
def rsv (w : Word) : BitVec 16 := w.extractLsb' 8 16

/-- DATA, bits [7:0] of a command word (R91). -/
def cmdData (w : Word) : Byte := w.extractLsb' 0 8

/-- `decode(w)` of R95: the command of R92 that `w` encodes, or a rejection for the illegal words
of R94. -/
def decodeCommand (w : Word) : Except Reject Command :=
  if rsv w ≠ 0 then .error (.illegalCommand w)
  else if opc w = 0x03 then .ok (.push (cmdData w))
  else if cmdData w ≠ 0 then .error (.illegalCommand w)
  else if opc w = 0x00 then .ok .nop
  else if opc w = 0x01 then .ok .startPack
  else if opc w = 0x02 then .ok .startUnpack
  else if opc w = 0x04 then .ok .finish
  else if opc w = 0x05 then .ok .abort
  else if opc w = 0x06 then .ok .clrtab
  else .error (.illegalCommand w)

/-! ## Format B: bus descriptors -/

/-- The address of an access. -/
def BusAccess.addr : BusAccess → Addr
  | .read a => a
  | .write a _ => a

/-- WE: is the access a write? (R96) -/
def BusAccess.isWrite : BusAccess → Bool
  | .read _ => false
  | .write _ _ => true

/-- The word a write carries; a read carries none. -/
def BusAccess.data : BusAccess → Word
  | .read _ => 0
  | .write _ v => v

/-- `bd = (WE << 16) | addr` (R96). -/
def BusAccess.descriptor (a : BusAccess) : Descriptor := BitVec.ofBool a.isWrite ++ a.addr

/-- The entry index of LEN[b]: `addr[9:2]` (R97). -/
def lenIndex (a : Addr) : Byte := a.extractLsb' 2 8

/-- The entry index of BITS[b][w]: `addr[12:5]` (R97). -/
def bitsIndex (a : Addr) : Byte := a.extractLsb' 5 8

/-- The word index of BITS[b][w]: `addr[4:2]` (R97). -/
def bitsWordIndex (a : Addr) : BitVec 3 := a.extractLsb' 2 3

/-- A row of the table of R97: the descriptors it covers, and the instruction it reads from the
address and the data of an access. -/
structure BusRow where
  pattern : Descriptor
  mask : Descriptor
  build : Addr → Word → Instr

/-- A row covers a descriptor (R96). -/
def BusRow.covers (r : BusRow) (bd : Descriptor) : Bool := bd &&& r.mask == r.pattern

/-- The twenty bus operations, in the order of R97. -/
def busRows : List BusRow :=
  [ ⟨0x00000, 0x1FFFF, fun _ _ => .rdId⟩,
    ⟨0x00004, 0x1FFFF, fun _ _ => .rdCtrl⟩,
    ⟨0x10004, 0x1FFFF, fun _ v => .wrCtrl v⟩,
    ⟨0x00008, 0x1FFFF, fun _ _ => .rdStatus⟩,
    ⟨0x1000C, 0x1FFFF, fun _ v => .wrCmd v⟩,
    ⟨0x00010, 0x1FFFF, fun _ _ => .rdDout⟩,
    ⟨0x00014, 0x1FFFF, fun _ _ => .rdTail⟩,
    ⟨0x10014, 0x1FFFF, fun _ v => .wrTail v⟩,
    ⟨0x00018, 0x1FFFF, fun _ _ => .rdBitcntLo⟩,
    ⟨0x0001C, 0x1FFFF, fun _ _ => .rdBitcntHi⟩,
    ⟨0x00020, 0x1FFFF, fun _ _ => .rdOutcnt⟩,
    ⟨0x00024, 0x1FFFF, fun _ _ => .rdErrinfo⟩,
    ⟨0x00028, 0x1FFFF, fun _ _ => .rdErrposLo⟩,
    ⟨0x0002C, 0x1FFFF, fun _ _ => .rdErrposHi⟩,
    ⟨0x00030, 0x1FFFF, fun _ _ => .rdTabinfo⟩,
    ⟨0x00034, 0x1FFFF, fun _ _ => .rdDbg⟩,
    ⟨0x01000, 0x1FC03, fun a _ => .rdLen (lenIndex a)⟩,
    ⟨0x11000, 0x1FC03, fun a v => .wrLen (lenIndex a) v⟩,
    ⟨0x02000, 0x1E003, fun a _ => .rdBits (bitsIndex a) (bitsWordIndex a)⟩,
    ⟨0x12000, 0x1E003, fun a v => .wrBits (bitsIndex a) (bitsWordIndex a) v⟩ ]

/-- The bus operation an access stands for; an access that no row covers is rejected (R97, R63). -/
def decodeAccess (a : BusAccess) : Except Reject Instr :=
  match busRows.find? (fun r => r.covers a.descriptor) with
  | some r => .ok (r.build a.addr a.data)
  | none => .error (.unmatchedAccess a.descriptor)

/-! ## Both formats -/

/-- The decoder, on a raw instruction of either format. -/
def decode : Raw → Except Reject Instr
  | .command w => (decodeCommand w).map Instr.ofCommand
  | .access a => decodeAccess a

/-- The address of CMD (R90). -/
def cmdAddr : Addr := 0x000C

/-- The bus access that carries a raw instruction: a command word travels in a write of CMD (R90). -/
def Raw.carrier : Raw → BusAccess
  | .command w => .write cmdAddr w
  | .access a => a

/-- The raw instruction whose bits, numbered as spec/opcode_table.json numbers them, are `w`: a row
of 17 bits (24 in whole bytes) is a descriptor whose operand word is 0, a row of 32 bits a command
word (log 7). A number that does not fit the format is none. -/
def rawOfTableWord (nbits w : Nat) : Option Raw :=
  if nbits ≤ 24 then
    if w < 2 ^ 16 then some (.access (.read (BitVec.ofNat 16 w)))
    else if w < 2 ^ 17 then some (.access (.write (BitVec.ofNat 16 w) 0))
    else none
  else if w < 2 ^ 32 then some (.command (BitVec.ofNat 32 w))
  else none

/-- What the decoder reads from a table word. -/
def decodeTableWord (nbits w : Nat) : Option Instr :=
  match rawOfTableWord nbits w with
  | some r => (decode r).toOption
  | none => none

/-! ## The encoder -/

/-- The word of a command (R92). -/
def encodeCommand : Command → Word
  | .nop => 0x00000000
  | .startPack => 0x01000000
  | .startUnpack => 0x02000000
  | .push d => (0x03 : Byte) ++ (0 : BitVec 16) ++ d
  | .finish => 0x04000000
  | .abort => 0x05000000
  | .clrtab => 0x06000000

/-- The address of LEN[b]: [15:10] = 0b000100, [9:2] = b, [1:0] = 0 (R22, R97). -/
def lenAddr (b : Byte) : Addr := (0b000100 : BitVec 6) ++ b ++ (0 : BitVec 2)

/-- The address of BITS[b][w]: [15:13] = 0b001, [12:5] = b, [4:2] = w, [1:0] = 0 (R22, R97). -/
def bitsAddr (b : Byte) (w : BitVec 3) : Addr := (0b001 : BitVec 3) ++ b ++ w ++ (0 : BitVec 2)

/-- The raw instruction of an instruction, written from R92 and R97. -/
def encode : Instr → Raw
  | .nop => .command (encodeCommand .nop)
  | .startPack => .command (encodeCommand .startPack)
  | .startUnpack => .command (encodeCommand .startUnpack)
  | .push d => .command (encodeCommand (.push d))
  | .finish => .command (encodeCommand .finish)
  | .abort => .command (encodeCommand .abort)
  | .clrtab => .command (encodeCommand .clrtab)
  | .rdId => .access (.read 0x0000)
  | .rdCtrl => .access (.read 0x0004)
  | .wrCtrl v => .access (.write 0x0004 v)
  | .rdStatus => .access (.read 0x0008)
  | .wrCmd v => .access (.write 0x000C v)
  | .rdDout => .access (.read 0x0010)
  | .rdTail => .access (.read 0x0014)
  | .wrTail v => .access (.write 0x0014 v)
  | .rdBitcntLo => .access (.read 0x0018)
  | .rdBitcntHi => .access (.read 0x001C)
  | .rdOutcnt => .access (.read 0x0020)
  | .rdErrinfo => .access (.read 0x0024)
  | .rdErrposLo => .access (.read 0x0028)
  | .rdErrposHi => .access (.read 0x002C)
  | .rdTabinfo => .access (.read 0x0030)
  | .rdDbg => .access (.read 0x0034)
  | .rdLen b => .access (.read (lenAddr b))
  | .wrLen b v => .access (.write (lenAddr b) v)
  | .rdBits b w => .access (.read (bitsAddr b w))
  | .wrBits b w v => .access (.write (bitsAddr b w) v)

end Sys2Proof
end

