-- ==== Sys2Proof/Config.lean ====
section
/-!
DEFINITION. The parameters of the block (spec/00_scope.md rule R8).
`OUTQ_DEPTH` is the one value the spec leaves open; a model "takes `OUTQ_DEPTH` as an argument".
The argument is the structure `Config`, which a state carries and no step changes (log 1, log 2).
Every other parameter is a constant. The spec leaves no value free: nothing here is opaque.
-/

namespace Sys2Proof

/-- What one instance of the block fixes: the capacity of OUTQ in bytes (R8, R44, decision D7). -/
structure Config where
  outqDepth : Nat
  deriving DecidableEq, Repr

namespace Config

/-- `NSYM`, the number of code-table entries (R8, R36). -/
def nsym : Nat := 256

/-- `MAXCODELEN`, the longest code length the table can hold (R8). -/
def maxCodeLen : Nat := 255

/-- `BITS_WORDS`, the 32-bit words of code storage per entry (R8, R36). -/
def bitsWords : Nat := 8

/-- `RDY_FREE`, the free OUTQ slots that make STATUS.RDY = 1 (R8, R27). -/
def rdyFree : Nat := 32

/-- `ID_VALUE`, ASCII `HUF1` (R2, R8, R23). -/
def idValue : Word := 0x48554631

/-- The reference value of `OUTQ_DEPTH` (R8). -/
def reference : Config := { outqDepth := 64 }

end Config

end Sys2Proof
end

