-- ==== Sys2Proof/WellFormed.lean ====
section
/-!
DEFINITION. The checks on data whose type is wider than what the spec allows.
An `Instr` needs none: each operand has exactly the width of its field, and every value of the field
is an operand the spec gives a meaning. What is supplied beside the instructions does need one: the
parameter `OUTQ_DEPTH`, and the code string of `LOADCODE`.
-/

namespace Sys2Proof

/-- `32 <= OUTQ_DEPTH <= 255` (spec/00_scope.md R8). -/
def Config.valid (c : Config) : Bool :=
  decide (Config.rdyFree ≤ c.outqDepth) && decide (c.outqDepth ≤ 255)

/-- A code string that `LOADCODE` accepts: 1 to 255 bits (spec/30_encoding.md R101, R98). -/
def codeWellFormed (c : Bits) : Bool :=
  decide (1 ≤ c.length) && decide (c.length ≤ Config.maxCodeLen)

end Sys2Proof
end

