-- ==== Sys2Proof/Machine/State.lean ====
section
/-!
DEFINITION. The state of the machine, as plain data.
`Block` holds exactly the tuple of spec/10_state.md rule R46. `State` adds the parameter
`OUTQ_DEPTH` and the model's own two fields: what the host will do next, and what its reads
returned.
-/

namespace Sys2Proof.Machine

/-- Storage of `n` cells of `w` bits each, as a sparse list of (cell number, value). An unlisted cell
reads as 0, the reset value of every table word (R36, R46). -/
abbrev Memory (w : Nat) := List (Nat × BitVec w)

/-- The canonical form: cell numbers strictly rise and are below `n`, and no listed value is 0. -/
def Memory.wf {w : Nat} (n : Nat) : Memory w → Bool
  | [] => true
  | [(k, v)] => decide (k < n) && decide (v ≠ 0)
  | (k, v) :: (k', v') :: rest =>
    decide (k < k') && decide (v ≠ 0) && Memory.wf n ((k', v') :: rest)

/-- `STATUS.STATE` (R26). The values 5, 6 and 7 are never produced, so they have no constructor
(spec/93_implementation_defined.md U7; log 12). -/
inductive JobState where
  | idle
  | pack
  | unpack
  | done
  | error
  deriving DecidableEq, Repr

/-- The error codes of R220. Codes 10 to 15 are never produced, so they have no constructor (U7;
log 12). -/
inductive ErrCode where
  | noError
  | illegalCmd
  | cmdState
  | overrun
  | tableInvalid
  | noCode
  | corrupt
  | badTail
  | tableBusy
  | busErr
  deriving DecidableEq, Repr

/-- The complete state of the block: the tuple of R46. -/
structure Block where
  /-- CTRL.TAILMODE (R24): 0 = COMPAT, 1 = EXACT. -/
  tailmode : Bool
  /-- CTRL.IE_ERR (R24). -/
  ieErr : Bool
  /-- CTRL.IE_DONE (R24). -/
  ieDone : Bool
  /-- CTRL.IE_OUT (R24). -/
  ieOut : Bool
  /-- STATE (R26). -/
  state : JobState
  /-- ERRCODE (R45, R220). -/
  errcode : ErrCode
  /-- ERRINFO (R32). -/
  errinfo : BitVec 32
  /-- ERRPOS (R33). -/
  errpos : BitVec 64
  /-- TAIL (R29). -/
  tail : BitVec 4
  /-- BITCNT (R30). -/
  bitcnt : BitVec 64
  /-- OUTCNT (R31). -/
  outcnt : BitVec 32
  /-- ACCBITS (R40). -/
  accbits : BitVec 7
  /-- ACCLEN (R40). -/
  acclen : BitVec 3
  /-- CAND, and CANDLEN as its length (R41; log 9). -/
  cand : Bits
  /-- HOLD (R42). -/
  hold : Byte
  /-- HOLDV (R42). -/
  holdv : Bool
  /-- JOBTM (R43). -/
  jobtm : Bool
  /-- OUTQ, oldest byte first (R44). -/
  outq : List Byte
  /-- Tab.LEN, cell `b` (R36; log 11). -/
  tabLen : Memory 8
  /-- Tab.BITS, cell `8*b + w` (R36; log 11). -/
  tabBits : Memory 32
  deriving DecidableEq, Repr

/-- The reset column of R46 (R250). -/
def Block.reset : Block where
  tailmode := false
  ieErr := false
  ieDone := false
  ieOut := false
  state := .idle
  errcode := .noError
  errinfo := 0
  errpos := 0
  tail := 0
  bitcnt := 0
  outcnt := 0
  accbits := 0
  acclen := 0
  cand := []
  hold := 0
  holdv := false
  jobtm := false
  outq := []
  tabLen := []
  tabBits := []

/-- The machine: the block with its parameter, and its host. -/
structure State where
  /-- `OUTQ_DEPTH` (R8); no step changes it (log 2). -/
  cfg : Config
  /-- The block (R46). -/
  block : Block
  /-- The MODEL's own: what the host does next, first event first (R15, R258; log 3). -/
  pending : List Event
  /-- The MODEL's own: the words that the host's reads have returned, oldest first (R60; log 4). -/
  replies : List Word
  deriving DecidableEq, Repr

/-- The machine right after reset, at the reference value of `OUTQ_DEPTH` (R8; log 1): nothing is
issued yet and nothing has been read. -/
def State.reset : State where
  cfg := Config.reference
  block := Block.reset
  pending := []
  replies := []

/-- Why the machine stops. -/
inductive Fault where
  /-- Raised by `step` alone, when the host has nothing more to do: "A model has no move for "the
  host does nothing", except the end of the run" (R258; log 6). Safe: the block does nothing then. -/
  | endOfRun
  deriving DecidableEq, Repr

/-- Why an instruction has no meaning. -/
inductive Refusal where
  /-- Raised by an arm of `exec` that has no meaning yet. Safe. No arm raises it. -/
  | notModelled (mnemonic : String)
  deriving DecidableEq, Repr

end Sys2Proof.Machine
end

