-- ==== Sys2Proof/Machine/Ops.lean ====
section
/-!
DEFINITION. The named operations over the state: the cells of the code table, the output queue,
raising an error and leaving the error state, the reply to a read, and the host's next event.
-/

namespace Sys2Proof.Machine

/-! ## The cells of the code table -/

/-- The value of a cell; an unlisted cell reads as 0 (R36, R250). -/
def Memory.read {w : Nat} : Memory w → Nat → BitVec w
  | [], _ => 0
  | (k, v) :: rest, a => if a = k then v else Memory.read rest a

/-- Put a non-zero value into a cell, keeping the cells in rising order. -/
def Memory.insert {w : Nat} (a : Nat) (x : BitVec w) : Memory w → Memory w
  | [] => [(a, x)]
  | (k, v) :: rest =>
    if a < k then (a, x) :: (k, v) :: rest
    else if a = k then (a, x) :: rest
    else (k, v) :: Memory.insert a x rest

/-- Remove a cell, which then reads as 0. -/
def Memory.erase {w : Nat} (a : Nat) : Memory w → Memory w
  | [] => []
  | (k, v) :: rest => if a = k then rest else (k, v) :: Memory.erase a rest

/-- Write a cell, keeping the canonical form: a cell written with 0 is not listed. -/
def Memory.write {w : Nat} (m : Memory w) (a : Nat) (x : BitVec w) : Memory w :=
  if x = 0 then Memory.erase a m else Memory.insert a x m

/-- The cell number of `Tab.LEN[b]`. -/
def lenCell (b : Byte) : Nat := b.toNat

/-- The cell number of `Tab.BITS[b][w]`. -/
def bitsCell (b : Byte) (w : BitVec 3) : Nat := 8 * b.toNat + w.toNat

namespace Block

/-- `Tab.LEN[b]` (R36). -/
def len (s : Block) (b : Byte) : BitVec 8 := s.tabLen.read (lenCell b)

/-- `Tab.BITS[b][w]` (R36). -/
def bits (s : Block) (b : Byte) (w : BitVec 3) : Word := s.tabBits.read (bitsCell b w)

/-- `Tab.LEN[b] <- v` (R36). -/
def setLen (b : Byte) (v : BitVec 8) (s : Block) : Block :=
  { s with tabLen := s.tabLen.write (lenCell b) v }

/-- `Tab.BITS[b][w] <- v` (R36). -/
def setBits (b : Byte) (w : BitVec 3) (v : Word) (s : Block) : Block :=
  { s with tabBits := s.tabBits.write (bitsCell b w) v }

/-- Every LEN[b] and every BITS[b][w] becomes 0 (R125). -/
def clearTable (s : Block) : Block := { s with tabLen := [], tabBits := [] }

/-- CANDLEN, the 8-bit length of CAND (R41; log 9). -/
def candlen (s : Block) : BitVec 8 := BitVec.ofNat 8 s.cand.length

/-- Is a job open? (R26) -/
def active (s : Block) : Bool := s.state == .pack || s.state == .unpack

/-- `OUTQ.push(x); OUTCNT <- OUTCNT + 1`, modulo 2^32 (R12, R31, R141, R163). -/
def outPush (x : Byte) (s : Block) : Block :=
  { s with outq := s.outq ++ [x], outcnt := s.outcnt + 1 }

end Block

/-! ## Errors -/

/-- How far one access has come: it goes on, or a raise has ended it (R12, R225). Either way the
block is as the effects up to here have left it. -/
inductive Flow where
  | go (s : Block)
  | ended (s : Block)
  deriving DecidableEq, Repr

namespace Flow

/-- The block the access leaves. -/
def block : Flow → Block
  | .go s => s
  | .ended s => s

/-- Go on with `f`, unless a raise has ended the access (R225). -/
def andThen : Flow → (Block → Flow) → Flow
  | .go s, f => f s
  | .ended s, _ => .ended s

end Flow

/-- `raise Err(code, info, pos)`: taking the block's one kind of exception (R225). What the access
did before it stands; nothing after it runs. -/
def raise (code : ErrCode) (info : Word) (pos : BitVec 64) (s : Block) : Flow :=
  .ended { s with errcode := code, errinfo := info, errpos := pos, state := .error }

/-- ABORT, the way back from the error state and out of any job (R124, R227). -/
def abort (s : Block) : Block :=
  { s with
    state := .idle, errcode := .noError, errinfo := 0, errpos := 0
    accbits := 0, acclen := 0
    cand := [], hold := 0, holdv := false, jobtm := false
    outq := [] }

/-- What BUS_ERR and TABLE_BUSY record: `zext_32(addr) | (is_write << 16)` (R63, R221). -/
def accessInfo (a : Addr) (isWrite : Bool) : Word :=
  a.setWidth 32 ||| ((BitVec.ofBool isWrite).setWidth 32 <<< 16)

/-- An access that no register rule covers has no effect but to raise BUS_ERR, and not even that in
ERROR (R63, R228). -/
def busError (a : BusAccess) (s : Block) : Flow :=
  if s.state = .error then .ended s
  else raise .busErr (accessInfo a.addr a.isWrite) s.bitcnt s

/-- A write of the code table: stored when no job is open, dropped with TABLE_BUSY during a job (R205,
R207, R73). -/
def tableWrite (a : Addr) (store : Block → Block) (s : Block) : Flow :=
  if s.active then raise .tableBusy (accessInfo a true) s.bitcnt s
  else .go (store s)

namespace State

/-- The same machine with the block that `f` leaves. -/
def onBlock (s : State) (f : Block → Flow) : State := { s with block := (f s.block).block }

/-- The host's read returns `v` (R60). -/
def reply (s : State) (v : Word) : State := { s with replies := s.replies ++ [v] }

/-- The host's next event, and the machine without it; none when the host has nothing more to do
(R15, R70). -/
def fetch (s : State) : Option (Event × State) :=
  match s.pending with
  | [] => none
  | e :: rest => some (e, { s with pending := rest })

/-- Reset: every piece of the block's state takes its reset value, and nothing survives (R250). The
parameter and the host are not the block's state (log 5). -/
def resetBlock (s : State) : State := { s with block := Block.reset }

/-- An access that the decoder rejects: a read returns 0, a write is dropped, and `busError` follows
(R63). -/
def rejectAccess (a : BusAccess) (s : State) : State :=
  let s' := s.onBlock (busError a)
  if a.isWrite then s' else s'.reply 0

/-- The host issues `e` before anything else it was about to do. -/
def issueFirst (e : Event) (s : State) : State := { s with pending := e :: s.pending }

end State

end Sys2Proof.Machine
end

