-- ==== Sys2Proof/Machine/Flags.lean ====
section
/-!
DEFINITION. The flags the host sees through STATUS (spec/10_state.md R25, R27, R47), the interrupt
output (spec/60_exceptions.md R235), and the legality of a command in a state
(spec/40_control.md R128).
-/

namespace Sys2Proof.Machine

/-- The encoding of STATE (R26). -/
def JobState.encoding : JobState → BitVec 3
  | .idle => 0
  | .pack => 1
  | .unpack => 2
  | .done => 3
  | .error => 4

/-- The error codes (R220). -/
def ErrCode.encoding : ErrCode → BitVec 4
  | .noError => 0
  | .illegalCmd => 1
  | .cmdState => 2
  | .overrun => 3
  | .tableInvalid => 4
  | .noCode => 5
  | .corrupt => 6
  | .badTail => 7
  | .tableBusy => 8
  | .busErr => 9

namespace Block

/-- OUTLVL, the number of bytes in OUTQ, as the 8-bit field of R25. -/
def outlvl (s : Block) : BitVec 8 := BitVec.ofNat 8 s.outq.length

/-- `RDY = (OUTQ_DEPTH - OUTLVL >= RDY_FREE)` (R27). -/
def rdy (cfg : Config) (s : Block) : Bool := decide (s.outq.length + Config.rdyFree ≤ cfg.outqDepth)

/-- OUTV: OUTQ holds at least one byte (R25). -/
def outv (s : Block) : Bool := !s.outq.isEmpty

/-- The level of the interrupt output (R235). -/
def irq (s : Block) : Bool :=
  (s.ieErr && s.state == .error) || (s.ieDone && s.state == .done) || (s.ieOut && s.outv)

end Block

/-- A flag as bit `i` of a word. -/
def flagAt (f : Bool) (i : Nat) : Word := (BitVec.ofBool f).setWidth 32 <<< i

/-- The value STATUS reads (R25, R193). -/
def Block.statusWord (cfg : Config) (s : Block) : Word :=
  s.state.encoding.setWidth 32 ||| flagAt (s.rdy cfg) 3 ||| flagAt s.outv 4 ||| flagAt s.holdv 5
    ||| (s.errcode.encoding.setWidth 32 <<< 8) ||| (s.outlvl.setWidth 32 <<< 16)
    ||| flagAt s.irq 31

/-- The legality matrix of R128 outside ERROR: `ok` and `ok*` (only when OUTQ is empty) run, and
everything else raises CMD_STATE. -/
def legal (c : Command) (s : Block) : Bool :=
  match c, s.state with
  | .nop, _ => true
  | .abort, _ => true
  | .startPack, .idle => s.outq.isEmpty
  | .startPack, .done => s.outq.isEmpty
  | .startUnpack, .idle => s.outq.isEmpty
  | .startUnpack, .done => s.outq.isEmpty
  | .push _, .pack => true
  | .push _, .unpack => true
  | .finish, .pack => true
  | .finish, .unpack => true
  | .clrtab, .idle => true
  | .clrtab, .done => true
  | .clrtab, .error => true
  | _, _ => false

/-- The commands that run in ERROR (R226, R230). -/
def runsInError : Command → Bool
  | .nop => true
  | .abort => true
  | .clrtab => true
  | _ => false

/-- The commands that run only with RDY = 1 (R230). -/
def needsRdy : Command → Bool
  | .push _ => true
  | .finish => true
  | _ => false

end Sys2Proof.Machine
end

