-- ==== Sys2Proof/Machine/Table.lean ====
section
/-!
DEFINITION. The code table as codes (spec/10_state.md R36 to R39) and its validation at START
(spec/40_control.md R120).
-/

namespace Sys2Proof.Machine

/-- The byte values 0..255, ascending (R36, R120). -/
def allBytes : List Byte := (List.range Config.nsym).map (BitVec.ofNat 8)

/-- `prefix(s, t)` (R38): a string is a prefix of itself. -/
def isPrefix (s t : Bits) : Bool := s.isPrefixOf t

/-- One of two codes is a prefix of the other (R120). -/
def conflict (s t : Bits) : Bool := isPrefix s t || isPrefix t s

namespace Block

/-- `valid(b)` (R38). -/
def valid (s : Block) (b : Byte) : Bool := s.len b != 0

/-- `code(b)`: bit `i` is `Tab.BITS[b][i div 32][31 - (i mod 32)]`, for `i` below LEN[b] (R37). -/
def code (s : Block) (b : Byte) : Bits :=
  (List.range (s.len b).toNat).map fun i =>
    (s.bits b (BitVec.ofNat 3 (i / 32))).getLsbD (31 - i % 32)

/-- The valid entries, ascending. -/
def validBytes (s : Block) : List Byte := allBytes.filter s.valid

/-- NCODES (R38). -/
def ncodes (s : Block) : Nat := s.validBytes.length

/-- MAXLEN: the longest code length, or 0 when no entry is valid (R38). -/
def maxlen (s : Block) : Nat := allBytes.foldl (fun m b => max m (s.len b).toNat) 0

/-- `lookup(s)`, the inverse mapping (R39). -/
def lookup (s : Block) (c : Bits) : Option Byte :=
  allBytes.find? fun b => s.valid b && s.code b == c

/-- The valid entries with their codes, ascending. -/
def codes (s : Block) : List (Byte × Bits) := s.validBytes.map fun b => (b, s.code b)

end Block

/-- The first pair `a < b` whose codes conflict, in the scan order of R120. -/
def firstConflict : List (Byte × Bits) → Option (Byte × Byte)
  | [] => none
  | (a, c) :: rest =>
    match rest.find? (fun p => conflict c p.2) with
    | some p => some (a, p.1)
    | none => firstConflict rest

/-- What TABLE_INVALID records for the pair `(a, b)` (R120, R221). -/
def pairInfo (a b : Byte) : Word := a.setWidth 32 ||| (b.setWidth 32 <<< 8)

/-- `validate()` (R120). -/
def validate (s : Block) : Flow :=
  match firstConflict s.codes with
  | some (a, b) => raise .tableInvalid (pairInfo a b) s.bitcnt s
  | none => .go s

end Sys2Proof.Machine
end

