-- ==== Sys2Proof/Machine/Operands.lean ====
section
/-!
DEFINITION. Bytes as bit strings (spec/00_scope.md R11; spec/42_unpack.md R161, R162), and the values of the packed registers (spec/43_bus.md R191, R202, R203).
-/

namespace Sys2Proof.Machine

/-- `binN(v)`: the `n`-bit string of `v`, first bit most significant (R11). -/
def binN (n : Nat) (v : Byte) : Bits := (List.range n).map fun i => v.getLsbD (n - 1 - i)

/-- `bin8(v)`: the expansion of a packed byte that is not the last (R161). -/
def bin8 (v : Byte) : Bits := binN 8 v

/-- `bitlen(v)`, for `v >= 1`: `floor(log2 v) + 1` (R11). -/
def bitlen (v : Byte) : Nat := Nat.log2 v.toNat + 1

/-- `expand_final_compat(v)`: the natural representation of the last byte; for 0 it is the single
digit `0` (R162, R14). -/
def expandFinalCompat (v : Byte) : Bits := if v = 0 then [false] else binN (bitlen v) v

/-- The value CTRL reads (R191). -/
def Block.ctrlWord (s : Block) : Word :=
  flagAt s.tailmode 0 ||| flagAt s.ieErr 1 ||| flagAt s.ieDone 2 ||| flagAt s.ieOut 3

/-- `TAILMODE <- v[0]; IE_ERR <- v[1]; IE_DONE <- v[2]; IE_OUT <- v[3]` (R192). -/
def Block.setCtrl (v : Word) (s : Block) : Block :=
  { s with
    tailmode := v.getLsbD 0, ieErr := v.getLsbD 1, ieDone := v.getLsbD 2, ieOut := v.getLsbD 3 }

/-- `TAIL <- v[3:0]` (R197). -/
def Block.setTail (v : Word) (s : Block) : Block := { s with tail := v.extractLsb' 0 4 }

/-- The value TABINFO reads (R34, R202). -/
def Block.tabinfoWord (s : Block) : Word :=
  BitVec.ofNat 32 s.ncodes ||| (BitVec.ofNat 32 s.maxlen <<< 16)

/-- The value DBG reads (R35, R203). -/
def Block.dbgWord (s : Block) : Word :=
  s.candlen.setWidth 32 ||| (s.hold.setWidth 32 <<< 8) ||| flagAt s.holdv 16
    ||| (s.acclen.setWidth 32 <<< 17) ||| (s.accbits.setWidth 32 <<< 20) ||| flagAt s.jobtm 27

/-- What an EXACT FINISH refuses (R168): TAIL outside 1..8, or a held byte with a 1 above its TAIL
valid bits. -/
def Block.tailIsBad (s : Block) : Bool :=
  decide (s.tail.toNat < 1) || decide (8 < s.tail.toNat)
    || (decide (s.tail.toNat < 8) && (s.hold >>> s.tail.toNat != 0))

end Sys2Proof.Machine
end

