-- ==== Sys2Proof/Machine/Pack.lean ====
section
/-!
DEFINITION. The pack job, BitPacker (spec/41_pack.md R141, R142, R145).
-/

namespace Sys2Proof.Machine

/-- `append_bit(c)`: append one bit to the running bit string, and push a chunk that is full
(R141). -/
def appendBit (c : Bool) (s : Block) : Block :=
  let t : BitVec 8 := (s.accbits.setWidth 8 <<< 1) ||| (BitVec.ofBool c).setWidth 8
  let s := { s with bitcnt := s.bitcnt + 1 }
  if s.acclen.toNat + 1 = 8 then { s.outPush t with accbits := 0, acclen := 0 }
  else { s with accbits := t.extractLsb' 0 7, acclen := s.acclen + 1 }

/-- Append the bits of a string in order (R142). -/
def appendBits (c : Bits) (s : Block) : Block := c.foldl (fun s x => appendBit x s) s

/-- `pack_push(d)`: append the code of `d` whole, or raise NO_CODE (R142). -/
def packPush (d : Byte) (s : Block) : Flow :=
  if s.valid d then .go (appendBits (s.code d) s)
  else raise .noCode (d.setWidth 32) s.bitcnt s

/-- `pack_finish()`: push the final short chunk right-aligned, and leave its bit count in TAIL
(R145). -/
def packFinish (s : Block) : Flow :=
  let s :=
    if 0 < s.acclen.toNat then
      { s.outPush (s.accbits.setWidth 8) with tail := s.acclen.setWidth 4 }
    else if s.bitcnt = 0 then { s with tail := 0 }
    else { s with tail := 8 }
  .go { s with accbits := 0, acclen := 0, state := .done }

end Sys2Proof.Machine
end

