-- ==== Sys2Proof/Machine/Unpack.lean ====
section
/-!
DEFINITION. The unpack job, BitUnpacker/Decoder (spec/42_unpack.md R163, R164, R165, R168).
-/

namespace Sys2Proof.Machine

/-- `feed_bit(c)`: grow the candidate by one bit and try to match it (R163). -/
def feedBit (c : Bool) (s : Block) : Flow :=
  let s := { s with cand := s.cand ++ [c], bitcnt := s.bitcnt + 1 }
  match s.lookup s.cand with
  | some b => .go { s.outPush b with cand := [] }
  | none =>
    if s.maxlen ≤ s.cand.length then
      raise .corrupt (s.candlen.setWidth 32) (s.bitcnt - s.candlen.setWidth 64) s
    else .go s

/-- `feed_bits(c)`: feed the bits of a string in order; a raise stops it (R164). -/
def feedBits : Bits → Block → Flow
  | [], s => .go s
  | x :: c, s => (feedBit x s).andThen (feedBits c)

/-- `HOLD <- 0; HOLDV <- 0` (R165, R168). -/
def dropHold (s : Block) : Block := { s with hold := 0, holdv := false }

/-- `unpack_push(d)`: expand the held byte, now known not to be the last, and hold `d` (R165). -/
def unpackPush (d : Byte) (s : Block) : Flow :=
  (if s.holdv then feedBits (bin8 s.hold) (dropHold s) else .go s).andThen fun s =>
    .go { s with hold := d, holdv := true }

/-- Feed the final byte: by its natural representation in COMPAT mode, by its TAIL valid bits in EXACT
mode after the check of TAIL (R167, R168, R170). -/
def feedFinal (s : Block) : Flow :=
  if s.jobtm then
    if s.tailIsBad then
      raise .badTail (s.hold.setWidth 32 ||| (s.tail.setWidth 32 <<< 8)) s.bitcnt s
    else feedBits (binN s.tail.toNat s.hold) (dropHold s)
  else feedBits (expandFinalCompat s.hold) (dropHold s)

/-- `unpack_finish()` (R168, R171). -/
def unpackFinish (s : Block) : Flow :=
  (if s.holdv then feedFinal s else .go s).andThen fun s =>
    if 0 < s.cand.length then
      raise .corrupt (s.candlen.setWidth 32 ||| (1 <<< 8)) (s.bitcnt - s.candlen.setWidth 64) s
    else .go { s with state := .done }

end Sys2Proof.Machine
end

