-- ==== Sys2Proof/Machine/Control.lean ====
section
/-!
DEFINITION. The control commands (spec/40_control.md R121 to R127) and the checks that come before a
command's rule (spec/60_exceptions.md R230).
-/

namespace Sys2Proof.Machine

/-! ## The rules of the commands -/

/-- START_PACK: the counters are cleared before the table is checked (R121, R231). -/
def startPack (s : Block) : Flow :=
  (validate { s with bitcnt := 0, outcnt := 0, accbits := 0, acclen := 0 }).andThen fun s =>
    .go { s with state := .pack }

/-- START_UNPACK (R122, R231). -/
def startUnpack (s : Block) : Flow :=
  (validate { s with
    bitcnt := 0, outcnt := 0, cand := [], hold := 0, holdv := false, jobtm := s.tailmode }).andThen
    fun s => .go { s with state := .unpack }

/-- PUSH, dispatched by the job that is open (R126). In any other state R230 has raised before. -/
def pushRule (d : Byte) (s : Block) : Flow :=
  match s.state with
  | .pack => packPush d s
  | .unpack => unpackPush d s
  | _ => .go s

/-- FINISH, dispatched by the job that is open (R127). In any other state R230 has raised before. -/
def finishRule (s : Block) : Flow :=
  match s.state with
  | .pack => packFinish s
  | .unpack => unpackFinish s
  | _ => .go s

/-! ## The checks of R230 -/

/-- `execute(c)` for a command that decodes: ERROR first, then legality, then readiness, then the
command's own rule (R230). -/
def execute (c : Command) (rule : Block → Flow) (cfg : Config) (s : Block) : Flow :=
  if s.state = .error then
    if runsInError c then rule s else .ended s
  else if legal c s = false then raise .cmdState (encodeCommand c) s.bitcnt s
  else if needsRdy c && !s.rdy cfg then raise .overrun (encodeCommand c) s.bitcnt s
  else rule s

/-- `execute(Illegal(w))` (R94, R230). -/
def executeIllegal (w : Word) (s : Block) : Flow :=
  if s.state = .error then .ended s else raise .illegalCmd w s.bitcnt s

/-- A command as a step of the machine: it returns nothing to the host. -/
def runCommand (c : Command) (rule : Block → Flow) (s : State) :
    Host.Outcome State Fault Refusal :=
  .next (s.onBlock (execute c rule s.cfg))

/-! ## One meaning for each command -/

/-- `NOP` (R123). -/
def execNop (s : State) : Host.Outcome State Fault Refusal := runCommand .nop .go s

/-- `START_PACK` (R121). -/
def execStartPack (s : State) : Host.Outcome State Fault Refusal := runCommand .startPack startPack s

/-- `START_UNPACK` (R122). -/
def execStartUnpack (s : State) : Host.Outcome State Fault Refusal :=
  runCommand .startUnpack startUnpack s

/-- `PUSH d` (R126). -/
def execPush (d : Byte) (s : State) : Host.Outcome State Fault Refusal :=
  runCommand (.push d) (pushRule d) s

/-- `FINISH` (R127). -/
def execFinish (s : State) : Host.Outcome State Fault Refusal := runCommand .finish finishRule s

/-- `ABORT` (R124). -/
def execAbort (s : State) : Host.Outcome State Fault Refusal :=
  runCommand .abort (fun b => .go (abort b)) s

/-- `CLRTAB` (R125). -/
def execClrtab (s : State) : Host.Outcome State Fault Refusal :=
  runCommand .clrtab (fun b => .go b.clearTable) s

/-- The meaning of a decoded command. -/
def execCommand (c : Command) (s : State) : Host.Outcome State Fault Refusal :=
  match c with
  | .nop => execNop s
  | .startPack => execStartPack s
  | .startUnpack => execStartUnpack s
  | .push d => execPush d s
  | .finish => execFinish s
  | .abort => execAbort s
  | .clrtab => execClrtab s

end Sys2Proof.Machine
end

