-- ==== Sys2Proof/Machine/Bus.lean ====
section
/-!
DEFINITION. The register accesses (spec/43_bus.md R190 to R207), one meaning for each.
-/

namespace Sys2Proof.Machine

/-- A read that returns a value of the state and has no other effect (R69). -/
def readReg (value : State → Word) (s : State) : Host.Outcome State Fault Refusal :=
  .next (s.reply (value s))

/-- A write whose effect is on the block alone. -/
def writeReg (store : Block → Flow) (s : State) : Host.Outcome State Fault Refusal :=
  .next (s.onBlock store)

/-! ## Control and status registers -/

/-- `RD_ID` (R190). -/
def execRdId (s : State) : Host.Outcome State Fault Refusal := readReg (fun _ => Config.idValue) s

/-- `RD_CTRL` (R191). -/
def execRdCtrl (s : State) : Host.Outcome State Fault Refusal := readReg (·.block.ctrlWord) s

/-- `WR_CTRL` (R192). -/
def execWrCtrl (v : Word) (s : State) : Host.Outcome State Fault Refusal :=
  writeReg (fun b => .go (b.setCtrl v)) s

/-- `RD_STATUS` (R193). -/
def execRdStatus (s : State) : Host.Outcome State Fault Refusal :=
  readReg (fun s => s.block.statusWord s.cfg) s

/-- `WR_CMD`: `execute(decode(v))` (R194). -/
def execWrCmd (v : Word) (s : State) : Host.Outcome State Fault Refusal :=
  match decodeCommand v with
  | .ok c => execCommand c s
  | .error _ => writeReg (executeIllegal v) s

/-- `RD_DOUT`: pop the oldest byte with VALID in bit 8, or return 0 when there is none (R195, R28). -/
def execRdDout (s : State) : Host.Outcome State Fault Refusal :=
  match s.block.outq with
  | [] => .next (s.reply 0)
  | x :: rest =>
    .next (State.reply { s with block := { s.block with outq := rest } } (0x100 ||| x.setWidth 32))

/-- `RD_TAIL` (R196). -/
def execRdTail (s : State) : Host.Outcome State Fault Refusal :=
  readReg (·.block.tail.setWidth 32) s

/-- `WR_TAIL` (R197). -/
def execWrTail (v : Word) (s : State) : Host.Outcome State Fault Refusal :=
  writeReg (fun b => .go (b.setTail v)) s

/-- `RD_BITCNT_LO` (R198). -/
def execRdBitcntLo (s : State) : Host.Outcome State Fault Refusal :=
  readReg (·.block.bitcnt.extractLsb' 0 32) s

/-- `RD_BITCNT_HI` (R198). -/
def execRdBitcntHi (s : State) : Host.Outcome State Fault Refusal :=
  readReg (·.block.bitcnt.extractLsb' 32 32) s

/-- `RD_OUTCNT` (R199). -/
def execRdOutcnt (s : State) : Host.Outcome State Fault Refusal := readReg (·.block.outcnt) s

/-- `RD_ERRINFO` (R200). -/
def execRdErrinfo (s : State) : Host.Outcome State Fault Refusal := readReg (·.block.errinfo) s

/-- `RD_ERRPOS_LO` (R201). -/
def execRdErrposLo (s : State) : Host.Outcome State Fault Refusal :=
  readReg (·.block.errpos.extractLsb' 0 32) s

/-- `RD_ERRPOS_HI` (R201). -/
def execRdErrposHi (s : State) : Host.Outcome State Fault Refusal :=
  readReg (·.block.errpos.extractLsb' 32 32) s

/-- `RD_TABINFO` (R202). -/
def execRdTabinfo (s : State) : Host.Outcome State Fault Refusal := readReg (·.block.tabinfoWord) s

/-- `RD_DBG` (R203). -/
def execRdDbg (s : State) : Host.Outcome State Fault Refusal := readReg (·.block.dbgWord) s

/-! ## The code table -/

/-- `RD_LEN[b]` (R204). -/
def execRdLen (b : Byte) (s : State) : Host.Outcome State Fault Refusal :=
  readReg (fun s => (s.block.len b).setWidth 32) s

/-- `WR_LEN[b]` (R205). -/
def execWrLen (b : Byte) (v : Word) (s : State) : Host.Outcome State Fault Refusal :=
  writeReg (tableWrite (lenAddr b) (·.setLen b (v.extractLsb' 0 8))) s

/-- `RD_BITS[b][w]` (R206). -/
def execRdBits (b : Byte) (w : BitVec 3) (s : State) : Host.Outcome State Fault Refusal :=
  readReg (fun s => s.block.bits b w) s

/-- `WR_BITS[b][w]` (R207). -/
def execWrBits (b : Byte) (w : BitVec 3) (v : Word) (s : State) :
    Host.Outcome State Fault Refusal :=
  writeReg (tableWrite (bitsAddr b w) (·.setBits b w v)) s

end Sys2Proof.Machine
end

