-- ==== Sys2Proof/Machine/Dispatch.lean ====
section
/-!
DEFINITION. One arm for each instruction.
-/

namespace Sys2Proof.Machine

def exec (i : Instr) (s : State) : Host.Outcome State Fault Refusal :=
  match i with
  | .nop => Sys2Proof.Machine.execNop s
  | .startPack => Sys2Proof.Machine.execStartPack s
  | .startUnpack => Sys2Proof.Machine.execStartUnpack s
  | .push d => Sys2Proof.Machine.execPush d s
  | .finish => Sys2Proof.Machine.execFinish s
  | .abort => Sys2Proof.Machine.execAbort s
  | .clrtab => Sys2Proof.Machine.execClrtab s
  | .rdId => Sys2Proof.Machine.execRdId s
  | .rdCtrl => Sys2Proof.Machine.execRdCtrl s
  | .wrCtrl v => Sys2Proof.Machine.execWrCtrl v s
  | .rdStatus => Sys2Proof.Machine.execRdStatus s
  | .wrCmd v => Sys2Proof.Machine.execWrCmd v s
  | .rdDout => Sys2Proof.Machine.execRdDout s
  | .rdTail => Sys2Proof.Machine.execRdTail s
  | .wrTail v => Sys2Proof.Machine.execWrTail v s
  | .rdBitcntLo => Sys2Proof.Machine.execRdBitcntLo s
  | .rdBitcntHi => Sys2Proof.Machine.execRdBitcntHi s
  | .rdOutcnt => Sys2Proof.Machine.execRdOutcnt s
  | .rdErrinfo => Sys2Proof.Machine.execRdErrinfo s
  | .rdErrposLo => Sys2Proof.Machine.execRdErrposLo s
  | .rdErrposHi => Sys2Proof.Machine.execRdErrposHi s
  | .rdTabinfo => Sys2Proof.Machine.execRdTabinfo s
  | .rdDbg => Sys2Proof.Machine.execRdDbg s
  | .rdLen b => Sys2Proof.Machine.execRdLen b s
  | .wrLen b v => Sys2Proof.Machine.execWrLen b v s
  | .rdBits b w => Sys2Proof.Machine.execRdBits b w s
  | .wrBits b w v => Sys2Proof.Machine.execWrBits b w v s

end Sys2Proof.Machine
end

