-- ==== Sys2Proof/Machine/Step.lean ====
section
/-!
DEFINITION. One step of the machine: the host's next event (spec/00_scope.md R7, R15).
-/

namespace Sys2Proof.Machine

/-- One event: a bus access runs the operation it decodes to, or is rejected under R63, which comes
before any register rule (R231); reset returns the block to its reset state (R250). With no event
left, the run is at its end (R258). -/
def step (s : State) : Host.Outcome State Fault Refusal :=
  match s.fetch with
  | none => .fault .endOfRun
  | some (.reset, s') => .next s'.resetBlock
  | some (.access a, s') =>
    match decodeAccess a with
    | .ok i => exec i s'
    | .error _ => .next (s'.rejectAccess a)

/-- `s` with the host about to issue the access that carries the instruction of a table word, ahead of
what it was about to do. -/
def State.withFetchWord (s : State) (nbits w : Nat) : State :=
  match rawOfTableWord nbits w with
  | some r => s.issueFirst (.access r.carrier)
  | none => s

end Sys2Proof.Machine
end

