-- ==== Sys2Proof/Machine/Program.lean ====
section
/-!
DEFINITION. Host programs: the commands and the pseudo-instructions of spec/30_encoding.md R100 and R101,
and the jobs a host runs (spec/70_reset_and_hazards.md R253, R258). The block knows none of this: it
sees the accesses only. `core` itself depends on nothing here.
-/

namespace Sys2Proof.Machine

/-- The write of CMD that issues a command (R100). -/
def issueCommand (c : Command) : Event := .access (.write cmdAddr (encodeCommand c))

/-- The register names of R22, and the table registers `LEN[b]` and `BITS[b][w]` (R100). -/
inductive RegName where
  | id | ctrl | status | cmd | dout | tail | bitcntLo | bitcntHi | outcnt | errinfo | errposLo | errposHi
  | tabinfo | dbg
  | len (b : Byte)
  | bits (b : Byte) (w : BitVec 3)
  deriving DecidableEq, Repr

/-- The address of a register (R22). -/
def RegName.addr : RegName → Addr
  | .id => 0x000
  | .ctrl => 0x004
  | .status => 0x008
  | .cmd => cmdAddr
  | .dout => 0x010
  | .tail => 0x014
  | .bitcntLo => 0x018
  | .bitcntHi => 0x01C
  | .outcnt => 0x020
  | .errinfo => 0x024
  | .errposLo => 0x028
  | .errposHi => 0x02C
  | .tabinfo => 0x030
  | .dbg => 0x034
  | .len b => lenAddr b
  | .bits b w => bitsAddr b w

/-- `RD name` (R100). -/
def rd (r : RegName) : Event := .access (.read r.addr)

/-- `WR name, v` (R100). -/
def wr (r : RegName) (v : Word) : Event := .access (.write r.addr v)

/-- `RD DOUT`. -/
def readDout : Event := rd .dout

/-- The word `W_w` of `LOADCODE`: bits `c[32w .. 32w+31]` with `c[32w]` at bit 31, and 0 past the end of
`c` (R101). -/
def codeWord (c : Bits) (w : Nat) : Word :=
  (List.range 32).foldl
    (fun acc j => (acc <<< 1) ||| (BitVec.ofBool (c.getD (32 * w + j) false)).setWidth 32) 0

/-- `LOADCODE b, "c"`: LEN[b], then the words of BITS[b] that the code reaches (R101). -/
def loadCode (b : Byte) (c : Bits) : List Event :=
  wr (.len b) (BitVec.ofNat 32 c.length) ::
    (List.range ((c.length + 31) / 32)).map fun w => wr (.bits b (BitVec.ofNat 3 w)) (codeWord c w)

/-- `UNLOADCODE b` (R101). -/
def unloadCode (b : Byte) : List Event := [wr (.len b) 0]

/-- Read the register `r` again and again until the value read satisfies `stop`: the machine then, or
none when `n` reads were not enough (R101). -/
def poll (r : RegName) (stop : Word → Bool) : Nat → State → Option State
  | 0, _ => none
  | n + 1, s =>
    match step (s.issueFirst (rd r)) with
    | .next t => if stop (t.replies.getLastD 0) then some t else poll r stop n t
    | .fault _ => none
    | .refused _ => none

/-- `WAITRDY`: read STATUS until RDY reads 1 (R101). -/
def waitRdy (n : Nat) (s : State) : Option State := poll .status (·.getLsbD 3) n s

/-- `DRAIN`: read DOUT until VALID reads 0 (R101). -/
def drain (n : Nat) (s : State) : Option State := poll .dout (fun v => !v.getLsbD 8) n s

/-- `PUSHS d0, d1, ...`: before each PUSH the host waits for RDY, with at most `n` reads of STATUS
(R101). -/
def pushs (n : Nat) : List Byte → State → Option State
  | [], s => some s
  | d :: ds, s =>
    match waitRdy n s with
    | none => none
    | some t =>
      match step (t.issueFirst (issueCommand (.push d))) with
      | .next u => pushs n ds u
      | .fault _ => none
      | .refused _ => none

/-! ## Jobs -/

/-- What a host does inside a job: push a byte, or read DOUT. -/
inductive JobOp where
  | push (d : Byte)
  | readDout
  deriving DecidableEq, Repr

/-- The event of an operation. -/
def JobOp.event : JobOp → Event
  | .push d => issueCommand (.push d)
  | .readDout => Machine.readDout

/-- The bytes a list of operations pushes, in order. -/
def pushedBytes : List JobOp → List Byte
  | [] => []
  | .push d :: ops => d :: pushedBytes ops
  | .readDout :: ops => pushedBytes ops

/-- A job: START, the operations, FINISH (R253). -/
def jobEvents (start : Command) (ops : List JobOp) : List Event :=
  issueCommand start :: (ops.map JobOp.event ++ [issueCommand .finish])

/-- Push every byte, and after each read DOUT 32 times, which keeps RDY = 1 (R27, R255 H1). -/
def drainedPushes (ds : List Byte) : List JobOp :=
  ds.flatMap fun d => .push d :: List.replicate 32 .readDout

/-- The bytes among the values that reads of DOUT returned: those with VALID (R28). -/
def doutBytes (replies : List Word) : List Byte :=
  (replies.filter (·.getLsbD 8)).map (·.extractLsb' 0 8)

end Sys2Proof.Machine
end

