-- ==== Sys2Proof/Safety.lean ====
section
/-!
DEFINITION. The terms claims are stated in: the source's own notions (prefix-free table, packed
bitstream, the decoder's parse), the invariant that every step keeps, and what a run is.
None of the machine's definitions depends on these.
-/

namespace Sys2Proof.Machine

/-! ## Bit strings and packed bytes (spec/00_scope.md R10, spec/20_memory.md R66) -/

/-- A bit string parsed as an unsigned binary number, first bit most significant (R10). -/
def bitsToNat : Bits → Nat
  | [] => 0
  | x :: c => x.toNat * 2 ^ c.length + bitsToNat c

/-- The byte of a chunk of 1 to 8 bits, right-aligned (R66). -/
def chunkByte (c : Bits) : Byte := BitVec.ofNat 8 (bitsToNat c)

/-- A bit string sliced into consecutive chunks of 8; the last may be shorter (R66). -/
def chunks : Bits → List Bits
  | a :: b :: c :: d :: e :: f :: g :: h :: rest => [a, b, c, d, e, f, g, h] :: chunks rest
  | [] => []
  | short => [short]

/-- The packed bytes of a bit string (R66, R99). -/
def packedBytes (S : Bits) : List Byte := (chunks S).map chunkByte

/-- The bits of the full chunks of a bit string: its longest prefix of a multiple of 8 bits. -/
def fullPart (S : Bits) : Bits := S.take (8 * (S.length / 8))

/-- The bits after the full chunks: fewer than 8. -/
def shortPart (S : Bits) : Bits := S.drop (8 * (S.length / 8))

/-- The number of valid bits in the final packed byte: 1..8, or 0 when there is no byte (R29). -/
def tailOf (S : Bits) : Nat := if S.length = 0 then 0 else (S.length - 1) % 8 + 1

/-- The low `n` bits of a number, most significant first (R11). -/
def lowBits (n v : Nat) : Bits := (List.range n).map fun i => v.testBit (n - 1 - i)

/-- The binary digits of a byte without leading zeros; for 0 the single digit `0` (R14, R162). -/
def naturalBits (v : Byte) : Bits :=
  if v = 0 then [false] else (lowBits 8 v.toNat).dropWhile fun x => !x

/-- The expansion of a packed stream: 8 bits for every byte but the last, and for the last its `t` valid
bits in EXACT mode, its natural representation in COMPAT mode (R161, R167, R175). -/
def expansion (exact : Bool) (t : Nat) : List Byte → Bits
  | [] => []
  | [p] => if exact then lowBits t p.toNat else naturalBits p
  | p :: q :: rest => lowBits 8 p.toNat ++ expansion exact t (q :: rest)

/-- What an EXACT FINISH accepts (R168): TAIL is 1..8, and the byte has no 1 above its TAIL valid bits. -/
def TailFits (t : Nat) (h : Byte) : Prop := 1 ≤ t ∧ t ≤ 8 ∧ h.toNat < 2 ^ t

/-! ## The register map (spec/10_state.md R22, spec/20_memory.md R62, R64) -/

/-- The addresses of LEN and BITS (R64). -/
def TableAddr (a : Nat) : Prop := 0x1000 ≤ a ∧ a < 0x1400 ∨ 0x2000 ≤ a ∧ a < 0x4000

/-- The accesses that the register map lists: word-aligned, at a mapped address, in a direction that
register has. -/
def Listed : BusAccess → Prop
  | .read a => a.toNat % 4 = 0 ∧ (a.toNat < 0x38 ∧ a.toNat ≠ 0x00C ∨ TableAddr a.toNat)
  | .write a _ =>
    a.toNat % 4 = 0 ∧ (a.toNat = 0x004 ∨ a.toNat = 0x00C ∨ a.toNat = 0x014 ∨ TableAddr a.toNat)

namespace Block

/-! ## The code table (spec/10_state.md R38) -/

/-- The table is well-formed: no code is a prefix of another entry's code. -/
def PrefixFree (s : Block) : Prop :=
  ∀ a b : Byte, a ≠ b → s.valid a = true → s.valid b = true → ¬ s.code a <+: s.code b

/-- `a < b` are valid entries and one of their codes is a prefix of the other (R120). -/
def Conflicting (s : Block) (a b : Byte) : Prop :=
  a.toNat < b.toNat ∧ s.valid a = true ∧ s.valid b = true ∧
    (s.code a <+: s.code b ∨ s.code b <+: s.code a)

/-- `(a, b)` is the first conflicting pair in the scan order of R120. -/
def FirstConflict (s : Block) (a b : Byte) : Prop :=
  s.Conflicting a b ∧
    ∀ a' b', s.Conflicting a' b' → a.toNat < a'.toNat ∨ (a = a' ∧ b.toNat ≤ b'.toNat)

/-- The same code table: every LEN[b] and every BITS[b][w] reads alike. -/
def SameTable (s t : Block) : Prop :=
  (∀ b, t.len b = s.len b) ∧ ∀ b w, t.bits b w = s.bits b w

/-! ## The packed bitstream and its parse (R98, spec/42_unpack.md R163, R175) -/

/-- `S = code(d0) ++ code(d1) ++ ...`, for bytes that all have a code (R98). -/
def stream (s : Block) (ds : List Byte) : Bits := ds.flatMap s.code

/-- Every byte of the list has a code. -/
def AllValid (s : Block) (ds : List Byte) : Prop := ∀ d ∈ ds, s.valid d = true

/-- No code is a prefix of `c`: a candidate that grows along `c` matches nothing (R163). -/
def Unmatched (s : Block) (c : Bits) : Prop := ∀ b, s.valid b = true → ¬ s.code b <+: c

/-- The source's decoder reads `E` as the bytes `out`, and then `rest` is left: shorter than the longest
code, and no code is a prefix of it (R163). -/
structure Parses (s : Block) (E : Bits) (out : List Byte) (rest : Bits) : Prop where
  valid : s.AllValid out
  parse : E = s.stream out ++ rest
  unmatched : s.Unmatched rest
  short : rest.length < max s.maxlen 1

/-- The source's decoder reads `E` as the bytes `out` and then fails on the candidate `bad`, as long as
the longest code and matched by none, before it reads `rest` (R163). -/
structure FailsAt (s : Block) (E : Bits) (out : List Byte) (bad rest : Bits) : Prop where
  valid : s.AllValid out
  parse : E = s.stream out ++ (bad ++ rest)
  unmatched : s.Unmatched bad
  long : bad.length = max s.maxlen 1

/-- The bits of ACC, first appended bit first (R40). -/
def acc (s : Block) : Bits := lowBits s.acclen.toNat s.accbits.toNat

/-! ## The invariant -/

/-- What the rules promise of every state between accesses. -/
structure Inv (cfg : Config) (s : Block) : Prop where
  /-- Both stores of the table keep their canonical form. -/
  lenWf : Memory.wf Config.nsym s.tabLen = true
  bitsWf : Memory.wf (Config.bitsWords * Config.nsym) s.tabBits = true
  /-- "ERRCODE is non-zero if and only if STATE = ERROR" (R25). -/
  errcode : s.errcode = .noError ↔ s.state ≠ .error
  /-- ERRINFO and ERRPOS hold a value only in ERROR (R227, R228). -/
  errClear : s.state ≠ .error → s.errinfo = 0 ∧ s.errpos = 0
  /-- `ACCBITS[6:ACCLEN] = 0` (R40). -/
  accRange : s.accbits.toNat < 2 ^ s.acclen.toNat
  /-- ACC is empty when no pack job is open or has failed (R40). -/
  accIdle : s.state ≠ .pack → s.state ≠ .error → s.acclen = 0
  /-- CAND and HOLD are empty when no unpack job is open or has failed (R41, R42, R168). -/
  candIdle : s.state ≠ .unpack → s.state ≠ .error → s.cand = [] ∧ s.holdv = false
  /-- `CANDLEN <= 254`, and 255 only at the raise (R41, R163; log 9). -/
  candBound : s.cand.length ≤ 255 ∧ (s.state ≠ .error → s.cand.length ≤ 254)
  /-- `CANDLEN < max(MAXLEN, 1)` during an unpack job (R160). -/
  candShort : s.state = .unpack → s.cand.length < max s.maxlen 1
  /-- CAND holds no code during an unpack job (R160). -/
  candUnmatched : s.state = .unpack → s.Unmatched s.cand
  /-- Without a held byte, no bit has been fed (R160, R168). -/
  candHeld : s.state = .unpack → s.holdv = false → s.cand = []
  /-- HOLD is 0 when HOLDV is 0 (R42, R165, R168). -/
  holdClear : s.holdv = false → s.hold = 0
  /-- A job runs only on a well-formed table (R39, R73). -/
  tableFree : s.active = true → s.PrefixFree
  /-- OUTQ never holds more than OUTQ_DEPTH bytes (R44). -/
  outqBound : s.outq.length ≤ cfg.outqDepth
  /-- OUTQ and JOBTM are clear in IDLE (R124, R250). -/
  idleClear : s.state = .idle → s.outq = [] ∧ s.jobtm = false
  /-- The counters of a pack job agree with ACCLEN (R140, R31). -/
  packCount : s.state = .pack →
    s.bitcnt.toNat % 8 = s.acclen.toNat ∧ s.outcnt.toNat = s.bitcnt.toNat / 8 % 2 ^ 32

/-! ## What a job has done so far -/

/-- The pack invariant of R140: `S` is the concatenation of the codes pushed so far in the open job,
`emitted` every byte the job has pushed to OUTQ. -/
structure PackTrace (s : Block) (S : Bits) (emitted : List Byte) : Prop where
  open_ : s.state = .pack
  bitcnt : s.bitcnt = BitVec.ofNat 64 S.length
  outcnt : s.outcnt = BitVec.ofNat 32 emitted.length
  bytes : emitted = packedBytes (fullPart S)
  acclen : s.acclen.toNat = S.length % 8
  accbits : s.accbits.toNat = bitsToNat (shortPart S)

/-- The unpack invariant of R160: `ps` is the bytes pushed so far in the open job, `emitted` every byte
the job has pushed to OUTQ. -/
structure UnpackTrace (s : Block) (ps emitted : List Byte) : Prop where
  open_ : s.state = .unpack
  held : (ps = [] ∧ s.holdv = false) ∨
    (∃ init p, ps = init ++ [p] ∧ s.holdv = true ∧ s.hold = p)
  bitcnt : s.bitcnt = BitVec.ofNat 64 (8 * ps.dropLast.length)
  outcnt : s.outcnt = BitVec.ofNat 32 emitted.length
  parses : s.Parses (ps.dropLast.flatMap fun p => lowBits 8 p.toNat) emitted s.cand

end Block

/-- The invariant of the machine: a legal OUTQ_DEPTH (R8), and the block's invariant. -/
structure State.Inv (s : State) : Prop where
  cfg : s.cfg.valid = true
  block : s.block.Inv s.cfg

/-! ## Errors, as claims state them (spec/60_exceptions.md R225) -/

/-- `s` with the error recorded and STATE = ERROR, and nothing else changed. -/
def State.failed (s : State) (code : ErrCode) (info : Word) (pos : BitVec 64) : State :=
  { s with block :=
    { s.block with state := .error, errcode := code, errinfo := info, errpos := pos } }

/-! ## Runs -/

/-- The bytes a host has received or could still read: those its reads of DOUT returned, then those in
OUTQ. -/
def State.output (s : State) : List Byte := doutBytes s.replies ++ s.block.outq

/-- The machine is between jobs, with an empty OUTQ and a host that has read nothing yet: a START is
legal (R128). -/
def State.ready (s : State) : Prop :=
  (s.block.state = .idle ∨ s.block.state = .done) ∧ s.block.outq = [] ∧ s.replies = []

/-- Starting from `s`, the host issues exactly the events `es`, and the machine is then `t`. -/
def Runs (s : State) (es : List Event) (t : State) : Prop :=
  core.run es.length { s with pending := es } = .next t

end Sys2Proof.Machine
end

