-- ==== Sys2Proof/Certificates/Slice0/Obligations.lean ====
section
/-!
DEFINITION. The statements about the model. Each docstring names the rules of spec/ it rests on.
`decode`, `exec`, `step` and `Runs` are the machine's; what the conclusions say is written out in numbers
and fields, or in the source's own notions of Sys2Proof/Safety.lean.
-/

open Sys2Proof Sys2Proof.Machine

/-! ## Encoding -/

/-- No bit of an instruction is lost: decoding an encoded instruction gives it back, with every operand at
every value (R92, R97). -/
def Obligations.DecodeInvertsEncode : Prop :=
  ∀ i : Instr, decode (encode i) = .ok i

/-- No two command words and no two bus accesses stand for one instruction: a raw instruction that
decodes is the encoding of what it decodes to (R92, R97). -/
def Obligations.EncodeInvertsDecode : Prop :=
  ∀ (r : Raw) (i : Instr), decode r = .ok i → encode i = r

/-- An access decodes exactly when the register map lists it: aligned, mapped, and in a direction the
register has (R22, R62, R64). -/
def Obligations.AccessDecodesExactlyWhenListed : Prop :=
  ∀ a : BusAccess, (∃ i, decodeAccess a = .ok i) ↔ Listed a

/-- The register map: which instruction the access at each address is, the entries of the table by
their arithmetic addresses (R22, R97). -/
def Obligations.RegisterMapByAddress : Prop :=
  ∀ (b : Byte) (w : BitVec 3) (v : Word),
    decodeAccess (.read 0x000) = .ok .rdId ∧
    decodeAccess (.read 0x004) = .ok .rdCtrl ∧
    decodeAccess (.write 0x004 v) = .ok (.wrCtrl v) ∧
    decodeAccess (.read 0x008) = .ok .rdStatus ∧
    decodeAccess (.write 0x00C v) = .ok (.wrCmd v) ∧
    decodeAccess (.read 0x010) = .ok .rdDout ∧
    decodeAccess (.read 0x014) = .ok .rdTail ∧
    decodeAccess (.write 0x014 v) = .ok (.wrTail v) ∧
    decodeAccess (.read 0x018) = .ok .rdBitcntLo ∧
    decodeAccess (.read 0x01C) = .ok .rdBitcntHi ∧
    decodeAccess (.read 0x020) = .ok .rdOutcnt ∧
    decodeAccess (.read 0x024) = .ok .rdErrinfo ∧
    decodeAccess (.read 0x028) = .ok .rdErrposLo ∧
    decodeAccess (.read 0x02C) = .ok .rdErrposHi ∧
    decodeAccess (.read 0x030) = .ok .rdTabinfo ∧
    decodeAccess (.read 0x034) = .ok .rdDbg ∧
    decodeAccess (.read (BitVec.ofNat 16 (0x1000 + 4 * b.toNat))) = .ok (.rdLen b) ∧
    decodeAccess (.write (BitVec.ofNat 16 (0x1000 + 4 * b.toNat)) v) = .ok (.wrLen b v) ∧
    decodeAccess (.read (BitVec.ofNat 16 (0x2000 + 32 * b.toNat + 4 * w.toNat))) =
      .ok (.rdBits b w) ∧
    decodeAccess (.write (BitVec.ofNat 16 (0x2000 + 32 * b.toNat + 4 * w.toNat)) v) =
      .ok (.wrBits b w v)

/-- A command word is rejected exactly when R94 calls it illegal; written to CMD it then raises
ILLEGAL_CMD and does nothing else, and in ERROR it does nothing at all (R94). -/
def Obligations.IllegalCommandWords : Prop :=
  ∀ (w : Word) (s : State),
    let illegal : Prop :=
      7 ≤ w.toNat / 2 ^ 24 ∨ w.toNat / 2 ^ 8 % 2 ^ 16 ≠ 0 ∨
        (w.toNat / 2 ^ 24 ≠ 3 ∧ w.toNat % 2 ^ 8 ≠ 0)
    ((∃ e, decodeCommand w = .error e) ↔ illegal) ∧
    (illegal → s.block.state ≠ .error →
      exec (.wrCmd w) s = .next (s.failed .illegalCmd w s.block.bitcnt)) ∧
    (illegal → s.block.state = .error → exec (.wrCmd w) s = .next s)

/-- Sample words of both formats, written out from R92 and R97. -/
def Obligations.SampleWordsDecode : Prop :=
  decode (.command 0x00000000) = .ok .nop ∧
  decode (.command 0x030000AB) = .ok (.push 0xAB) ∧
  decode (.command 0x06000000) = .ok .clrtab ∧
  decode (.command 0x03000100) = .error (.illegalCommand 0x03000100) ∧
  decode (.access (.read 0x0010)) = .ok .rdDout ∧
  decode (.access (.read 0x1104)) = .ok (.rdLen 0x41) ∧
  decode (.access (.write 0x2864 7)) = .ok (.wrBits 0x43 1 7) ∧
  decode (.access (.write 0x0008 1)) = .error (.unmatchedAccess 0x10008)

/-! ## The step -/

/-- When the host's next event is an access that decodes to `i`, a step is `exec i`, after that event is
taken from the host's list (R7, R15). -/
def Obligations.StepRunsTheDecodedAccess : Prop :=
  ∀ (s : State) (a : BusAccess) (i : Instr) (rest : List Event),
    s.pending = .access a :: rest → decodeAccess a = .ok i →
      step s = exec i { s with pending := rest }

/-- A write of CMD whose word is a command runs that command: the instruction WR_CMD and the command's
own instruction answer one next state (R194). -/
def Obligations.WrCmdRunsTheCommand : Prop :=
  ∀ (w : Word) (c : Command) (s : State), decodeCommand w = .ok c →
    ∃ t, exec (.wrCmd w) s = .next t ∧ exec (.ofCommand c) s = .next t

/-- An access the register map does not list has no effect but BUS_ERR: a read returns 0, a write is
dropped, and in ERROR nothing is recorded (R63). -/
def Obligations.UnlistedAccessRaisesBusErr : Prop :=
  ∀ (s : State) (a : BusAccess) (rest : List Event),
    s.pending = .access a :: rest → ¬ Listed a →
      let s' : State :=
        { s with
          pending := rest
          replies := s.replies ++ (match a with | .read _ => [0] | .write _ _ => []) }
      let info : Word := BitVec.ofNat 32
        (match a with | .read x => x.toNat | .write x _ => x.toNat + 65536)
      (s.block.state ≠ .error → step s = .next (s'.failed .busErr info s.block.bitcnt)) ∧
      (s.block.state = .error → step s = .next s')

/-- Reset: from any state, every field of the block takes the reset value of R46; STATUS then reads
0x00000008 and irq is low (R46, R250). That reset is one event of the host's list, and that OUTQ_DEPTH, the
rest of that list and the replies stay, is the model's choice (log 5). -/
def Obligations.ResetClearsTheBlock : Prop :=
  ∀ (s : State) (rest : List Event), s.pending = .reset :: rest →
    ∃ t, step s = .next t ∧ t.cfg = s.cfg ∧ t.pending = rest ∧ t.replies = s.replies ∧
      t.block.tailmode = false ∧ t.block.ieErr = false ∧ t.block.ieDone = false ∧
      t.block.ieOut = false ∧ t.block.state = .idle ∧ t.block.errcode = .noError ∧
      t.block.errinfo = 0 ∧ t.block.errpos = 0 ∧ t.block.tail = 0 ∧ t.block.bitcnt = 0 ∧
      t.block.outcnt = 0 ∧ t.block.accbits = 0 ∧ t.block.acclen = 0 ∧ t.block.cand = [] ∧
      t.block.hold = 0 ∧ t.block.holdv = false ∧ t.block.jobtm = false ∧ t.block.outq = [] ∧
      (∀ b, t.block.len b = 0) ∧ (∀ b w, t.block.bits b w = 0) ∧ t.block.irq = false ∧
      (s.cfg.valid = true →
        exec .rdStatus t = .next { t with replies := t.replies ++ [0x00000008] })

/-- When the host has nothing more to do, the run is at its end: the model's own stop (log 6; R258). -/
def Obligations.RunEndsWithTheHost : Prop :=
  ∀ s : State, s.pending = [] → step s = .fault .endOfRun

/-- Every instruction completes in every state, changes nothing of the machine but the block, and
returns one word when it is a read and none when it is a write (R60, R257). -/
def Obligations.EveryInstructionCompletes : Prop :=
  ∀ (i : Instr) (s : State), ∃ (b : Block) (vs : List Word),
    exec i s = .next { s with block := b, replies := s.replies ++ vs } ∧
      vs.length = (match (encode i).carrier with | .read _ => 1 | .write _ _ => 0)

/-- Every event the host has left completes, and a step takes exactly that event: the rest of the host's
list, OUTQ_DEPTH and the earlier replies stay. Of an access the rules say that it completes and that accesses
are taken one by one (R15, R70, R257), and OUTQ_DEPTH is a parameter (R8). The model's choices are the list
(log 3), the replies (log 4), that OUTQ_DEPTH is a field that no step changes (log 2), and that reset, which
R250 describes, is one event that completes and keeps all three (log 5). -/
def Obligations.StepTakesOneEvent : Prop :=
  ∀ (s : State) (e : Event) (rest : List Event), s.pending = e :: rest →
    ∃ t, step s = .next t ∧ t.pending = rest ∧ t.cfg = s.cfg ∧
      ∃ vs, t.replies = s.replies ++ vs ∧
        vs.length = (match e with | .access (.read _) => 1 | _ => 0)

/-! ## Commands -/

/-- NOP does nothing, in every state (R123). -/
def Obligations.NopDoesNothing : Prop :=
  decodeCommand 0x00000000 = .ok .nop ∧ ∀ s : State, exec .nop s = .next s

/-- START_PACK: from IDLE or DONE with OUTQ empty it clears the counters and opens a pack job on a
prefix-free table, and raises TABLE_INVALID for the first conflicting pair otherwise; where it is not
legal it raises CMD_STATE (R120, R121, R128). -/
def Obligations.StartPackOpensAPackJob : Prop :=
  ∀ s : State,
    let s0 : State := { s with block :=
      { s.block with bitcnt := 0, outcnt := 0, accbits := 0, acclen := 0 } }
    ((s.block.state = .idle ∨ s.block.state = .done) → s.block.outq = [] →
      (s.block.PrefixFree →
        exec .startPack s = .next { s0 with block := { s0.block with state := .pack } }) ∧
      (∀ a b, s.block.FirstConflict a b →
        exec .startPack s =
          .next (s0.failed .tableInvalid (BitVec.ofNat 32 (a.toNat + 256 * b.toNat)) 0))) ∧
    ((s.block.state = .pack ∨ s.block.state = .unpack ∨
        ((s.block.state = .idle ∨ s.block.state = .done) ∧ s.block.outq ≠ [])) →
      exec .startPack s = .next (s.failed .cmdState 0x01000000 s.block.bitcnt))

/-- START_UNPACK: from IDLE or DONE with OUTQ empty it clears the counters and the decoder, copies
TAILMODE to JOBTM and opens an unpack job on a prefix-free table, and raises TABLE_INVALID for the first
conflicting pair otherwise; where it is not legal it raises CMD_STATE (R120, R122, R128). -/
def Obligations.StartUnpackOpensAnUnpackJob : Prop :=
  ∀ s : State,
    let s0 : State := { s with block :=
      { s.block with
        bitcnt := 0, outcnt := 0, cand := [], hold := 0, holdv := false
        jobtm := s.block.tailmode } }
    ((s.block.state = .idle ∨ s.block.state = .done) → s.block.outq = [] →
      (s.block.PrefixFree →
        exec .startUnpack s = .next { s0 with block := { s0.block with state := .unpack } }) ∧
      (∀ a b, s.block.FirstConflict a b →
        exec .startUnpack s =
          .next (s0.failed .tableInvalid (BitVec.ofNat 32 (a.toNat + 256 * b.toNat)) 0))) ∧
    ((s.block.state = .pack ∨ s.block.state = .unpack ∨
        ((s.block.state = .idle ∨ s.block.state = .done) ∧ s.block.outq ≠ [])) →
      exec .startUnpack s = .next (s.failed .cmdState 0x02000000 s.block.bitcnt))

/-- Validation: it goes on, changing nothing, exactly when the table is prefix-free; otherwise the table has
exactly one first conflicting pair in the scan order, and validation raises TABLE_INVALID for that pair. A
table with at most one code passes, and two equal codes do not. START_PACK and START_UNPACK run it: from IDLE
or DONE with OUTQ empty, both open their job or both end in ERROR with that pair recorded (R120). -/
def Obligations.PrefixFreeOrOneFirstConflict : Prop :=
  (∀ s : Block,
    ((s.PrefixFree ∧ (∀ a b, ¬ s.FirstConflict a b) ∧ validate s = .go s) ∨
      (¬ s.PrefixFree ∧ ∃ a b, s.FirstConflict a b ∧
        (∀ a' b', s.FirstConflict a' b' → a' = a ∧ b' = b) ∧
        validate s = .ended { s with
          state := .error, errcode := .tableInvalid
          errinfo := BitVec.ofNat 32 (a.toNat + 256 * b.toNat), errpos := s.bitcnt })) ∧
    ((∀ a b, s.valid a = true → s.valid b = true → a = b) → validate s = .go s) ∧
    (∀ a b, a ≠ b → s.valid a = true → s.valid b = true → s.code a = s.code b →
      validate s ≠ .go s)) ∧
  (∀ s : State, (s.block.state = .idle ∨ s.block.state = .done) → s.block.outq = [] →
    ∃ t u, exec .startPack s = .next t ∧ exec .startUnpack s = .next u ∧
      ((s.block.PrefixFree ∧ t.block.state = .pack ∧ u.block.state = .unpack) ∨
        (t.block.state = .error ∧ u.block.state = .error ∧
          t.block.errcode = .tableInvalid ∧ u.block.errcode = .tableInvalid ∧
          ∃ a b, s.block.FirstConflict a b ∧
            t.block.errinfo = BitVec.ofNat 32 (a.toNat + 256 * b.toNat) ∧
            u.block.errinfo = BitVec.ofNat 32 (a.toNat + 256 * b.toNat))))

/-- ABORT ends any job and clears any error, in every state; it keeps CTRL, TAIL, BITCNT, OUTCNT and the
table. Another word with its opcode is illegal, and nothing but ABORT and reset leaves ERROR (R124). -/
def Obligations.AbortClearsJobAndError : Prop :=
  decodeCommand 0x05000000 = .ok .abort ∧
  (∀ (w : Word) (s : State), w.toNat / 2 ^ 24 = 5 → w ≠ 0x05000000 → s.block.state ≠ .error →
    exec (.wrCmd w) s = .next (s.failed .illegalCmd w s.block.bitcnt)) ∧
  (∀ s t : State, s.block.state = .error → step s = .next t → t.block.state ≠ .error →
    s.pending.head? = some .reset ∨
      s.pending.head? = some (.access (.write 0x00C 0x05000000))) ∧
  ∀ s : State, exec .abort s = .next { s with block :=
    { s.block with
      state := .idle, errcode := .noError, errinfo := 0, errpos := 0
      accbits := 0, acclen := 0, cand := [], hold := 0, holdv := false, jobtm := false
      outq := [] } }

/-- CLRTAB clears the table and nothing else in IDLE, DONE and ERROR, and TABINFO then reads 0; during a
job it raises CMD_STATE and the table is unchanged (R125). -/
def Obligations.ClrtabClearsTheTable : Prop :=
  decodeCommand 0x06000000 = .ok .clrtab ∧
  ∀ s : State,
    ((s.block.state = .idle ∨ s.block.state = .done ∨ s.block.state = .error) →
      ∃ t, exec .clrtab s = .next t ∧
        t = { s with block :=
          { s.block with tabLen := t.block.tabLen, tabBits := t.block.tabBits } } ∧
        (∀ b, t.block.len b = 0) ∧ (∀ b w, t.block.bits b w = 0) ∧
        exec .rdTabinfo t = .next { t with replies := t.replies ++ [0] }) ∧
    ((s.block.state = .pack ∨ s.block.state = .unpack) →
      exec .clrtab s = .next (s.failed .cmdState 0x06000000 s.block.bitcnt))

/-- PUSH in a pack job with RDY = 1: the code of `d` is appended whole to the bits held, the full chunks of
the whole go to OUTQ, at most 32 of them, and the rest is held; a byte with no code raises NO_CODE and
appends nothing (R141, R142). Nothing else changes. -/
def Obligations.PackPushAppendsTheCode : Prop :=
  ∀ (s : State) (d : Byte), s.Inv → s.block.state = .pack →
    s.block.outq.length + 32 ≤ s.cfg.outqDepth →
    (s.block.valid d = false →
      exec (.push d) s =
        .next (s.failed .noCode (BitVec.ofNat 32 d.toNat) s.block.bitcnt)) ∧
    (s.block.valid d = true →
      let S : Bits := s.block.acc ++ s.block.code d
      exec (.push d) s = .next { s with block :=
        { s.block with
          bitcnt := s.block.bitcnt + BitVec.ofNat 64 (s.block.code d).length
          outcnt := s.block.outcnt + BitVec.ofNat 32 (S.length / 8)
          outq := s.block.outq ++ packedBytes (fullPart S)
          acclen := BitVec.ofNat 3 (S.length % 8)
          accbits := BitVec.ofNat 7 (bitsToNat (shortPart S)) } } ∧
      (packedBytes (fullPart S)).length = S.length / 8 ∧ S.length / 8 ≤ 32)

/-- FINISH in a pack job with RDY = 1: the bits held go to OUTQ as one right-aligned byte when there are
any, TAIL gets the number of valid bits of the last byte, and the job is DONE (R66, R145). Nothing else
changes. -/
def Obligations.PackFinishFlushesTheTail : Prop :=
  ∀ s : State, s.Inv → s.block.state = .pack → s.block.outq.length + 32 ≤ s.cfg.outqDepth →
    exec .finish s = .next { s with block :=
      { s.block with
        outq := s.block.outq ++ packedBytes s.block.acc
        outcnt := if s.block.acc = [] then s.block.outcnt else s.block.outcnt + 1
        tail :=
          if s.block.acc ≠ [] then BitVec.ofNat 4 s.block.acc.length
          else if s.block.bitcnt = 0 then 0 else 8
        accbits := 0, acclen := 0, state := .done } }

/-- PUSH in an unpack job with RDY = 1: the first one only holds its byte; a later one feeds the 8 bits of
the held byte, sends the bytes the decoder reads to OUTQ and holds its own; a failing candidate raises
CORRUPT, and the byte is discarded (R161, R163, R164, R165). Nothing else changes. -/
def Obligations.UnpackPushFeedsTheHeldByte : Prop :=
  ∀ (s : State) (d : Byte), s.Inv → s.block.state = .unpack →
    s.block.outq.length + 32 ≤ s.cfg.outqDepth →
    let E : Bits := s.block.cand ++ lowBits 8 s.block.hold.toNat
    (s.block.holdv = false →
      exec (.push d) s = .next { s with block := { s.block with hold := d, holdv := true } }) ∧
    (s.block.holdv = true → ∀ out rest, s.block.Parses E out rest →
      exec (.push d) s = .next { s with block :=
        { s.block with
          bitcnt := s.block.bitcnt + 8
          outcnt := s.block.outcnt + BitVec.ofNat 32 out.length
          outq := s.block.outq ++ out
          cand := rest, hold := d, holdv := true } } ∧ out.length ≤ 8) ∧
    (s.block.holdv = true → ∀ out bad rest, s.block.FailsAt E out bad rest →
      let fed : BitVec 64 := s.block.bitcnt + BitVec.ofNat 64 (8 - rest.length)
      exec (.push d) s = .next { s with block :=
        { s.block with
          bitcnt := fed
          outcnt := s.block.outcnt + BitVec.ofNat 32 out.length
          outq := s.block.outq ++ out
          cand := bad, hold := 0, holdv := false
          state := .error, errcode := .corrupt
          errinfo := BitVec.ofNat 32 bad.length
          errpos := fed - BitVec.ofNat 64 bad.length } } ∧ out.length ≤ 8)

/-- FINISH in an unpack job with RDY = 1. With no byte held the job is DONE at once. In EXACT mode a TAIL
that does not fit raises BAD_TAIL, and nothing is fed. Otherwise the final byte's bits are fed: the job is
DONE when they complete a code, raises CORRUPT with ERRINFO[8] = 1 when bits are left over, and CORRUPT with
ERRINFO[8] = 0 when a candidate fails on the way (R162, R167, R168, R170, R171). Nothing else changes. -/
def Obligations.UnpackFinishFeedsTheFinalByte : Prop :=
  ∀ s : State, s.Inv → s.block.state = .unpack →
    s.block.outq.length + 32 ≤ s.cfg.outqDepth →
    let F : Bits :=
      if s.block.jobtm then lowBits s.block.tail.toNat s.block.hold.toNat
      else naturalBits s.block.hold
    let E : Bits := s.block.cand ++ F
    (s.block.holdv = false →
      exec .finish s = .next { s with block := { s.block with state := .done } }) ∧
    (s.block.holdv = true → s.block.jobtm = true →
      ¬ TailFits s.block.tail.toNat s.block.hold →
      exec .finish s = .next (s.failed .badTail
        (BitVec.ofNat 32 (s.block.hold.toNat + 256 * s.block.tail.toNat)) s.block.bitcnt)) ∧
    (s.block.holdv = true →
      (s.block.jobtm = true → TailFits s.block.tail.toNat s.block.hold) →
      (∀ out rest, s.block.Parses E out rest →
        let fed : State := { s with block :=
          { s.block with
            bitcnt := s.block.bitcnt + BitVec.ofNat 64 F.length
            outcnt := s.block.outcnt + BitVec.ofNat 32 out.length
            outq := s.block.outq ++ out
            cand := rest, hold := 0, holdv := false } }
        (rest = [] →
          exec .finish s = .next { fed with block := { fed.block with state := .done } }) ∧
        (rest ≠ [] →
          exec .finish s = .next (fed.failed .corrupt (BitVec.ofNat 32 (rest.length + 256))
            (fed.block.bitcnt - BitVec.ofNat 64 rest.length)))) ∧
      (∀ out bad rest, s.block.FailsAt E out bad rest →
        let fed : State := { s with block :=
          { s.block with
            bitcnt := s.block.bitcnt + BitVec.ofNat 64 (F.length - rest.length)
            outcnt := s.block.outcnt + BitVec.ofNat 32 out.length
            outq := s.block.outq ++ out
            cand := bad, hold := 0, holdv := false } }
        exec .finish s = .next (fed.failed .corrupt (BitVec.ofNat 32 bad.length)
          (fed.block.bitcnt - BitVec.ofNat 64 bad.length))))

/-- The decoder never loops: on a prefix-free table every bit string either parses or fails at a
candidate, not both, and in one way only (R166, R172). -/
def Obligations.EveryStringParsesOrFailsOnce : Prop :=
  ∀ (s : Block) (E : Bits), s.PrefixFree →
    (∃ out rest, s.Parses E out rest ∧
      (∀ out' rest', s.Parses E out' rest' → out' = out ∧ rest' = rest) ∧
      ∀ out' bad' rest', ¬ s.FailsAt E out' bad' rest') ∨
    (∃ out bad rest, s.FailsAt E out bad rest ∧
      (∀ out' bad' rest', s.FailsAt E out' bad' rest' → out' = out ∧ bad' = bad ∧ rest' = rest) ∧
      ∀ out' rest', ¬ s.Parses E out' rest')

/-- Every entry CMD_STATE of the legality matrix (R128). -/
def Obligations.IllegalInStateRaisesCmdState : Prop :=
  ∀ (c : Command) (s : State), s.block.state ≠ .error →
    (((c = .startPack ∨ c = .startUnpack) ∧
        (s.block.state = .pack ∨ s.block.state = .unpack ∨ s.block.outq ≠ [])) ∨
      (((∃ d, c = .push d) ∨ c = .finish) ∧ (s.block.state = .idle ∨ s.block.state = .done)) ∨
      (c = .clrtab ∧ (s.block.state = .pack ∨ s.block.state = .unpack))) →
    exec (.ofCommand c) s = .next (s.failed .cmdState (encodeCommand c) s.block.bitcnt)

/-- PUSH and FINISH with RDY = 0 are not run: OVERRUN, with the command word recorded (R230, R255 H1). -/
def Obligations.NotReadyRaisesOverrun : Prop :=
  ∀ (s : State) (d : Byte), (s.block.state = .pack ∨ s.block.state = .unpack) →
    s.cfg.outqDepth < s.block.outq.length + 32 →
    exec (.push d) s =
      .next (s.failed .overrun (BitVec.ofNat 32 (0x03000000 + d.toNat)) s.block.bitcnt) ∧
    exec .finish s = .next (s.failed .overrun 0x04000000 s.block.bitcnt)

/-- In ERROR every command but NOP, ABORT and CLRTAB is ignored (R226, R228, R230). -/
def Obligations.ErrorStateIgnoresCommands : Prop :=
  ∀ (c : Command) (s : State), s.block.state = .error →
    c ≠ .nop → c ≠ .abort → c ≠ .clrtab → exec (.ofCommand c) s = .next s

/-- Only ABORT and reset leave ERROR; any other event keeps the first error and the frozen job state
(R45, R226, R227, R228). -/
def Obligations.OnlyAbortOrResetLeavesError : Prop :=
  ∀ (s t : State), s.block.state = .error → step s = .next t →
    (t.block.state = .idle ∧
      (s.pending.head? = some .reset ∨
        s.pending.head? = some (.access (.write 0x00C 0x05000000)))) ∨
    (t.block.state = .error ∧ t.block.errcode = s.block.errcode ∧
      t.block.errinfo = s.block.errinfo ∧ t.block.errpos = s.block.errpos ∧
      t.block.bitcnt = s.block.bitcnt ∧ t.block.outcnt = s.block.outcnt ∧
      t.block.accbits = s.block.accbits ∧ t.block.acclen = s.block.acclen ∧
      t.block.cand = s.block.cand ∧ t.block.hold = s.block.hold ∧
      t.block.holdv = s.block.holdv ∧ t.block.jobtm = s.block.jobtm)

/-- The state moves only as R128 says, and only on the command that R128 gives for the move: START opens
a job, FINISH ends one, ABORT and reset go to IDLE, and an error goes to ERROR. -/
def Obligations.StateMovesOnlyByItsCommand : Prop :=
  ∀ (s t : State), step s = .next t → t.block.state ≠ s.block.state →
    (t.block.state = .pack ∧ (s.block.state = .idle ∨ s.block.state = .done) ∧
      s.pending.head? = some (.access (.write 0x00C 0x01000000))) ∨
    (t.block.state = .unpack ∧ (s.block.state = .idle ∨ s.block.state = .done) ∧
      s.pending.head? = some (.access (.write 0x00C 0x02000000))) ∨
    (t.block.state = .done ∧ (s.block.state = .pack ∨ s.block.state = .unpack) ∧
      s.pending.head? = some (.access (.write 0x00C 0x04000000))) ∨
    (t.block.state = .idle ∧
      (s.pending.head? = some .reset ∨
        s.pending.head? = some (.access (.write 0x00C 0x05000000)))) ∨
    (t.block.state = .error ∧ t.block.errcode ≠ .noError)

/-! ## Register accesses -/

/-- The registers that are read as they are held: ID, TAIL, the halves of BITCNT and ERRPOS, OUTCNT,
ERRINFO, LEN and BITS, each at its address; the read changes nothing (R190, R196, R198, R199, R200, R201, R204, R206). -/
def Obligations.ReadsReturnTheRegister : Prop :=
  ∀ (s : State) (b : Byte) (w : BitVec 3),
    let returns (v : Nat) : Host.Outcome State Fault Refusal :=
      .next { s with replies := s.replies ++ [BitVec.ofNat 32 v] }
    (decodeAccess (.read 0x000) = .ok .rdId ∧ decodeAccess (.read 0x014) = .ok .rdTail ∧
      decodeAccess (.read 0x018) = .ok .rdBitcntLo ∧ decodeAccess (.read 0x01C) = .ok .rdBitcntHi ∧
      decodeAccess (.read 0x020) = .ok .rdOutcnt ∧ decodeAccess (.read 0x024) = .ok .rdErrinfo ∧
      decodeAccess (.read 0x028) = .ok .rdErrposLo ∧ decodeAccess (.read 0x02C) = .ok .rdErrposHi ∧
      decodeAccess (.read (BitVec.ofNat 16 (0x1000 + 4 * b.toNat))) = .ok (.rdLen b) ∧
      decodeAccess (.read (BitVec.ofNat 16 (0x2000 + 32 * b.toNat + 4 * w.toNat))) =
        .ok (.rdBits b w)) ∧
    exec .rdId s = returns 0x48554631 ∧
    exec .rdTail s = returns s.block.tail.toNat ∧
    exec .rdBitcntLo s = returns (s.block.bitcnt.toNat % 2 ^ 32) ∧
    exec .rdBitcntHi s = returns (s.block.bitcnt.toNat / 2 ^ 32) ∧
    exec .rdOutcnt s = returns s.block.outcnt.toNat ∧
    exec .rdErrinfo s = returns s.block.errinfo.toNat ∧
    exec .rdErrposLo s = returns (s.block.errpos.toNat % 2 ^ 32) ∧
    exec .rdErrposHi s = returns (s.block.errpos.toNat / 2 ^ 32) ∧
    exec (.rdLen b) s = returns (s.block.len b).toNat ∧
    exec (.rdBits b w) s = returns (s.block.bits b w).toNat

/-- STATUS reads each flag in its place, with the reserved bits 0; ERRCODE is non-zero exactly in ERROR; IRQ
is the level of R235; the read changes nothing (R25, R26, R27, R193, R220, R235). -/
def Obligations.StatusReadsTheFlags : Prop :=
  decodeAccess (.read 0x008) = .ok .rdStatus ∧ ∀ s : State, s.Inv →
    ∃ r : Word, exec .rdStatus s = .next { s with replies := s.replies ++ [r] } ∧
      (r.extractLsb' 0 3).toNat = (match s.block.state with
        | .idle => 0 | .pack => 1 | .unpack => 2 | .done => 3 | .error => 4) ∧
      r.getLsbD 3 = decide (32 ≤ s.cfg.outqDepth - s.block.outq.length) ∧
      r.getLsbD 4 = decide (s.block.outq ≠ []) ∧
      r.getLsbD 5 = s.block.holdv ∧
      r.extractLsb' 6 2 = 0 ∧
      (r.extractLsb' 8 4).toNat = (match s.block.errcode with
        | .noError => 0 | .illegalCmd => 1 | .cmdState => 2 | .overrun => 3 | .tableInvalid => 4
        | .noCode => 5 | .corrupt => 6 | .badTail => 7 | .tableBusy => 8 | .busErr => 9) ∧
      (r.extractLsb' 8 4 ≠ 0 ↔ s.block.state = .error) ∧
      r.extractLsb' 12 4 = 0 ∧
      (r.extractLsb' 16 8).toNat = s.block.outq.length ∧
      r.extractLsb' 24 7 = 0 ∧
      (r.getLsbD 31 = true ↔
        (s.block.ieErr = true ∧ s.block.state = .error) ∨
        (s.block.ieDone = true ∧ s.block.state = .done) ∨
        (s.block.ieOut = true ∧ 0 < s.block.outq.length)) ∧
      r.getLsbD 31 = s.block.irq

/-- WR_CTRL sets the four fields from bits 3..0 and nothing else, in every state; RD_CTRL reads them back
with the reserved bits 0 (R24, R191, R192). -/
def Obligations.CtrlWriteThenRead : Prop :=
  ∀ (s : State) (v : Word),
    decodeAccess (.read 0x004) = .ok .rdCtrl ∧ decodeAccess (.write 0x004 v) = .ok (.wrCtrl v) ∧
    exec (.wrCtrl v) s = .next { s with block :=
      { s.block with
        tailmode := v.getLsbD 0, ieErr := v.getLsbD 1, ieDone := v.getLsbD 2
        ieOut := v.getLsbD 3 } } ∧
    ∃ r : Word, exec .rdCtrl s = .next { s with replies := s.replies ++ [r] } ∧
      r.getLsbD 0 = s.block.tailmode ∧ r.getLsbD 1 = s.block.ieErr ∧
      r.getLsbD 2 = s.block.ieDone ∧ r.getLsbD 3 = s.block.ieOut ∧ r.extractLsb' 4 28 = 0

/-- WR_TAIL stores bits 3..0 and nothing else, in every state (R29, R197). -/
def Obligations.TailWriteStoresFourBits : Prop :=
  ∀ (s : State) (v : Word), decodeAccess (.write 0x014 v) = .ok (.wrTail v) ∧
    exec (.wrTail v) s = .next { s with block :=
      { s.block with tail := BitVec.ofNat 4 (v.toNat % 16) } }

/-- DBG reads the job state, each field in its place, and changes nothing (R35, R203). -/
def Obligations.DbgReadsTheJobState : Prop :=
  decodeAccess (.read 0x034) = .ok .rdDbg ∧ ∀ s : State, s.Inv →
    ∃ r : Word, exec .rdDbg s = .next { s with replies := s.replies ++ [r] } ∧
      (r.extractLsb' 0 8).toNat = s.block.cand.length ∧
      r.extractLsb' 8 8 = s.block.hold ∧
      r.getLsbD 16 = s.block.holdv ∧
      r.extractLsb' 17 3 = s.block.acclen ∧
      r.extractLsb' 20 7 = s.block.accbits ∧
      r.getLsbD 27 = s.block.jobtm ∧
      r.extractLsb' 28 4 = 0

/-- TABINFO reads the number of entries that have a code and the longest code length, and changes nothing
(R34, R38, R202). -/
def Obligations.TabinfoReadsNcodesAndMaxlen : Prop :=
  decodeAccess (.read 0x030) = .ok .rdTabinfo ∧ ∀ s : State,
    ∃ r : Word, exec .rdTabinfo s = .next { s with replies := s.replies ++ [r] } ∧
      (r.extractLsb' 0 9).toNat =
        ((Finset.range 256).filter fun n => s.block.len (BitVec.ofNat 8 n) ≠ 0).card ∧
      r.extractLsb' 9 7 = 0 ∧
      (∀ b, (s.block.len b).toNat ≤ (r.extractLsb' 16 8).toNat) ∧
      (r.extractLsb' 16 8 = 0 ∨ ∃ b, s.block.len b = r.extractLsb' 16 8) ∧
      r.extractLsb' 24 8 = 0

/-- RD_DOUT pops the oldest byte and returns it with VALID in bit 8, and returns 0 and changes nothing when
OUTQ is empty, in every state (R28, R195). -/
def Obligations.DoutPopsTheOldestByte : Prop :=
  decodeAccess (.read 0x010) = .ok .rdDout ∧ ∀ s : State,
    (s.block.outq = [] →
      exec .rdDout s = .next { s with replies := s.replies ++ [0] }) ∧
    (∀ x rest, s.block.outq = x :: rest →
      exec .rdDout s = .next { s with
        block := { s.block with outq := rest }
        replies := s.replies ++ [BitVec.ofNat 32 (256 + x.toNat)] })

/-- WR_LEN[b] during a job is dropped with TABLE_BUSY; otherwise LEN[b] becomes bits 7..0 of the value, and
every other entry, every word of BITS and the rest of the machine stay (R205). -/
def Obligations.LenWriteChangesOneEntry : Prop :=
  ∀ (s : State) (b : Byte) (v : Word), s.Inv →
    decodeAccess (.write (BitVec.ofNat 16 (0x1000 + 4 * b.toNat)) v) = .ok (.wrLen b v) ∧
    ((s.block.state = .pack ∨ s.block.state = .unpack) →
      exec (.wrLen b v) s = .next (s.failed .tableBusy
        (BitVec.ofNat 32 (0x1000 + 4 * b.toNat + 65536)) s.block.bitcnt)) ∧
    (s.block.state ≠ .pack → s.block.state ≠ .unpack →
      ∃ t, exec (.wrLen b v) s = .next t ∧
        t = { s with block := { s.block with tabLen := t.block.tabLen } } ∧
        (∀ c, (t.block.len c).toNat =
          if c = b then v.toNat % 256 else (s.block.len c).toNat) ∧
        ∀ c w, t.block.bits c w = s.block.bits c w)

/-- WR_BITS[b][w] during a job is dropped with TABLE_BUSY; otherwise the word becomes the value, and every
other word, every LEN and the rest of the machine stay. A code changes only where the word holds bits of it:
a value that agrees with the old word on the bits before LEN[b] leaves code(b) as it was, and no other code
changes (R207). -/
def Obligations.BitsWriteChangesOneWord : Prop :=
  ∀ (s : State) (b : Byte) (w : BitVec 3) (v : Word), s.Inv →
    decodeAccess (.write (BitVec.ofNat 16 (0x2000 + 32 * b.toNat + 4 * w.toNat)) v) =
      .ok (.wrBits b w v) ∧
    ((s.block.state = .pack ∨ s.block.state = .unpack) →
      exec (.wrBits b w v) s = .next (s.failed .tableBusy
        (BitVec.ofNat 32 (0x2000 + 32 * b.toNat + 4 * w.toNat + 65536)) s.block.bitcnt)) ∧
    (s.block.state ≠ .pack → s.block.state ≠ .unpack →
      ∃ t, exec (.wrBits b w v) s = .next t ∧
        t = { s with block := { s.block with tabBits := t.block.tabBits } } ∧
        (∀ c x, t.block.bits c x = if c = b ∧ x = w then v else s.block.bits c x) ∧
        (∀ c, t.block.len c = s.block.len c) ∧
        (∀ c, c ≠ b → t.block.code c = s.block.code c) ∧
        ((∀ i, i < (s.block.len b).toNat → i / 32 = w.toNat →
            v.getLsbD (31 - i % 32) = (s.block.bits b w).getLsbD (31 - i % 32)) →
          t.block.code b = s.block.code b))

/-! ## Frames and whole-machine rules -/

/-- A read has no side effect on the block, except a read of DOUT and a read that raises BUS_ERR (R69). -/
def Obligations.OnlyDoutReadsHaveASideEffect : Prop :=
  ∀ (s t : State) (a : Addr) (rest : List Event),
    s.pending = .access (.read a) :: rest → Listed (.read a) → a ≠ 0x010 →
      step s = .next t → t.block = s.block

/-- CTRL changes only by a write of CTRL or by reset, and TAIL only by a write of TAIL, by FINISH of a pack
job, or by reset (R24, R29). -/
def Obligations.CtrlAndTailChangeOnlyByTheirWrites : Prop :=
  ∀ (s t : State), step s = .next t → s.pending.head? ≠ some .reset →
    ((∀ v, s.pending.head? ≠ some (.access (.write 0x004 v))) →
      t.block.tailmode = s.block.tailmode ∧ t.block.ieErr = s.block.ieErr ∧
        t.block.ieDone = s.block.ieDone ∧ t.block.ieOut = s.block.ieOut) ∧
    ((∀ v, s.pending.head? ≠ some (.access (.write 0x014 v))) →
      t.block.tail = s.block.tail ∨
        (s.block.state = .pack ∧
          s.pending.head? = some (.access (.write 0x00C 0x04000000))))

/-- The code table is frozen during a job: no event but reset changes what LEN or BITS reads (R73). -/
def Obligations.TableIsFrozenDuringAJob : Prop :=
  ∀ (s t : State), (s.block.state = .pack ∨ s.block.state = .unpack) → step s = .next t →
    s.pending.head? ≠ some .reset → s.block.SameTable t.block

/-- A command changes neither CTRL nor, but for CLRTAB, the table, nor the host's side of the machine
(R121 to R127). -/
def Obligations.CommandsKeepCtrlAndTable : Prop :=
  ∀ (c : Command) (s t : State), exec (.ofCommand c) s = .next t →
    t.cfg = s.cfg ∧ t.pending = s.pending ∧ t.replies = s.replies ∧
    t.block.tailmode = s.block.tailmode ∧ t.block.ieErr = s.block.ieErr ∧
    t.block.ieDone = s.block.ieDone ∧ t.block.ieOut = s.block.ieOut ∧
    (c ≠ .clrtab → t.block.tabLen = s.block.tabLen ∧ t.block.tabBits = s.block.tabBits)

/-- A pack job writes none of JOBTM, CAND, HOLD and HOLDV, and TAIL only at FINISH; an unpack job writes
none of ACCBITS, ACCLEN and TAIL (R144, R168, R174). -/
def Obligations.JobsKeepEachOthersState : Prop :=
  ∀ (c : Command) (s t : State), ((∃ d, c = .push d) ∨ c = .finish) →
    exec (.ofCommand c) s = .next t →
    (s.block.state = .pack →
      t.block.jobtm = s.block.jobtm ∧ t.block.cand = s.block.cand ∧
      t.block.hold = s.block.hold ∧ t.block.holdv = s.block.holdv ∧
      (c ≠ .finish → t.block.tail = s.block.tail)) ∧
    (s.block.state = .unpack →
      t.block.accbits = s.block.accbits ∧ t.block.acclen = s.block.acclen ∧
      t.block.jobtm = s.block.jobtm ∧ t.block.tail = s.block.tail)

/-- A pack job reads none of TAIL, JOBTM, CAND, HOLD and HOLDV: two machines that differ only there answer
PUSH and FINISH alike, and still differ only there (R144). -/
def Obligations.PackJobDoesNotReadTheDecoder : Prop :=
  ∀ (c : Command) (s t : State) (tl : BitVec 4) (j hv : Bool) (cd : Bits) (h : Byte),
    ((∃ d, c = .push d) ∨ c = .finish) → s.block.state = .pack →
    exec (.ofCommand c) s = .next t →
    exec (.ofCommand c) { s with block :=
        { s.block with tail := tl, jobtm := j, cand := cd, hold := h, holdv := hv } } =
      .next { t with block :=
        { t.block with
          tail := if t.block.state = .done then t.block.tail else tl
          jobtm := j, cand := cd, hold := h, holdv := hv } }

/-- An unpack job does not read ACCBITS or ACCLEN, and reads TAIL only at FINISH in EXACT mode: two
machines that differ only there answer alike, and still differ only there (R174). -/
def Obligations.UnpackJobDoesNotReadThePacker : Prop :=
  ∀ (c : Command) (s t : State) (ab : BitVec 7) (al : BitVec 3) (tl : BitVec 4),
    ((∃ d, c = .push d) ∨ (c = .finish ∧ (s.block.jobtm = true → tl = s.block.tail))) →
    s.block.state = .unpack → exec (.ofCommand c) s = .next t →
    exec (.ofCommand c) { s with block :=
        { s.block with accbits := ab, acclen := al, tail := tl } } =
      .next { t with block := { t.block with accbits := ab, acclen := al, tail := tl } }

/-- One PUSH or FINISH adds at most 32 bytes to OUTQ in a pack job and at most 8 in an unpack job, so RDY = 1
is room enough (R27). -/
def Obligations.OneCommandAddsAtMost32Bytes : Prop :=
  ∀ (c : Command) (s t : State), s.Inv → ((∃ d, c = .push d) ∨ c = .finish) →
    exec (.ofCommand c) s = .next t →
    ∃ new, t.block.outq = s.block.outq ++ new ∧
      (s.block.state = .pack → new.length ≤ 32) ∧ (s.block.state = .unpack → new.length ≤ 8) ∧
      (s.block.state ≠ .pack → s.block.state ≠ .unpack → new = [])

/-- OUTQ is first-in first-out: a step adds bytes at the tail, or a read of DOUT takes the head and returns
it, or ABORT or reset empties it (R44, R67, R70). -/
def Obligations.OutqIsFirstInFirstOut : Prop :=
  ∀ (s t : State), step s = .next t →
    (∃ new, t.block.outq = s.block.outq ++ new) ∨
    (∃ x rest, s.pending.head? = some (.access (.read 0x010)) ∧ s.block.outq = x :: rest ∧
      t.block.outq = rest ∧ t.replies = s.replies ++ [BitVec.ofNat 32 (256 + x.toNat)]) ∨
    (t.block.outq = [] ∧
      (s.pending.head? = some .reset ∨
        s.pending.head? = some (.access (.write 0x00C 0x05000000))))

/-! ## Invariants -/

/-- Every step keeps the invariant of the machine: ERRCODE exactly in ERROR (R25), ERRINFO and ERRPOS
clear outside it (R227), the range of ACC (R40), CAND and HOLD clear outside an unpack job (R41, R42), OUTQ
within OUTQ_DEPTH (R44), a prefix-free table during a job (R73), the candidate's bounds in an unpack job
(R160), and the counters of a pack job (R31, R140). The model's own: the canonical form of the table's two
stores is its choice (log 11), and it bounds CANDLEN by 254 outside ERROR but by 255 in ERROR, where R41 says
254 flatly (log 9, DEDUCED from R163 and R226). -/
def Obligations.StepKeepsTheInvariant : Prop :=
  ∀ (s t : State), s.Inv → step s = .next t → t.Inv

/-- The state right after reset meets the invariant, for every legal OUTQ_DEPTH (R8, R250); the invariant's
canonical form is log 11, and the OUTQ_DEPTH of `State.reset` itself is log 1, choices of the model. -/
def Obligations.ResetMeetsTheInvariant : Prop :=
  State.reset.Inv ∧ ∀ cfg : Config, cfg.valid = true → { State.reset with cfg := cfg }.Inv

/-- The pack invariant (R140), as an invariant of steps: START_PACK establishes it for the empty stream, a
PUSH that succeeds extends the stream by its code, and every other event that leaves the job open keeps
it. -/
def Obligations.PackTraceIsKept : Prop :=
  (∀ s t : State, (s.block.state = .idle ∨ s.block.state = .done) → exec .startPack s = .next t →
    t.block.state = .pack → t.block.PackTrace [] []) ∧
  (∀ (s t : State) (d : Byte) (S : Bits) (emitted : List Byte), s.block.PackTrace S emitted →
    exec (.push d) s = .next t → t.block.state = .pack →
    ∃ new, t.block.outq = s.block.outq ++ new ∧
      t.block.PackTrace (S ++ s.block.code d) (emitted ++ new)) ∧
  (∀ (s t : State) (S : Bits) (emitted : List Byte), s.block.PackTrace S emitted →
    step s = .next t → t.block.state = .pack →
    (∀ d, s.pending.head? ≠ some (issueCommand (.push d))) → t.block.PackTrace S emitted)

/-- The unpack invariant (R160), as an invariant of steps: START_UNPACK establishes it for no byte, a PUSH
that succeeds extends the bytes by its own, and every other event that leaves the job open keeps it. -/
def Obligations.UnpackTraceIsKept : Prop :=
  (∀ s t : State, (s.block.state = .idle ∨ s.block.state = .done) →
    exec .startUnpack s = .next t → t.block.state = .unpack → t.block.UnpackTrace [] []) ∧
  (∀ (s t : State) (p : Byte) (ps emitted : List Byte), s.block.UnpackTrace ps emitted →
    exec (.push p) s = .next t → t.block.state = .unpack →
    ∃ new, t.block.outq = s.block.outq ++ new ∧
      t.block.UnpackTrace (ps ++ [p]) (emitted ++ new)) ∧
  (∀ (s t : State) (ps emitted : List Byte), s.block.UnpackTrace ps emitted →
    step s = .next t → t.block.state = .unpack →
    (∀ d, s.pending.head? ≠ some (issueCommand (.push d))) → t.block.UnpackTrace ps emitted)

/-! ## Host programs -/

/-- LOADCODE loads a code of 1 to 255 bits: the entry's code is then that code, and every other entry is as
before; it is legal whenever no job is open (R37, R101). -/
def Obligations.LoadcodeLoadsTheCode : Prop :=
  ∀ (s : State) (b : Byte) (c : Bits), s.Inv → s.block.state ≠ .pack → s.block.state ≠ .unpack →
    codeWellFormed c = true →
    ∃ t, Runs s (loadCode b c) t ∧ t.block.valid b = true ∧ t.block.code b = c ∧
      ∀ a, a ≠ b → t.block.valid a = s.block.valid a ∧ t.block.code a = s.block.code a

/-- DRAIN empties OUTQ with one read for each byte and one more, and returns the bytes in order (R101). -/
def Obligations.DrainEmptiesOutq : Prop :=
  ∀ s : State, ∃ t, drain (s.block.outq.length + 1) s = some t ∧
    t = { s with
      block := { s.block with outq := [] }
      replies := s.replies ++ s.block.outq.map (fun x => BitVec.ofNat 32 (256 + x.toNat)) ++ [0] }

/-- WAITRDY ends at its first read when RDY = 1, and never ends when RDY = 0: nothing but DOUT reads, ABORT
and reset frees slots (R101, R256). -/
def Obligations.WaitrdyEndsAtOnceOrNever : Prop :=
  ∀ (s : State) (n : Nat),
    (s.block.outq.length + 32 ≤ s.cfg.outqDepth →
      ∃ t, waitRdy (n + 1) s = some t ∧ t.block = s.block ∧ t.pending = s.pending) ∧
    (s.cfg.outqDepth < s.block.outq.length + 32 → waitRdy n s = none)

/-! ## Final bytes -/

/-- The final chunk's byte, expanded again: its natural representation is never longer than the chunk, and is
the chunk exactly when the chunk begins with 1 or is the single bit "0"; its low bits, as many as the chunk
has, are always the chunk (R149, R162, R169, R170). -/
def Obligations.FinalByteExpansions : Prop :=
  ∀ c : Bits, 1 ≤ c.length → c.length ≤ 8 →
    (expandFinalCompat (chunkByte c) = c ↔ (c.head? = some true ∨ c = [false])) ∧
    (¬ (c.head? = some true ∨ c = [false]) →
      (expandFinalCompat (chunkByte c)).length < c.length) ∧
    binN c.length (chunkByte c) = c

/-! ## Whole jobs -/

/-- A pack job that ends DONE has packed its input: the bytes read and still in OUTQ are the packed
bytes of the codes in input order, their number is ceil(len(S) / 8), and OUTCNT, BITCNT and TAIL say so;
DOUT may be read at any point of the job (R98, R99, R146, R148). -/
def Obligations.PackJobPacksTheStream : Prop :=
  ∀ (s t : State) (ops : List JobOp), s.Inv → s.ready →
    Runs s (jobEvents .startPack ops) t → t.block.state = .done →
    let S : Bits := s.block.stream (pushedBytes ops)
    s.block.AllValid (pushedBytes ops) ∧
    t.output = packedBytes S ∧
    t.output.length = (S.length + 7) / 8 ∧
    t.block.outcnt = BitVec.ofNat 32 ((S.length + 7) / 8) ∧
    t.block.bitcnt = BitVec.ofNat 64 S.length ∧
    (S.length < 2 ^ 64 → t.block.tail.toNat = tailOf S)

/-- A pack job whose host drains OUTQ after each PUSH ends DONE, when the table is prefix-free and every
byte has a code (R253, R255). -/
def Obligations.DrainedPackJobEndsDone : Prop :=
  ∀ (s : State) (ds : List Byte), s.Inv → s.ready → s.block.PrefixFree → s.block.AllValid ds →
    ∃ t, Runs s (jobEvents .startPack (drainedPushes ds)) t ∧ t.block.state = .done

/-- An unpack job is the source's decoder: the bytes read and still in OUTQ are those the decoder reads from
the expansion of the packed bytes; the job is DONE exactly when the expansion parses completely, and
otherwise has raised CORRUPT. DOUT may be read at any point; a host that drains OUTQ after each PUSH never
meets OVERRUN (R161, R167, R173, R175). -/
def Obligations.UnpackJobIsTheSourcesDecoder : Prop :=
  ∀ (s : State) (ops : List JobOp), s.Inv → s.ready → s.block.PrefixFree →
    (s.block.tailmode = true → ∀ p, (pushedBytes ops).getLast? = some p →
      TailFits s.block.tail.toNat p) →
    (∀ t, Runs s (jobEvents .startUnpack ops) t → t.block.errcode ≠ .overrun →
      ∃ rest,
        expansion s.block.tailmode s.block.tail.toNat (pushedBytes ops) =
          s.block.stream t.output ++ rest ∧
        s.block.AllValid t.output ∧ s.block.Unmatched rest ∧
        (rest = [] → t.block.state = .done) ∧
        (rest ≠ [] → t.block.state = .error ∧ t.block.errcode = .corrupt)) ∧
    (ops = drainedPushes (pushedBytes ops) →
      ∃ t, Runs s (jobEvents .startUnpack ops) t ∧ t.block.errcode ≠ .overrun)

/-- The round trip in EXACT mode: for every prefix-free table and every byte string whose bytes have codes,
packing, and then unpacking the packed bytes with the TAIL the pack job left, ends DONE and gives the byte
string back (R176). The unpacking block may be another, with the same table. -/
def Obligations.ExactRoundTrip : Prop :=
  ∀ (s : State) (ds : List Byte), s.Inv → s.ready → s.block.PrefixFree → s.block.AllValid ds →
    (s.block.stream ds).length < 2 ^ 64 →
    ∃ t, Runs s (jobEvents .startPack (drainedPushes ds)) t ∧ t.block.state = .done ∧
      ∀ u : State, u.Inv → u.ready → s.block.SameTable u.block → u.block.tailmode = true →
        u.block.tail = t.block.tail →
        ∃ v, Runs u (jobEvents .startUnpack (drainedPushes t.output)) v ∧
          v.block.state = .done ∧ v.output = ds

/-- The round trip in COMPAT mode holds exactly when the input is empty, or the final chunk begins with 1,
or the final chunk is the single bit "0" (R149, R169, R176). -/
def Obligations.CompatRoundTripCondition : Prop :=
  ∀ (s : State) (ds : List Byte), s.Inv → s.ready → s.block.PrefixFree → s.block.AllValid ds →
    ∃ t, Runs s (jobEvents .startPack (drainedPushes ds)) t ∧ t.block.state = .done ∧
      ∀ u : State, u.Inv → u.ready → s.block.SameTable u.block → u.block.tailmode = false →
        ∃ v, Runs u (jobEvents .startUnpack (drainedPushes t.output)) v ∧
          ((v.block.state = .done ∧ v.output = ds) ↔
            (ds = [] ∨ ∃ c, (chunks (s.block.stream ds)).getLast? = some c ∧
              (c.head? = some true ∨ c = [false])))
end

