-- ==== Sys2Proof/Laws/Bits.lean ====
section
/-!
SUPPORT. The laws of bit strings as numbers and of slicing into chunks (spec/00_scope.md R10, R11;
spec/20_memory.md R66).
-/

namespace Sys2Proof.Machine

/-! ## Bit strings as numbers -/

@[simp] theorem bitsToNat_nil : bitsToNat [] = 0 := rfl

@[simp] theorem bitsToNat_cons (x : Bool) (c : Bits) :
    bitsToNat (x :: c) = x.toNat * 2 ^ c.length + bitsToNat c := rfl

theorem bitsToNat_lt (c : Bits) : bitsToNat c < 2 ^ c.length := by
  induction c with
  | nil => simp
  | cons x c ih =>
    have hx : x.toNat ≤ 1 := Bool.toNat_le x
    have := Nat.mul_le_mul_right (2 ^ c.length) hx
    simp only [bitsToNat_cons, List.length_cons, Nat.pow_succ]
    omega

theorem bitsToNat_append (c d : Bits) :
    bitsToNat (c ++ d) = bitsToNat c * 2 ^ d.length + bitsToNat d := by
  induction c with
  | nil => simp
  | cons x c ih =>
    simp only [List.cons_append, bitsToNat_cons, ih, List.length_append, Nat.pow_add]
    ring

@[simp] theorem lowBits_length (n v : Nat) : (lowBits n v).length = n := by simp [lowBits]

@[simp] theorem lowBits_zero (v : Nat) : lowBits 0 v = [] := rfl

theorem lowBits_succ (n v : Nat) : lowBits (n + 1) v = v.testBit n :: lowBits n v := by
  simp only [lowBits, List.range_succ_eq_map, List.map_cons, List.map_map]
  congr 1
  apply List.map_congr_left
  intro i hi
  simp only [Function.comp, List.mem_range] at *
  congr 1
  omega

/-- Reading a number's low bits and parsing them gives the number below `2^n`. -/
theorem bitsToNat_lowBits (n v : Nat) : bitsToNat (lowBits n v) = v % 2 ^ n := by
  induction n with
  | zero => simp [Nat.mod_one]
  | succ n ih =>
    rw [lowBits_succ, bitsToNat_cons, ih, lowBits_length, Nat.mod_pow_succ, Nat.toNat_testBit]
    ring

/-- Only the low bits of a number show in its low bits. -/
theorem lowBits_add_mul (n v k : Nat) : lowBits n (v + k * 2 ^ n) = lowBits n v := by
  simp only [lowBits]
  apply List.map_congr_left
  intro i hi
  rw [List.mem_range] at hi
  have h1 := Nat.testBit_mod_two_pow (v + k * 2 ^ n) n (n - 1 - i)
  have h2 := Nat.testBit_mod_two_pow v n (n - 1 - i)
  rw [Nat.add_mul_mod_self_right] at h1
  rw [h1] at h2
  simpa [show n - 1 - i < n by omega] using h2

/-- Parsing a bit string and reading it back gives the bit string. -/
theorem lowBits_bitsToNat (c : Bits) : lowBits c.length (bitsToNat c) = c := by
  induction c with
  | nil => rfl
  | cons x c ih =>
    rw [List.length_cons, lowBits_succ, bitsToNat_cons, Nat.add_comm, lowBits_add_mul, ih]
    congr 1
    have hc := bitsToNat_lt c
    cases x
    · simp [Nat.testBit_lt_two_pow hc]
    · rw [Bool.toNat_true, Nat.one_mul, Nat.add_comm, Nat.testBit_two_pow_add_eq,
        Nat.testBit_lt_two_pow hc]
      rfl

theorem bitsToNat_inj {c d : Bits} (hl : c.length = d.length) (h : bitsToNat c = bitsToNat d) :
    c = d := by
  rw [← lowBits_bitsToNat c, ← lowBits_bitsToNat d, hl, h]

/-- `binN(v)` is the low `n` bits of the byte's value. -/
theorem binN_eq (n : Nat) (v : Byte) : binN n v = lowBits n v.toNat := rfl

@[simp] theorem binN_length (n : Nat) (v : Byte) : (binN n v).length = n := by simp [binN]

@[simp] theorem bin8_length (v : Byte) : (bin8 v).length = 8 := binN_length 8 v

/-- The final byte's COMPAT expansion has 1 to 8 bits (R162). -/
theorem expandFinalCompat_length (v : Byte) :
    1 ≤ (expandFinalCompat v).length ∧ (expandFinalCompat v).length ≤ 8 := by
  unfold expandFinalCompat
  split
  · simp
  · rename_i h
    have hv : v.toNat ≠ 0 := fun e => h (BitVec.eq_of_toNat_eq e)
    have : Nat.log2 v.toNat < 8 := (Nat.log2_lt hv).mpr v.isLt
    simp only [binN_length, bitlen]
    omega

/-! ## Chunks -/

theorem chunks_of_length_8_append {B : Bits} (hB : B.length = 8) (c : Bits) :
    chunks (B ++ c) = B :: chunks c := by
  match B, hB with
  | [_, _, _, _, _, _, _, _], _ => rfl

theorem packedBytes_of_length_8_append {B : Bits} (hB : B.length = 8) (c : Bits) :
    packedBytes (B ++ c) = chunkByte B :: packedBytes c := by
  simp [packedBytes, chunks_of_length_8_append hB]

@[simp] theorem packedBytes_nil : packedBytes [] = [] := rfl

theorem packedBytes_short {c : Bits} (h0 : c ≠ []) (h : c.length < 8) :
    packedBytes c = [chunkByte c] := by
  match c, h0, h with
  | [_], _, _ => rfl
  | [_, _], _, _ => rfl
  | [_, _, _], _, _ => rfl
  | [_, _, _, _], _, _ => rfl
  | [_, _, _, _, _], _, _ => rfl
  | [_, _, _, _, _, _], _, _ => rfl
  | [_, _, _, _, _, _, _], _, _ => rfl

theorem fullPart_of_length_8_append {B : Bits} (hB : B.length = 8) (c : Bits) :
    fullPart (B ++ c) = B ++ fullPart c := by
  have h : 8 * ((B ++ c).length / 8) = B.length + 8 * (c.length / 8) := by
    rw [List.length_append]; omega
  rw [fullPart, h, List.take_length_add_append, fullPart]

theorem shortPart_of_length_8_append {B : Bits} (hB : B.length = 8) (c : Bits) :
    shortPart (B ++ c) = shortPart c := by
  have h : 8 * ((B ++ c).length / 8) = B.length + 8 * (c.length / 8) := by
    rw [List.length_append]; omega
  rw [shortPart, h, List.drop_length_add_append, shortPart]

theorem fullPart_short {c : Bits} (h : c.length < 8) : fullPart c = [] := by
  simp [fullPart, Nat.div_eq_of_lt h]

theorem shortPart_short {c : Bits} (h : c.length < 8) : shortPart c = c := by
  simp [shortPart, Nat.div_eq_of_lt h]

theorem fullPart_append_shortPart (c : Bits) : fullPart c ++ shortPart c = c :=
  List.take_append_drop _ _

@[simp] theorem shortPart_length (c : Bits) : (shortPart c).length = c.length % 8 := by
  simp only [shortPart, List.length_drop]
  omega

theorem fullPart_length (c : Bits) : (fullPart c).length = 8 * (c.length / 8) := by
  simp only [fullPart, List.length_take]
  omega

/-- Packing a string whose length is a multiple of 8, and then another, is packing both (R66). -/
theorem packedBytes_append {c : Bits} (n : Nat) (hn : c.length = 8 * n) (d : Bits) :
    packedBytes (c ++ d) = packedBytes c ++ packedBytes d := by
  induction n generalizing c with
  | zero => simp [List.eq_nil_of_length_eq_zero (by simpa using hn)]
  | succ n ih =>
    have hB : (c.take 8).length = 8 := by simp; omega
    conv_lhs => rw [← List.take_append_drop 8 c]
    conv_rhs => rw [← List.take_append_drop 8 c]
    rw [List.append_assoc, packedBytes_of_length_8_append hB, packedBytes_of_length_8_append hB,
      ih (by simp; omega), List.cons_append]

end Sys2Proof.Machine
end

