-- ==== Sys2Proof/Laws/State.lean ====
section
/-!
SUPPORT. For each update of the state, one lemma per field: what the field is after it. Every one holds
by `rfl`, and `simp` uses them, so that no proof unfolds a record update.
-/

namespace Sys2Proof.Machine

/-! ## Accesses that go on or have ended -/

@[simp] theorem Flow.block_go (s : Block) : (Flow.go s).block = s := rfl

@[simp] theorem Flow.block_ended (s : Block) : (Flow.ended s).block = s := rfl

@[simp] theorem Flow.andThen_go (s : Block) (f : Block → Flow) : (Flow.go s).andThen f = f s := rfl

@[simp] theorem Flow.andThen_ended (s : Block) (f : Block → Flow) :
    (Flow.ended s).andThen f = .ended s := rfl

/-- A raise ends the access: nothing after it runs (R225). -/
@[simp] theorem raise_andThen (e : ErrCode) (i : Word) (p : BitVec 64) (s : Block)
    (f : Block → Flow) : (raise e i p s).andThen f = raise e i p s := rfl

theorem Flow.andThen_assoc (x : Flow) (f g : Block → Flow) :
    (x.andThen f).andThen g = x.andThen fun s => (f s).andThen g := by
  cases x <;> rfl

/-- What a sequence of two parts leaves: the block of the first when a raise ended it, and otherwise
what the second leaves. -/
theorem Flow.andThen_cases (x : Flow) (f : Block → Flow) :
    (∃ s, x = .go s ∧ x.andThen f = f s) ∨ (∃ s, x = .ended s ∧ x.andThen f = .ended s) := by
  cases x with
  | go s => exact .inl ⟨s, rfl, rfl⟩
  | ended s => exact .inr ⟨s, rfl, rfl⟩

/-! ## `Block.outPush` -/

@[simp] theorem outPush_tailmode (x : Byte) (s : Block) :
    (s.outPush x).tailmode = s.tailmode := rfl

@[simp] theorem outPush_ieErr (x : Byte) (s : Block) :
    (s.outPush x).ieErr = s.ieErr := rfl

@[simp] theorem outPush_ieDone (x : Byte) (s : Block) :
    (s.outPush x).ieDone = s.ieDone := rfl

@[simp] theorem outPush_ieOut (x : Byte) (s : Block) :
    (s.outPush x).ieOut = s.ieOut := rfl

@[simp] theorem outPush_state (x : Byte) (s : Block) :
    (s.outPush x).state = s.state := rfl

@[simp] theorem outPush_errcode (x : Byte) (s : Block) :
    (s.outPush x).errcode = s.errcode := rfl

@[simp] theorem outPush_errinfo (x : Byte) (s : Block) :
    (s.outPush x).errinfo = s.errinfo := rfl

@[simp] theorem outPush_errpos (x : Byte) (s : Block) :
    (s.outPush x).errpos = s.errpos := rfl

@[simp] theorem outPush_tail (x : Byte) (s : Block) :
    (s.outPush x).tail = s.tail := rfl

@[simp] theorem outPush_bitcnt (x : Byte) (s : Block) :
    (s.outPush x).bitcnt = s.bitcnt := rfl

@[simp] theorem outPush_outcnt (x : Byte) (s : Block) :
    (s.outPush x).outcnt = s.outcnt + 1 := rfl

@[simp] theorem outPush_accbits (x : Byte) (s : Block) :
    (s.outPush x).accbits = s.accbits := rfl

@[simp] theorem outPush_acclen (x : Byte) (s : Block) :
    (s.outPush x).acclen = s.acclen := rfl

@[simp] theorem outPush_cand (x : Byte) (s : Block) :
    (s.outPush x).cand = s.cand := rfl

@[simp] theorem outPush_hold (x : Byte) (s : Block) :
    (s.outPush x).hold = s.hold := rfl

@[simp] theorem outPush_holdv (x : Byte) (s : Block) :
    (s.outPush x).holdv = s.holdv := rfl

@[simp] theorem outPush_jobtm (x : Byte) (s : Block) :
    (s.outPush x).jobtm = s.jobtm := rfl

@[simp] theorem outPush_outq (x : Byte) (s : Block) :
    (s.outPush x).outq = s.outq ++ [x] := rfl

@[simp] theorem outPush_tabLen (x : Byte) (s : Block) :
    (s.outPush x).tabLen = s.tabLen := rfl

@[simp] theorem outPush_tabBits (x : Byte) (s : Block) :
    (s.outPush x).tabBits = s.tabBits := rfl

/-! ## `Block.setLen` -/

@[simp] theorem setLen_tailmode (b : Byte) (v : BitVec 8) (s : Block) :
    (s.setLen b v).tailmode = s.tailmode := rfl

@[simp] theorem setLen_ieErr (b : Byte) (v : BitVec 8) (s : Block) :
    (s.setLen b v).ieErr = s.ieErr := rfl

@[simp] theorem setLen_ieDone (b : Byte) (v : BitVec 8) (s : Block) :
    (s.setLen b v).ieDone = s.ieDone := rfl

@[simp] theorem setLen_ieOut (b : Byte) (v : BitVec 8) (s : Block) :
    (s.setLen b v).ieOut = s.ieOut := rfl

@[simp] theorem setLen_state (b : Byte) (v : BitVec 8) (s : Block) :
    (s.setLen b v).state = s.state := rfl

@[simp] theorem setLen_errcode (b : Byte) (v : BitVec 8) (s : Block) :
    (s.setLen b v).errcode = s.errcode := rfl

@[simp] theorem setLen_errinfo (b : Byte) (v : BitVec 8) (s : Block) :
    (s.setLen b v).errinfo = s.errinfo := rfl

@[simp] theorem setLen_errpos (b : Byte) (v : BitVec 8) (s : Block) :
    (s.setLen b v).errpos = s.errpos := rfl

@[simp] theorem setLen_tail (b : Byte) (v : BitVec 8) (s : Block) :
    (s.setLen b v).tail = s.tail := rfl

@[simp] theorem setLen_bitcnt (b : Byte) (v : BitVec 8) (s : Block) :
    (s.setLen b v).bitcnt = s.bitcnt := rfl

@[simp] theorem setLen_outcnt (b : Byte) (v : BitVec 8) (s : Block) :
    (s.setLen b v).outcnt = s.outcnt := rfl

@[simp] theorem setLen_accbits (b : Byte) (v : BitVec 8) (s : Block) :
    (s.setLen b v).accbits = s.accbits := rfl

@[simp] theorem setLen_acclen (b : Byte) (v : BitVec 8) (s : Block) :
    (s.setLen b v).acclen = s.acclen := rfl

@[simp] theorem setLen_cand (b : Byte) (v : BitVec 8) (s : Block) :
    (s.setLen b v).cand = s.cand := rfl

@[simp] theorem setLen_hold (b : Byte) (v : BitVec 8) (s : Block) :
    (s.setLen b v).hold = s.hold := rfl

@[simp] theorem setLen_holdv (b : Byte) (v : BitVec 8) (s : Block) :
    (s.setLen b v).holdv = s.holdv := rfl

@[simp] theorem setLen_jobtm (b : Byte) (v : BitVec 8) (s : Block) :
    (s.setLen b v).jobtm = s.jobtm := rfl

@[simp] theorem setLen_outq (b : Byte) (v : BitVec 8) (s : Block) :
    (s.setLen b v).outq = s.outq := rfl

@[simp] theorem setLen_tabLen (b : Byte) (v : BitVec 8) (s : Block) :
    (s.setLen b v).tabLen = s.tabLen.write (lenCell b) v := rfl

@[simp] theorem setLen_tabBits (b : Byte) (v : BitVec 8) (s : Block) :
    (s.setLen b v).tabBits = s.tabBits := rfl

/-! ## `Block.setBits` -/

@[simp] theorem setBits_tailmode (b : Byte) (w : BitVec 3) (v : Word) (s : Block) :
    (s.setBits b w v).tailmode = s.tailmode := rfl

@[simp] theorem setBits_ieErr (b : Byte) (w : BitVec 3) (v : Word) (s : Block) :
    (s.setBits b w v).ieErr = s.ieErr := rfl

@[simp] theorem setBits_ieDone (b : Byte) (w : BitVec 3) (v : Word) (s : Block) :
    (s.setBits b w v).ieDone = s.ieDone := rfl

@[simp] theorem setBits_ieOut (b : Byte) (w : BitVec 3) (v : Word) (s : Block) :
    (s.setBits b w v).ieOut = s.ieOut := rfl

@[simp] theorem setBits_state (b : Byte) (w : BitVec 3) (v : Word) (s : Block) :
    (s.setBits b w v).state = s.state := rfl

@[simp] theorem setBits_errcode (b : Byte) (w : BitVec 3) (v : Word) (s : Block) :
    (s.setBits b w v).errcode = s.errcode := rfl

@[simp] theorem setBits_errinfo (b : Byte) (w : BitVec 3) (v : Word) (s : Block) :
    (s.setBits b w v).errinfo = s.errinfo := rfl

@[simp] theorem setBits_errpos (b : Byte) (w : BitVec 3) (v : Word) (s : Block) :
    (s.setBits b w v).errpos = s.errpos := rfl

@[simp] theorem setBits_tail (b : Byte) (w : BitVec 3) (v : Word) (s : Block) :
    (s.setBits b w v).tail = s.tail := rfl

@[simp] theorem setBits_bitcnt (b : Byte) (w : BitVec 3) (v : Word) (s : Block) :
    (s.setBits b w v).bitcnt = s.bitcnt := rfl

@[simp] theorem setBits_outcnt (b : Byte) (w : BitVec 3) (v : Word) (s : Block) :
    (s.setBits b w v).outcnt = s.outcnt := rfl

@[simp] theorem setBits_accbits (b : Byte) (w : BitVec 3) (v : Word) (s : Block) :
    (s.setBits b w v).accbits = s.accbits := rfl

@[simp] theorem setBits_acclen (b : Byte) (w : BitVec 3) (v : Word) (s : Block) :
    (s.setBits b w v).acclen = s.acclen := rfl

@[simp] theorem setBits_cand (b : Byte) (w : BitVec 3) (v : Word) (s : Block) :
    (s.setBits b w v).cand = s.cand := rfl

@[simp] theorem setBits_hold (b : Byte) (w : BitVec 3) (v : Word) (s : Block) :
    (s.setBits b w v).hold = s.hold := rfl

@[simp] theorem setBits_holdv (b : Byte) (w : BitVec 3) (v : Word) (s : Block) :
    (s.setBits b w v).holdv = s.holdv := rfl

@[simp] theorem setBits_jobtm (b : Byte) (w : BitVec 3) (v : Word) (s : Block) :
    (s.setBits b w v).jobtm = s.jobtm := rfl

@[simp] theorem setBits_outq (b : Byte) (w : BitVec 3) (v : Word) (s : Block) :
    (s.setBits b w v).outq = s.outq := rfl

@[simp] theorem setBits_tabLen (b : Byte) (w : BitVec 3) (v : Word) (s : Block) :
    (s.setBits b w v).tabLen = s.tabLen := rfl

@[simp] theorem setBits_tabBits (b : Byte) (w : BitVec 3) (v : Word) (s : Block) :
    (s.setBits b w v).tabBits = s.tabBits.write (bitsCell b w) v := rfl

/-! ## `Block.clearTable` -/

@[simp] theorem clearTable_tailmode (s : Block) :
    (s.clearTable).tailmode = s.tailmode := rfl

@[simp] theorem clearTable_ieErr (s : Block) :
    (s.clearTable).ieErr = s.ieErr := rfl

@[simp] theorem clearTable_ieDone (s : Block) :
    (s.clearTable).ieDone = s.ieDone := rfl

@[simp] theorem clearTable_ieOut (s : Block) :
    (s.clearTable).ieOut = s.ieOut := rfl

@[simp] theorem clearTable_state (s : Block) :
    (s.clearTable).state = s.state := rfl

@[simp] theorem clearTable_errcode (s : Block) :
    (s.clearTable).errcode = s.errcode := rfl

@[simp] theorem clearTable_errinfo (s : Block) :
    (s.clearTable).errinfo = s.errinfo := rfl

@[simp] theorem clearTable_errpos (s : Block) :
    (s.clearTable).errpos = s.errpos := rfl

@[simp] theorem clearTable_tail (s : Block) :
    (s.clearTable).tail = s.tail := rfl

@[simp] theorem clearTable_bitcnt (s : Block) :
    (s.clearTable).bitcnt = s.bitcnt := rfl

@[simp] theorem clearTable_outcnt (s : Block) :
    (s.clearTable).outcnt = s.outcnt := rfl

@[simp] theorem clearTable_accbits (s : Block) :
    (s.clearTable).accbits = s.accbits := rfl

@[simp] theorem clearTable_acclen (s : Block) :
    (s.clearTable).acclen = s.acclen := rfl

@[simp] theorem clearTable_cand (s : Block) :
    (s.clearTable).cand = s.cand := rfl

@[simp] theorem clearTable_hold (s : Block) :
    (s.clearTable).hold = s.hold := rfl

@[simp] theorem clearTable_holdv (s : Block) :
    (s.clearTable).holdv = s.holdv := rfl

@[simp] theorem clearTable_jobtm (s : Block) :
    (s.clearTable).jobtm = s.jobtm := rfl

@[simp] theorem clearTable_outq (s : Block) :
    (s.clearTable).outq = s.outq := rfl

@[simp] theorem clearTable_tabLen (s : Block) :
    (s.clearTable).tabLen = [] := rfl

@[simp] theorem clearTable_tabBits (s : Block) :
    (s.clearTable).tabBits = [] := rfl

/-! ## `Block.setCtrl` -/

@[simp] theorem setCtrl_tailmode (v : Word) (s : Block) :
    (s.setCtrl v).tailmode = v.getLsbD 0 := rfl

@[simp] theorem setCtrl_ieErr (v : Word) (s : Block) :
    (s.setCtrl v).ieErr = v.getLsbD 1 := rfl

@[simp] theorem setCtrl_ieDone (v : Word) (s : Block) :
    (s.setCtrl v).ieDone = v.getLsbD 2 := rfl

@[simp] theorem setCtrl_ieOut (v : Word) (s : Block) :
    (s.setCtrl v).ieOut = v.getLsbD 3 := rfl

@[simp] theorem setCtrl_state (v : Word) (s : Block) :
    (s.setCtrl v).state = s.state := rfl

@[simp] theorem setCtrl_errcode (v : Word) (s : Block) :
    (s.setCtrl v).errcode = s.errcode := rfl

@[simp] theorem setCtrl_errinfo (v : Word) (s : Block) :
    (s.setCtrl v).errinfo = s.errinfo := rfl

@[simp] theorem setCtrl_errpos (v : Word) (s : Block) :
    (s.setCtrl v).errpos = s.errpos := rfl

@[simp] theorem setCtrl_tail (v : Word) (s : Block) :
    (s.setCtrl v).tail = s.tail := rfl

@[simp] theorem setCtrl_bitcnt (v : Word) (s : Block) :
    (s.setCtrl v).bitcnt = s.bitcnt := rfl

@[simp] theorem setCtrl_outcnt (v : Word) (s : Block) :
    (s.setCtrl v).outcnt = s.outcnt := rfl

@[simp] theorem setCtrl_accbits (v : Word) (s : Block) :
    (s.setCtrl v).accbits = s.accbits := rfl

@[simp] theorem setCtrl_acclen (v : Word) (s : Block) :
    (s.setCtrl v).acclen = s.acclen := rfl

@[simp] theorem setCtrl_cand (v : Word) (s : Block) :
    (s.setCtrl v).cand = s.cand := rfl

@[simp] theorem setCtrl_hold (v : Word) (s : Block) :
    (s.setCtrl v).hold = s.hold := rfl

@[simp] theorem setCtrl_holdv (v : Word) (s : Block) :
    (s.setCtrl v).holdv = s.holdv := rfl

@[simp] theorem setCtrl_jobtm (v : Word) (s : Block) :
    (s.setCtrl v).jobtm = s.jobtm := rfl

@[simp] theorem setCtrl_outq (v : Word) (s : Block) :
    (s.setCtrl v).outq = s.outq := rfl

@[simp] theorem setCtrl_tabLen (v : Word) (s : Block) :
    (s.setCtrl v).tabLen = s.tabLen := rfl

@[simp] theorem setCtrl_tabBits (v : Word) (s : Block) :
    (s.setCtrl v).tabBits = s.tabBits := rfl

/-! ## `Block.setTail` -/

@[simp] theorem setTail_tailmode (v : Word) (s : Block) :
    (s.setTail v).tailmode = s.tailmode := rfl

@[simp] theorem setTail_ieErr (v : Word) (s : Block) :
    (s.setTail v).ieErr = s.ieErr := rfl

@[simp] theorem setTail_ieDone (v : Word) (s : Block) :
    (s.setTail v).ieDone = s.ieDone := rfl

@[simp] theorem setTail_ieOut (v : Word) (s : Block) :
    (s.setTail v).ieOut = s.ieOut := rfl

@[simp] theorem setTail_state (v : Word) (s : Block) :
    (s.setTail v).state = s.state := rfl

@[simp] theorem setTail_errcode (v : Word) (s : Block) :
    (s.setTail v).errcode = s.errcode := rfl

@[simp] theorem setTail_errinfo (v : Word) (s : Block) :
    (s.setTail v).errinfo = s.errinfo := rfl

@[simp] theorem setTail_errpos (v : Word) (s : Block) :
    (s.setTail v).errpos = s.errpos := rfl

@[simp] theorem setTail_tail (v : Word) (s : Block) :
    (s.setTail v).tail = v.extractLsb' 0 4 := rfl

@[simp] theorem setTail_bitcnt (v : Word) (s : Block) :
    (s.setTail v).bitcnt = s.bitcnt := rfl

@[simp] theorem setTail_outcnt (v : Word) (s : Block) :
    (s.setTail v).outcnt = s.outcnt := rfl

@[simp] theorem setTail_accbits (v : Word) (s : Block) :
    (s.setTail v).accbits = s.accbits := rfl

@[simp] theorem setTail_acclen (v : Word) (s : Block) :
    (s.setTail v).acclen = s.acclen := rfl

@[simp] theorem setTail_cand (v : Word) (s : Block) :
    (s.setTail v).cand = s.cand := rfl

@[simp] theorem setTail_hold (v : Word) (s : Block) :
    (s.setTail v).hold = s.hold := rfl

@[simp] theorem setTail_holdv (v : Word) (s : Block) :
    (s.setTail v).holdv = s.holdv := rfl

@[simp] theorem setTail_jobtm (v : Word) (s : Block) :
    (s.setTail v).jobtm = s.jobtm := rfl

@[simp] theorem setTail_outq (v : Word) (s : Block) :
    (s.setTail v).outq = s.outq := rfl

@[simp] theorem setTail_tabLen (v : Word) (s : Block) :
    (s.setTail v).tabLen = s.tabLen := rfl

@[simp] theorem setTail_tabBits (v : Word) (s : Block) :
    (s.setTail v).tabBits = s.tabBits := rfl

/-! ## `abort` -/

@[simp] theorem abort_tailmode (s : Block) :
    (abort s).tailmode = s.tailmode := rfl

@[simp] theorem abort_ieErr (s : Block) :
    (abort s).ieErr = s.ieErr := rfl

@[simp] theorem abort_ieDone (s : Block) :
    (abort s).ieDone = s.ieDone := rfl

@[simp] theorem abort_ieOut (s : Block) :
    (abort s).ieOut = s.ieOut := rfl

@[simp] theorem abort_state (s : Block) :
    (abort s).state = .idle := rfl

@[simp] theorem abort_errcode (s : Block) :
    (abort s).errcode = .noError := rfl

@[simp] theorem abort_errinfo (s : Block) :
    (abort s).errinfo = 0 := rfl

@[simp] theorem abort_errpos (s : Block) :
    (abort s).errpos = 0 := rfl

@[simp] theorem abort_tail (s : Block) :
    (abort s).tail = s.tail := rfl

@[simp] theorem abort_bitcnt (s : Block) :
    (abort s).bitcnt = s.bitcnt := rfl

@[simp] theorem abort_outcnt (s : Block) :
    (abort s).outcnt = s.outcnt := rfl

@[simp] theorem abort_accbits (s : Block) :
    (abort s).accbits = 0 := rfl

@[simp] theorem abort_acclen (s : Block) :
    (abort s).acclen = 0 := rfl

@[simp] theorem abort_cand (s : Block) :
    (abort s).cand = [] := rfl

@[simp] theorem abort_hold (s : Block) :
    (abort s).hold = 0 := rfl

@[simp] theorem abort_holdv (s : Block) :
    (abort s).holdv = false := rfl

@[simp] theorem abort_jobtm (s : Block) :
    (abort s).jobtm = false := rfl

@[simp] theorem abort_outq (s : Block) :
    (abort s).outq = [] := rfl

@[simp] theorem abort_tabLen (s : Block) :
    (abort s).tabLen = s.tabLen := rfl

@[simp] theorem abort_tabBits (s : Block) :
    (abort s).tabBits = s.tabBits := rfl

/-! ## `dropHold` -/

@[simp] theorem dropHold_tailmode (s : Block) :
    (dropHold s).tailmode = s.tailmode := rfl

@[simp] theorem dropHold_ieErr (s : Block) :
    (dropHold s).ieErr = s.ieErr := rfl

@[simp] theorem dropHold_ieDone (s : Block) :
    (dropHold s).ieDone = s.ieDone := rfl

@[simp] theorem dropHold_ieOut (s : Block) :
    (dropHold s).ieOut = s.ieOut := rfl

@[simp] theorem dropHold_state (s : Block) :
    (dropHold s).state = s.state := rfl

@[simp] theorem dropHold_errcode (s : Block) :
    (dropHold s).errcode = s.errcode := rfl

@[simp] theorem dropHold_errinfo (s : Block) :
    (dropHold s).errinfo = s.errinfo := rfl

@[simp] theorem dropHold_errpos (s : Block) :
    (dropHold s).errpos = s.errpos := rfl

@[simp] theorem dropHold_tail (s : Block) :
    (dropHold s).tail = s.tail := rfl

@[simp] theorem dropHold_bitcnt (s : Block) :
    (dropHold s).bitcnt = s.bitcnt := rfl

@[simp] theorem dropHold_outcnt (s : Block) :
    (dropHold s).outcnt = s.outcnt := rfl

@[simp] theorem dropHold_accbits (s : Block) :
    (dropHold s).accbits = s.accbits := rfl

@[simp] theorem dropHold_acclen (s : Block) :
    (dropHold s).acclen = s.acclen := rfl

@[simp] theorem dropHold_cand (s : Block) :
    (dropHold s).cand = s.cand := rfl

@[simp] theorem dropHold_hold (s : Block) :
    (dropHold s).hold = 0 := rfl

@[simp] theorem dropHold_holdv (s : Block) :
    (dropHold s).holdv = false := rfl

@[simp] theorem dropHold_jobtm (s : Block) :
    (dropHold s).jobtm = s.jobtm := rfl

@[simp] theorem dropHold_outq (s : Block) :
    (dropHold s).outq = s.outq := rfl

@[simp] theorem dropHold_tabLen (s : Block) :
    (dropHold s).tabLen = s.tabLen := rfl

@[simp] theorem dropHold_tabBits (s : Block) :
    (dropHold s).tabBits = s.tabBits := rfl

/-! ## `raise` -/

@[simp] theorem raise_tailmode (e : ErrCode) (i : Word) (p : BitVec 64) (s : Block) :
    (raise e i p s).block.tailmode = s.tailmode := rfl

@[simp] theorem raise_ieErr (e : ErrCode) (i : Word) (p : BitVec 64) (s : Block) :
    (raise e i p s).block.ieErr = s.ieErr := rfl

@[simp] theorem raise_ieDone (e : ErrCode) (i : Word) (p : BitVec 64) (s : Block) :
    (raise e i p s).block.ieDone = s.ieDone := rfl

@[simp] theorem raise_ieOut (e : ErrCode) (i : Word) (p : BitVec 64) (s : Block) :
    (raise e i p s).block.ieOut = s.ieOut := rfl

@[simp] theorem raise_state (e : ErrCode) (i : Word) (p : BitVec 64) (s : Block) :
    (raise e i p s).block.state = .error := rfl

@[simp] theorem raise_errcode (e : ErrCode) (i : Word) (p : BitVec 64) (s : Block) :
    (raise e i p s).block.errcode = e := rfl

@[simp] theorem raise_errinfo (e : ErrCode) (i : Word) (p : BitVec 64) (s : Block) :
    (raise e i p s).block.errinfo = i := rfl

@[simp] theorem raise_errpos (e : ErrCode) (i : Word) (p : BitVec 64) (s : Block) :
    (raise e i p s).block.errpos = p := rfl

@[simp] theorem raise_tail (e : ErrCode) (i : Word) (p : BitVec 64) (s : Block) :
    (raise e i p s).block.tail = s.tail := rfl

@[simp] theorem raise_bitcnt (e : ErrCode) (i : Word) (p : BitVec 64) (s : Block) :
    (raise e i p s).block.bitcnt = s.bitcnt := rfl

@[simp] theorem raise_outcnt (e : ErrCode) (i : Word) (p : BitVec 64) (s : Block) :
    (raise e i p s).block.outcnt = s.outcnt := rfl

@[simp] theorem raise_accbits (e : ErrCode) (i : Word) (p : BitVec 64) (s : Block) :
    (raise e i p s).block.accbits = s.accbits := rfl

@[simp] theorem raise_acclen (e : ErrCode) (i : Word) (p : BitVec 64) (s : Block) :
    (raise e i p s).block.acclen = s.acclen := rfl

@[simp] theorem raise_cand (e : ErrCode) (i : Word) (p : BitVec 64) (s : Block) :
    (raise e i p s).block.cand = s.cand := rfl

@[simp] theorem raise_hold (e : ErrCode) (i : Word) (p : BitVec 64) (s : Block) :
    (raise e i p s).block.hold = s.hold := rfl

@[simp] theorem raise_holdv (e : ErrCode) (i : Word) (p : BitVec 64) (s : Block) :
    (raise e i p s).block.holdv = s.holdv := rfl

@[simp] theorem raise_jobtm (e : ErrCode) (i : Word) (p : BitVec 64) (s : Block) :
    (raise e i p s).block.jobtm = s.jobtm := rfl

@[simp] theorem raise_outq (e : ErrCode) (i : Word) (p : BitVec 64) (s : Block) :
    (raise e i p s).block.outq = s.outq := rfl

@[simp] theorem raise_tabLen (e : ErrCode) (i : Word) (p : BitVec 64) (s : Block) :
    (raise e i p s).block.tabLen = s.tabLen := rfl

@[simp] theorem raise_tabBits (e : ErrCode) (i : Word) (p : BitVec 64) (s : Block) :
    (raise e i p s).block.tabBits = s.tabBits := rfl

/-! ## Updates of the machine -/

@[simp] theorem State.onBlock_cfg (s : State) (f : Block → Flow) :
    (s.onBlock f).cfg = s.cfg := rfl

@[simp] theorem State.onBlock_block (s : State) (f : Block → Flow) :
    (s.onBlock f).block = (f s.block).block := rfl

@[simp] theorem State.onBlock_pending (s : State) (f : Block → Flow) :
    (s.onBlock f).pending = s.pending := rfl

@[simp] theorem State.onBlock_replies (s : State) (f : Block → Flow) :
    (s.onBlock f).replies = s.replies := rfl

@[simp] theorem State.reply_cfg (s : State) (v : Word) :
    (s.reply v).cfg = s.cfg := rfl

@[simp] theorem State.reply_block (s : State) (v : Word) :
    (s.reply v).block = s.block := rfl

@[simp] theorem State.reply_pending (s : State) (v : Word) :
    (s.reply v).pending = s.pending := rfl

@[simp] theorem State.reply_replies (s : State) (v : Word) :
    (s.reply v).replies = s.replies ++ [v] := rfl

@[simp] theorem State.resetBlock_cfg (s : State) :
    (s.resetBlock).cfg = s.cfg := rfl

@[simp] theorem State.resetBlock_block (s : State) :
    (s.resetBlock).block = Block.reset := rfl

@[simp] theorem State.resetBlock_pending (s : State) :
    (s.resetBlock).pending = s.pending := rfl

@[simp] theorem State.resetBlock_replies (s : State) :
    (s.resetBlock).replies = s.replies := rfl

@[simp] theorem State.issueFirst_cfg (e : Event) (s : State) :
    (s.issueFirst e).cfg = s.cfg := rfl

@[simp] theorem State.issueFirst_block (e : Event) (s : State) :
    (s.issueFirst e).block = s.block := rfl

@[simp] theorem State.issueFirst_pending (e : Event) (s : State) :
    (s.issueFirst e).pending = e :: s.pending := rfl

@[simp] theorem State.issueFirst_replies (e : Event) (s : State) :
    (s.issueFirst e).replies = s.replies := rfl

/-! ## The table under updates that do not touch it -/

/-- `len`, `bits` and what is computed from them read the two stores alone. -/
theorem len_congr {s t : Block} (h : t.tabLen = s.tabLen) (b : Byte) : t.len b = s.len b := by
  simp [Block.len, h]

theorem bits_congr {s t : Block} (h : t.tabBits = s.tabBits) (b : Byte) (w : BitVec 3) :
    t.bits b w = s.bits b w := by
  simp [Block.bits, h]

end Sys2Proof.Machine
end

