-- ==== Sys2Proof/Laws/Control.lean ====
section
/-!
SUPPORT. What the shared operations of the commands and the register accesses can do, each said once: the
checks of R230, a write of the table, a rejected access, an instruction, a step.
-/

namespace Sys2Proof.Machine

/-- `execute` answers in one of five ways, in the order of R230. -/
theorem execute_cases (c : Command) (rule : Block → Flow) (cfg : Config) (s : Block) :
    (s.state = .error ∧ runsInError c = true ∧ execute c rule cfg s = rule s) ∨
    (s.state = .error ∧ runsInError c = false ∧ execute c rule cfg s = .ended s) ∨
    (s.state ≠ .error ∧ legal c s = false ∧
      execute c rule cfg s = raise .cmdState (encodeCommand c) s.bitcnt s) ∨
    (s.state ≠ .error ∧ legal c s = true ∧ needsRdy c = true ∧ s.rdy cfg = false ∧
      execute c rule cfg s = raise .overrun (encodeCommand c) s.bitcnt s) ∨
    (s.state ≠ .error ∧ legal c s = true ∧ (needsRdy c = true → s.rdy cfg = true) ∧
      execute c rule cfg s = rule s) := by
  unfold execute
  by_cases he : s.state = .error
  · cases hr : runsInError c <;> simp [he]
  · cases hl : legal c s
    · simp [he]
    · cases hn : needsRdy c <;> cases hd : s.rdy cfg <;> simp [he]

/-- The commands that run in ERROR are legal there, and the other way round (R128). -/
theorem legal_in_error {c : Command} {s : Block} (h : s.state = .error) :
    legal c s = runsInError c := by
  cases c <;> simp [legal, runsInError, h]

/-- A command that needs RDY is legal only while a job is open (R128). -/
theorem active_of_legal_needsRdy {c : Command} {s : Block} (hl : legal c s = true)
    (hn : needsRdy c = true) : s.active = true := by
  cases c <;> simp_all [needsRdy] <;> cases h : s.state <;> simp_all [legal, Block.active]

theorem active_iff {s : Block} : s.active = true ↔ s.state = .pack ∨ s.state = .unpack := by
  cases h : s.state <;> simp [Block.active, h]

/-- A table write is dropped with TABLE_BUSY during a job, and stored otherwise (R205, R207). -/
theorem tableWrite_cases (a : Addr) (store : Block → Block) (s : Block) :
    (s.active = true ∧ tableWrite a store s = raise .tableBusy (accessInfo a true) s.bitcnt s) ∨
    (s.active = false ∧ tableWrite a store s = .go (store s)) := by
  cases h : s.active <;> simp [tableWrite, h]

/-- A rejected access raises BUS_ERR outside ERROR, and does nothing to the block in ERROR (R63). -/
theorem busError_cases (a : BusAccess) (s : Block) :
    (s.state = .error ∧ busError a s = .ended s) ∨
    (s.state ≠ .error ∧
      busError a s = raise .busErr (accessInfo a.addr a.isWrite) s.bitcnt s) := by
  by_cases h : s.state = .error <;> simp [busError, h]

/-- A WR_CMD runs the command its word encodes, or treats the word as illegal (R194). -/
theorem execWrCmd_cases (v : Word) (s : State) :
    (∃ c, decodeCommand v = .ok c ∧ execWrCmd v s = execCommand c s) ∨
    ((∃ e, decodeCommand v = .error e) ∧
      execWrCmd v s = .next (s.onBlock (executeIllegal v))) := by
  unfold execWrCmd
  cases h : decodeCommand v with
  | ok c => exact .inl ⟨c, rfl, rfl⟩
  | error e => exact .inr ⟨⟨e, rfl⟩, rfl⟩

/-- A decoded command and the instruction of the same name have one meaning. -/
theorem exec_ofCommand (c : Command) (s : State) : exec (.ofCommand c) s = execCommand c s := by
  cases c <;> rfl

/-- The rule of a command, as `execute` runs it. -/
def ruleOf : Command → Block → Flow
  | .nop => .go
  | .startPack => startPack
  | .startUnpack => startUnpack
  | .push d => pushRule d
  | .finish => finishRule
  | .abort => fun b => .go (abort b)
  | .clrtab => fun b => .go b.clearTable

/-- Every command is its rule behind the checks of R230, and returns nothing to the host. -/
theorem execCommand_eq (c : Command) (s : State) :
    execCommand c s = .next (s.onBlock (execute c (ruleOf c) s.cfg)) := by
  cases c <;> rfl

/-- An event's effect does not depend on what the host does after it: an instruction neither reads nor
writes the host's list. -/
theorem exec_pending (i : Instr) (s : State) (p : List Event) {t : State}
    (h : exec i s = .next t) : exec i { s with pending := p } = .next { t with pending := p } := by
  have hc : ∀ c : Command, ∀ t, execCommand c s = .next t →
      execCommand c { s with pending := p } = .next { t with pending := p } := by
    intro c t h
    rw [execCommand_eq] at h ⊢
    cases h
    rfl
  cases i
  case wrCmd v =>
    rcases execWrCmd_cases v s with ⟨c, hd, he⟩ | ⟨⟨e, hd⟩, he⟩
    · have : exec (.wrCmd v) { s with pending := p } = execCommand c { s with pending := p } := by
        simp [exec, execWrCmd, hd]
      rw [this]
      exact hc c t (by rw [← he]; exact h)
    · rw [show exec (.wrCmd v) s = execWrCmd v s from rfl, he] at h
      cases h
      simp only [exec, execWrCmd, hd]
      rfl
  case rdDout =>
    simp only [exec, execRdDout] at h ⊢
    split at h <;> (cases h; simp_all; rfl)
  all_goals (cases h; rfl)

/-- A step that answers a next state is a reset, an instruction, or a rejected access, and has taken the
host's first event (R7, R63, R250). -/
theorem step_cases {s t : State} (h : step s = .next t) :
    (∃ rest, s.pending = .reset :: rest ∧ t = { s with block := Block.reset, pending := rest }) ∨
    (∃ a i rest, s.pending = .access a :: rest ∧ decodeAccess a = .ok i ∧
      exec i { s with pending := rest } = .next t) ∨
    (∃ a e rest, s.pending = .access a :: rest ∧ decodeAccess a = .error e ∧
      t = State.rejectAccess a { s with pending := rest }) := by
  unfold step State.fetch at h
  cases hp : s.pending with
  | nil => simp [hp] at h
  | cons ev rest =>
    cases ev with
    | reset =>
      simp only [hp] at h
      cases h
      exact .inl ⟨rest, rfl, rfl⟩
    | access a =>
      simp only [hp] at h
      cases hd : decodeAccess a with
      | ok i =>
        simp only [hd] at h
        exact .inr (.inl ⟨a, i, rest, rfl, hd, h⟩)
      | error e =>
        simp only [hd] at h
        cases h
        exact .inr (.inr ⟨a, e, rest, rfl, hd, rfl⟩)

end Sys2Proof.Machine
end

