-- ==== Sys2Proof/Laws/Memory.lean ====
section
/-!
SUPPORT. The laws of the cells of the code table: what a read sees after a write, that every write keeps
the canonical form, and that equal contents are equal data.
-/

namespace Sys2Proof.Machine

variable {w : Nat}

/-! ## The canonical form, unfolded once -/

/-- A canonical memory, one entry at a time: the head is in range, is not 0, and comes before every
listed cell. -/
theorem Memory.wf_cons {n k : Nat} {v : BitVec w} {m : Memory w} :
    Memory.wf n ((k, v) :: m) = true ↔
      k < n ∧ v ≠ 0 ∧ Memory.wf n m = true ∧ ∀ p ∈ m, k < p.1 := by
  induction m generalizing k v with
  | nil => simp [Memory.wf]
  | cons p rest ih =>
    obtain ⟨k', v'⟩ := p
    rw [show Memory.wf n ((k, v) :: (k', v') :: rest) =
      (decide (k < k') && decide (v ≠ 0) && Memory.wf n ((k', v') :: rest)) from rfl]
    simp only [Bool.and_eq_true, decide_eq_true_eq, List.forall_mem_cons]
    constructor
    · rintro ⟨⟨hk, hv⟩, h⟩
      have ⟨hn, _, _, hr⟩ := ih.mp h
      exact ⟨by omega, hv, h, hk, fun p hp => by have := hr p hp; omega⟩
    · rintro ⟨-, hv, h, hk, -⟩
      exact ⟨⟨hk, hv⟩, h⟩

@[simp] theorem Memory.wf_nil {n : Nat} : Memory.wf n ([] : Memory w) = true := rfl

@[simp] theorem Memory.read_nil (a : Nat) : Memory.read ([] : Memory w) a = 0 := rfl

@[simp] theorem Memory.read_cons (k a : Nat) (v : BitVec w) (m : Memory w) :
    Memory.read ((k, v) :: m) a = if a = k then v else Memory.read m a := rfl

/-- A cell that no entry names reads as 0. -/
theorem Memory.read_of_not_listed {m : Memory w} {a : Nat} (h : ∀ p ∈ m, p.1 ≠ a) :
    Memory.read m a = 0 := by
  induction m with
  | nil => rfl
  | cons p rest ih =>
    obtain ⟨k, v⟩ := p
    have hk : ¬ a = k := fun e => h (k, v) (by simp) e.symm
    simp [hk, ih fun q hq => h q (by simp [hq])]

/-- A listed cell of a canonical memory reads as its value. -/
theorem Memory.read_of_listed {n : Nat} {m : Memory w} (hm : Memory.wf n m = true)
    {p : Nat × BitVec w} (hp : p ∈ m) : Memory.read m p.1 = p.2 := by
  induction m with
  | nil => simp at hp
  | cons q rest ih =>
    obtain ⟨k, v⟩ := q
    obtain ⟨-, -, hr, hlt⟩ := Memory.wf_cons.mp hm
    rcases List.mem_cons.mp hp with rfl | hp
    · simp
    · have := hlt p hp
      simp [show ¬ p.1 = k by omega, ih hr hp]

/-! ## Where a write puts a cell -/

theorem Memory.mem_insert {a : Nat} {x : BitVec w} {m : Memory w} {p : Nat × BitVec w}
    (h : p ∈ Memory.insert a x m) : p = (a, x) ∨ p ∈ m := by
  induction m with
  | nil => simpa [Memory.insert] using h
  | cons q rest ih =>
    obtain ⟨k, v⟩ := q
    simp only [Memory.insert] at h
    split at h
    · simpa using h
    · split at h
      · rcases List.mem_cons.mp h with h | h
        · exact .inl h
        · exact .inr (List.mem_cons_of_mem _ h)
      · rcases List.mem_cons.mp h with h | h
        · exact .inr (by simp [h])
        · exact (ih h).imp_right (List.mem_cons_of_mem _)

theorem Memory.mem_erase {a : Nat} {m : Memory w} {p : Nat × BitVec w}
    (h : p ∈ Memory.erase a m) : p ∈ m := by
  induction m with
  | nil => simp [Memory.erase] at h
  | cons q rest ih =>
    obtain ⟨k, v⟩ := q
    simp only [Memory.erase] at h
    split at h
    · exact List.mem_cons_of_mem _ h
    · rcases List.mem_cons.mp h with h | h
      · simp [h]
      · exact List.mem_cons_of_mem _ (ih h)

theorem Memory.wf_insert {n a : Nat} {x : BitVec w} (ha : a < n) (hx : x ≠ 0) {m : Memory w}
    (hm : Memory.wf n m = true) : Memory.wf n (Memory.insert a x m) = true := by
  induction m with
  | nil => simpa [Memory.insert, Memory.wf, ha] using hx
  | cons q rest ih =>
    obtain ⟨k, v⟩ := q
    obtain ⟨hk, hv, hr, hlt⟩ := Memory.wf_cons.mp hm
    simp only [Memory.insert]
    split
    · rename_i h
      refine Memory.wf_cons.mpr ⟨ha, hx, hm, ?_⟩
      intro p hp
      rcases List.mem_cons.mp hp with rfl | hp
      · exact h
      · exact Nat.lt_trans h (hlt p hp)
    · split
      · rename_i h
        subst h
        exact Memory.wf_cons.mpr ⟨ha, hx, hr, hlt⟩
      · refine Memory.wf_cons.mpr ⟨hk, hv, ih hr, ?_⟩
        intro p hp
        rcases Memory.mem_insert hp with rfl | hp
        · simp only; omega
        · exact hlt p hp

theorem Memory.wf_erase {n a : Nat} {m : Memory w} (hm : Memory.wf n m = true) :
    Memory.wf n (Memory.erase a m) = true := by
  induction m with
  | nil => rfl
  | cons q rest ih =>
    obtain ⟨k, v⟩ := q
    obtain ⟨hk, hv, hr, hlt⟩ := Memory.wf_cons.mp hm
    simp only [Memory.erase]
    split
    · exact hr
    · exact Memory.wf_cons.mpr ⟨hk, hv, ih hr, fun p hp => hlt p (Memory.mem_erase hp)⟩

/-- Every write keeps the canonical form. -/
theorem Memory.wf_write {n a : Nat} {m : Memory w} (hm : Memory.wf n m = true) (ha : a < n)
    (x : BitVec w) : Memory.wf n (m.write a x) = true := by
  unfold Memory.write
  split
  · exact Memory.wf_erase hm
  · rename_i hx
    exact Memory.wf_insert ha hx hm

/-! ## Read after write -/

theorem Memory.read_insert (m : Memory w) (a : Nat) (x : BitVec w) (b : Nat) :
    (Memory.insert a x m).read b = if b = a then x else m.read b := by
  induction m with
  | nil => rfl
  | cons q rest ih =>
    obtain ⟨k, v⟩ := q
    simp only [Memory.insert]
    split
    · rfl
    · split
      · rename_i h
        subst h
        simp only [Memory.read_cons]
        split <;> rfl
      · simp only [Memory.read_cons, ih]
        split
        · rename_i h
          subst h
          rw [if_neg (by omega)]
        · rfl

theorem Memory.read_erase {n : Nat} {m : Memory w} (hm : Memory.wf n m = true) (a b : Nat) :
    (Memory.erase a m).read b = if b = a then 0 else m.read b := by
  induction m with
  | nil => simp [Memory.erase]
  | cons q rest ih =>
    obtain ⟨k, v⟩ := q
    obtain ⟨-, -, hr, hlt⟩ := Memory.wf_cons.mp hm
    simp only [Memory.erase]
    split
    · rename_i h
      subst h
      split
      · rename_i hb
        subst hb
        exact Memory.read_of_not_listed fun p hp => by have := hlt p hp; omega
      · rename_i hb
        simp [hb]
    · rename_i h
      simp only [Memory.read_cons, ih hr]
      split
      · rename_i hb
        subst hb
        rw [if_neg (by omega)]
      · rfl

/-- What a read sees after a write: the value written at its cell, and every other cell as before. -/
theorem Memory.read_write {n : Nat} {m : Memory w} (hm : Memory.wf n m = true) (a : Nat)
    (x : BitVec w) (b : Nat) : (m.write a x).read b = if b = a then x else m.read b := by
  unfold Memory.write
  split
  · rename_i hx
    rw [Memory.read_erase hm, hx]
  · exact Memory.read_insert m a x b

theorem Memory.read_write_same {n : Nat} {m : Memory w} (hm : Memory.wf n m = true) (a : Nat)
    (x : BitVec w) : (m.write a x).read a = x := by
  simp [Memory.read_write hm]

theorem Memory.read_write_other {n : Nat} {m : Memory w} (hm : Memory.wf n m = true) {a b : Nat}
    (h : b ≠ a) (x : BitVec w) : (m.write a x).read b = m.read b := by
  simp [Memory.read_write hm, h]

/-! ## Equal contents are equal data -/

/-- Two canonical memories whose cells read alike are the same list. -/
theorem Memory.ext_read {n : Nat} {m m' : Memory w} (hm : Memory.wf n m = true)
    (hm' : Memory.wf n m' = true) (h : ∀ a, m.read a = m'.read a) : m = m' := by
  induction m generalizing m' with
  | nil =>
    cases m' with
    | nil => rfl
    | cons p rest =>
      have := h p.1
      rw [Memory.read_of_listed hm' (by simp), Memory.read_nil] at this
      obtain ⟨-, hv, -⟩ := Memory.wf_cons.mp hm'
      exact absurd this.symm hv
  | cons p rest ih =>
    obtain ⟨k, v⟩ := p
    obtain ⟨hk, hv, hr, hlt⟩ := Memory.wf_cons.mp hm
    cases m' with
    | nil =>
      have := h k
      simp at this
      exact absurd this hv
    | cons q rest' =>
      obtain ⟨k', v'⟩ := q
      obtain ⟨hk', hv', hr', hlt'⟩ := Memory.wf_cons.mp hm'
      have hkk : k = k' := by
        rcases Nat.lt_trichotomy k k' with hl | he | hg
        · have h1 := h k
          simp only [Memory.read_cons, if_true, if_neg (show ¬ k = k' by omega)] at h1
          rw [Memory.read_of_not_listed fun p hp => by have := hlt' p hp; omega] at h1
          exact absurd h1 hv
        · exact he
        · have h1 := h k'
          simp only [Memory.read_cons, if_true, if_neg (show ¬ k' = k by omega)] at h1
          rw [Memory.read_of_not_listed fun p hp => by have := hlt p hp; omega] at h1
          exact absurd h1.symm hv'
      subst hkk
      have hvv : v = v' := by simpa using h k
      subst hvv
      congr 1
      refine ih hr hr' fun a => ?_
      by_cases ha : a = k
      · subst ha
        rw [Memory.read_of_not_listed fun p hp => by have := hlt p hp; omega,
          Memory.read_of_not_listed fun p hp => by have := hlt' p hp; omega]
      · simpa [ha] using h a

end Sys2Proof.Machine
end

