-- ==== Sys2Proof/Laws/Pack.lean ====
section
/-!
SUPPORT. What appending bits does to the packer (spec/41_pack.md R141), as an equation between blocks: the
full chunks of the bits held and appended go to OUTQ, and the rest is held.
-/

namespace Sys2Proof.Machine

/-- ACC holds the bits `A`, with nothing above them (R40). -/
structure Holds (s : Block) (A : Bits) : Prop where
  len : s.acclen.toNat = A.length
  bits : s.accbits.toNat = bitsToNat A

/-- Under the invariant, ACC holds the bits `s.acc` (R40). -/
theorem holds_acc {s : Block} (h : s.accbits.toNat < 2 ^ s.acclen.toNat) : Holds s s.acc :=
  ⟨by simp [Block.acc], by rw [Block.acc, bitsToNat_lowBits, Nat.mod_eq_of_lt h]⟩

theorem Holds.acc_eq {s : Block} {A : Bits} (h : Holds s A) : s.acc = A := by
  rw [Block.acc, h.len, h.bits, lowBits_bitsToNat]

theorem Holds.length_lt {s : Block} {A : Bits} (h : Holds s A) : A.length < 8 := by
  have := s.acclen.isLt
  have := h.len
  omega

/-- The 8-bit temporary of R141 is the held bits followed by the new one. -/
theorem append_temp {s : Block} {A : Bits} (h : Holds s A) (c : Bool) :
    ((s.accbits.setWidth 8 <<< 1) ||| (BitVec.ofBool c).setWidth 8 : BitVec 8) =
      chunkByte (A ++ [c]) := by
  have hA := bitsToNat_lt A
  have hl := h.length_lt
  have hp : 2 ^ A.length ≤ 2 ^ 7 := Nat.pow_le_pow_right (by decide) (by omega)
  have hb : bitsToNat A < 128 := by omega
  apply BitVec.eq_of_toNat_eq
  have h1 : ((s.accbits.setWidth 8 <<< 1) ||| (BitVec.ofBool c).setWidth 8 : BitVec 8) =
      s.accbits.setWidth 8 <<< 1 + (BitVec.ofBool c).setWidth 8 := by
    generalize s.accbits = x
    revert x c
    decide
  rw [h1]
  simp only [BitVec.toNat_add, BitVec.toNat_shiftLeft, BitVec.toNat_setWidth, h.bits, chunkByte,
    BitVec.toNat_ofNat, bitsToNat_append, BitVec.toNat_ofBool, bitsToNat_cons, bitsToNat_nil,
    List.length_nil, List.length_singleton, Nat.shiftLeft_eq]
  have := Bool.toNat_le c
  omega

/-- One appended bit: a full chunk goes to OUTQ, and otherwise the bit is held with the others
(R141). -/
theorem appendBit_cases {s : Block} {A : Bits} (h : Holds s A) (c : Bool) :
    (A.length = 7 ∧ appendBit c s =
      { s with
        bitcnt := s.bitcnt + 1, outcnt := s.outcnt + 1
        outq := s.outq ++ [chunkByte (A ++ [c])], accbits := 0, acclen := 0 }) ∨
    (A.length < 7 ∧ Holds (appendBit c s) (A ++ [c]) ∧ appendBit c s =
      { s with
        bitcnt := s.bitcnt + 1, accbits := BitVec.ofNat 7 (bitsToNat (A ++ [c]))
        acclen := BitVec.ofNat 3 (A.length + 1) }) := by
  have ht := append_temp h c
  have hl := h.length_lt
  by_cases h7 : A.length = 7
  · refine .inl ⟨h7, ?_⟩
    unfold appendBit
    simp only [h.len, h7, ht, Block.outPush, if_true]
  · have hlt : A.length < 7 := by omega
    have hB := bitsToNat_lt (A ++ [c])
    have hp : 2 ^ (A ++ [c]).length ≤ 2 ^ 7 :=
      Nat.pow_le_pow_right (by decide) (by simp; omega)
    have hbits : (chunkByte (A ++ [c])).extractLsb' 0 7 =
        BitVec.ofNat 7 (bitsToNat (A ++ [c])) := by
      apply BitVec.eq_of_toNat_eq
      simp only [chunkByte, BitVec.extractLsb'_toNat, BitVec.toNat_ofNat, Nat.shiftRight_zero]
      omega
    have hlen : s.acclen + 1 = BitVec.ofNat 3 (A.length + 1) := by
      apply BitVec.eq_of_toNat_eq
      simp only [BitVec.toNat_add, h.len, BitVec.toNat_ofNat, show (1 : BitVec 3).toNat = 1 from rfl]
    have heq : appendBit c s =
        { s with
          bitcnt := s.bitcnt + 1, accbits := BitVec.ofNat 7 (bitsToNat (A ++ [c]))
          acclen := BitVec.ofNat 3 (A.length + 1) } := by
      unfold appendBit
      simp only [h.len, show ¬ A.length + 1 = 8 by omega, ht, hbits, hlen, if_false]
    refine .inr ⟨hlt, ?_, heq⟩
    rw [heq]
    refine ⟨?_, ?_⟩
    · simp only [BitVec.toNat_ofNat, List.length_append, List.length_singleton]
      omega
    · simp only [BitVec.toNat_ofNat]
      omega

@[simp] theorem appendBits_nil (s : Block) : appendBits [] s = s := rfl

@[simp] theorem appendBits_cons (x : Bool) (c : Bits) (s : Block) :
    appendBits (x :: c) s = appendBits c (appendBit x s) := rfl

/-- Appending a bit string to a packer that holds `A`: BITCNT counts the bits, the full chunks of
`A ++ c` go to OUTQ and OUTCNT counts them, and the packer holds the rest (R141, R140). -/
theorem appendBits_eq {s : Block} {A : Bits} (h : Holds s A) (c : Bits) :
    appendBits c s =
      { s with
        bitcnt := s.bitcnt + BitVec.ofNat 64 c.length
        outcnt := s.outcnt + BitVec.ofNat 32 ((A ++ c).length / 8)
        outq := s.outq ++ packedBytes (fullPart (A ++ c))
        acclen := BitVec.ofNat 3 ((A ++ c).length % 8)
        accbits := BitVec.ofNat 7 (bitsToNat (shortPart (A ++ c))) } := by
  induction c generalizing s A with
  | nil =>
    have hl := h.length_lt
    have h1 : BitVec.ofNat 3 (A.length % 8) = s.acclen := by
      apply BitVec.eq_of_toNat_eq
      simp only [BitVec.toNat_ofNat, h.len]
      omega
    have h2 : BitVec.ofNat 7 (bitsToNat A) = s.accbits := by
      rw [← h.bits, BitVec.ofNat_toNat, BitVec.setWidth_eq]
    simp [fullPart_short hl, shortPart_short hl, Nat.div_eq_of_lt hl, h1, h2]
  | cons x c ih =>
    have hone : ∀ y : BitVec 64, y + 1 + BitVec.ofNat 64 c.length =
        y + BitVec.ofNat 64 (c.length + 1) := by
      intro y
      rw [Nat.add_comm, BitVec.ofNat_add, ← BitVec.add_assoc]
      rfl
    rw [appendBits_cons]
    rcases appendBit_cases h x with ⟨h7, heq⟩ | ⟨hlt, hh, heq⟩
    · have h8 : (A ++ [x]).length = 8 := by simp [h7]
      have hsplit : A ++ x :: c = (A ++ [x]) ++ c := by simp
      have h0 : Holds (appendBit x s) [] := by rw [heq]; exact ⟨rfl, rfl⟩
      have hlen : ((A ++ [x]) ++ c).length / 8 = 1 + c.length / 8 := by
        rw [List.length_append, h8]; omega
      have hmod : ((A ++ [x]) ++ c).length % 8 = c.length % 8 := by
        rw [List.length_append, h8]; omega
      rw [ih h0, heq, hsplit, fullPart_of_length_8_append h8, shortPart_of_length_8_append h8,
        packedBytes_of_length_8_append h8, hlen, hmod, BitVec.ofNat_add]
      simp only [List.nil_append, hone, List.length_cons, List.append_assoc, List.singleton_append,
        ← BitVec.add_assoc]
      rfl
    · have hsplit : A ++ x :: c = (A ++ [x]) ++ c := by simp
      rw [ih hh, heq, hsplit]
      simp only [hone, List.length_cons]

/-- What is left in the packer holds the short part. -/
theorem holds_appendBits {s : Block} {A : Bits} (h : Holds s A) (c : Bits) :
    Holds (appendBits c s) (shortPart (A ++ c)) := by
  rw [appendBits_eq h]
  have hl := shortPart_length (A ++ c)
  have hB := bitsToNat_lt (shortPart (A ++ c))
  have hp : 2 ^ (shortPart (A ++ c)).length ≤ 2 ^ 7 :=
    Nat.pow_le_pow_right (by decide) (by rw [hl]; omega)
  refine ⟨?_, ?_⟩
  · simp only [BitVec.toNat_ofNat, hl]
    omega
  · simp only [BitVec.toNat_ofNat]
    omega

end Sys2Proof.Machine
end

