-- ==== Sys2Proof/Laws/PerInstr.lean ====
section
/-!
SUPPORT. Statements about every instruction as syntax, one lemma per constructor.
The family `AlignedCarrier`: the bus access that carries an instruction is word-aligned
(spec/20_memory.md R62), so no instruction's own access is misaligned.
-/

namespace Sys2Proof.Laws.AlignedCarrier

/-- The access that carries `i` has `addr[1:0] = 0`. -/
def Statement (i : Instr) : Prop := (encode i).carrier.addr.extractLsb' 0 2 = 0

theorem lenAddr_aligned (b : Byte) : (lenAddr b).extractLsb' 0 2 = 0 := by
  apply BitVec.eq_of_getLsbD_eq
  intro i hi
  simp only [lenAddr, BitVec.getLsbD_extractLsb', BitVec.getLsbD_append]
  simp [hi]

theorem bitsAddr_aligned (b : Byte) (w : BitVec 3) : (bitsAddr b w).extractLsb' 0 2 = 0 := by
  apply BitVec.eq_of_getLsbD_eq
  intro i hi
  simp only [bitsAddr, BitVec.getLsbD_extractLsb', BitVec.getLsbD_append]
  simp [hi]

theorem nop : Statement .nop := rfl

theorem startPack : Statement .startPack := rfl

theorem startUnpack : Statement .startUnpack := rfl

theorem push (d : Byte) : Statement (.push d) := by
  simp [Statement, encode, Raw.carrier, BusAccess.addr, cmdAddr]

theorem finish : Statement .finish := rfl

theorem abort : Statement .abort := rfl

theorem clrtab : Statement .clrtab := rfl

theorem rdId : Statement .rdId := rfl

theorem rdCtrl : Statement .rdCtrl := rfl

theorem wrCtrl (v : Word) : Statement (.wrCtrl v) := by
  simp [Statement, encode, Raw.carrier, BusAccess.addr]

theorem rdStatus : Statement .rdStatus := rfl

theorem wrCmd (v : Word) : Statement (.wrCmd v) := by
  simp [Statement, encode, Raw.carrier, BusAccess.addr]

theorem rdDout : Statement .rdDout := rfl

theorem rdTail : Statement .rdTail := rfl

theorem wrTail (v : Word) : Statement (.wrTail v) := by
  simp [Statement, encode, Raw.carrier, BusAccess.addr]

theorem rdBitcntLo : Statement .rdBitcntLo := rfl

theorem rdBitcntHi : Statement .rdBitcntHi := rfl

theorem rdOutcnt : Statement .rdOutcnt := rfl

theorem rdErrinfo : Statement .rdErrinfo := rfl

theorem rdErrposLo : Statement .rdErrposLo := rfl

theorem rdErrposHi : Statement .rdErrposHi := rfl

theorem rdTabinfo : Statement .rdTabinfo := rfl

theorem rdDbg : Statement .rdDbg := rfl

theorem rdLen (b : Byte) : Statement (.rdLen b) := lenAddr_aligned b

theorem wrLen (b : Byte) (v : Word) : Statement (.wrLen b v) := lenAddr_aligned b

theorem rdBits (b : Byte) (w : BitVec 3) : Statement (.rdBits b w) := bitsAddr_aligned b w

theorem wrBits (b : Byte) (w : BitVec 3) (v : Word) : Statement (.wrBits b w v) := bitsAddr_aligned b w

end Sys2Proof.Laws.AlignedCarrier
end

