-- ==== Sys2Proof/Laws/Table.lean ====
section
/-!
SUPPORT. The laws of the code table: its cells under a write, its codes, the inverse mapping, MAXLEN, and
what validation finds.
-/

namespace Sys2Proof.Machine

/-! ## The list of all bytes -/

theorem mem_allBytes (b : Byte) : b ∈ allBytes := by
  simp only [allBytes, List.mem_map, List.mem_range]
  exact ⟨b.toNat, b.isLt, by simp⟩

theorem allBytes_pairwise : allBytes.Pairwise fun a b => a.toNat < b.toNat := by
  rw [allBytes, List.pairwise_map]
  refine List.Pairwise.imp_of_mem ?_ (List.pairwise_lt_range (n := Config.nsym))
  intro a b ha hb h
  simp only [Config.nsym, List.mem_range] at ha hb
  simp only [BitVec.toNat_ofNat]
  omega

/-! ## Cells -/

theorem lenCell_lt (b : Byte) : lenCell b < Config.nsym := b.isLt

theorem bitsCell_lt (b : Byte) (w : BitVec 3) : bitsCell b w < Config.bitsWords * Config.nsym := by
  have := b.isLt
  have := w.isLt
  simp only [bitsCell, Config.bitsWords, Config.nsym]
  omega

theorem lenCell_inj {b c : Byte} : lenCell b = lenCell c ↔ b = c := BitVec.toNat_inj

/-- Two words of BITS share a cell only when they are the same word. -/
theorem bitsCell_inj {b c : Byte} {w x : BitVec 3} :
    bitsCell b w = bitsCell c x ↔ b = c ∧ w = x := by
  have := w.isLt
  have := x.isLt
  simp only [bitsCell, ← BitVec.toNat_inj]
  omega

/-- What LEN reads after a write of LEN[b]. -/
theorem len_setLen {s : Block} (h : Memory.wf Config.nsym s.tabLen = true) (b c : Byte)
    (v : BitVec 8) : (s.setLen b v).len c = if c = b then v else s.len c := by
  simp only [Block.len, setLen_tabLen, Memory.read_write h, lenCell_inj]

/-- What BITS reads after a write of BITS[b][w]. -/
theorem bits_setBits {s : Block} (h : Memory.wf (Config.bitsWords * Config.nsym) s.tabBits = true)
    (b c : Byte) (w x : BitVec 3) (v : Word) :
    (s.setBits b w v).bits c x = if c = b ∧ x = w then v else s.bits c x := by
  simp only [Block.bits, setBits_tabBits, Memory.read_write h, bitsCell_inj]

@[simp] theorem bits_setLen (s : Block) (b c : Byte) (v : BitVec 8) (w : BitVec 3) :
    (s.setLen b v).bits c w = s.bits c w := rfl

@[simp] theorem len_setBits (s : Block) (b c : Byte) (w : BitVec 3) (v : Word) :
    (s.setBits b w v).len c = s.len c := rfl

@[simp] theorem len_clearTable (s : Block) (b : Byte) : s.clearTable.len b = 0 := rfl

@[simp] theorem bits_clearTable (s : Block) (b : Byte) (w : BitVec 3) :
    s.clearTable.bits b w = 0 := rfl

/-! ## Codes -/

theorem valid_iff {s : Block} {b : Byte} : s.valid b = true ↔ s.len b ≠ 0 := by
  simp [Block.valid]

@[simp] theorem code_length (s : Block) (b : Byte) : (s.code b).length = (s.len b).toNat := by
  simp [Block.code]

/-- A valid entry has a non-empty code (R38). -/
theorem code_length_pos {s : Block} {b : Byte} (h : s.valid b = true) : 0 < (s.code b).length := by
  rw [code_length]
  rw [valid_iff, ← BitVec.toNat_inj.ne] at h
  exact Nat.pos_of_ne_zero h

theorem code_ne_nil {s : Block} {b : Byte} (h : s.valid b = true) : s.code b ≠ [] :=
  List.ne_nil_of_length_pos (code_length_pos h)

/-- A code has at most MAXCODELEN bits (R36). -/
theorem code_length_le (s : Block) (b : Byte) : (s.code b).length ≤ 255 := by
  rw [code_length]
  have := (s.len b).isLt
  omega

/-- Codes are functions of the two stores alone. -/
theorem table_congr {s t : Block} (hl : t.tabLen = s.tabLen) (hb : t.tabBits = s.tabBits) :
    t.valid = s.valid ∧ t.code = s.code ∧ t.lookup = s.lookup ∧ t.maxlen = s.maxlen ∧
      t.codes = s.codes := by
  have hlen : t.len = s.len := funext fun b => len_congr hl b
  have hbits : t.bits = s.bits := funext fun b => funext fun w => bits_congr hb b w
  have hv : t.valid = s.valid := by funext b; simp [Block.valid, hlen]
  have hc : t.code = s.code := by funext b; simp [Block.code, hlen, hbits]
  refine ⟨hv, hc, ?_, ?_, ?_⟩
  · funext c; simp [Block.lookup, hv, hc]
  · simp [Block.maxlen, hlen]
  · simp [Block.codes, Block.validBytes, hv, hc]

theorem mem_codes {s : Block} {p : Byte × Bits} :
    p ∈ s.codes ↔ s.valid p.1 = true ∧ p.2 = s.code p.1 := by
  obtain ⟨b, c⟩ := p
  simp only [Block.codes, Block.validBytes, List.mem_map, List.mem_filter]
  constructor
  · rintro ⟨a, ⟨-, ha⟩, h⟩
    obtain ⟨rfl, rfl⟩ := Prod.mk.inj h
    exact ⟨ha, rfl⟩
  · rintro ⟨hv, rfl⟩
    exact ⟨b, ⟨mem_allBytes b, hv⟩, rfl⟩

theorem codes_pairwise (s : Block) : s.codes.Pairwise fun p q => p.1.toNat < q.1.toNat := by
  rw [Block.codes, List.pairwise_map]
  exact allBytes_pairwise.filter _

/-! ## The inverse mapping -/

theorem lookup_none {s : Block} {c : Bits} :
    s.lookup c = none ↔ ∀ b, s.valid b = true → s.code b ≠ c := by
  simp only [Block.lookup, List.find?_eq_none, Bool.and_eq_true, beq_iff_eq, not_and]
  exact ⟨fun h b => h b (mem_allBytes b), fun h b _ => h b⟩

theorem lookup_some_valid {s : Block} {c : Bits} {b : Byte} (h : s.lookup c = some b) :
    s.valid b = true ∧ s.code b = c := by
  simpa using List.find?_some h

/-- On a prefix-free table at most one entry matches (R39). -/
theorem lookup_some {s : Block} (hf : s.PrefixFree) {c : Bits} {b : Byte} :
    s.lookup c = some b ↔ s.valid b = true ∧ s.code b = c := by
  refine ⟨lookup_some_valid, fun ⟨hv, hc⟩ => ?_⟩
  cases h : s.lookup c with
  | none => exact absurd hc (lookup_none.mp h b hv)
  | some a =>
    obtain ⟨ha, hac⟩ := lookup_some_valid h
    by_cases hab : a = b
    · rw [hab]
    · exact absurd (by rw [hac, hc]) (hf a b hab ha hv)

/-! ## MAXLEN -/

theorem foldl_max_ge {α : Type} (f : α → Nat) (l : List α) (m : Nat) :
    m ≤ l.foldl (fun m b => max m (f b)) m ∧ ∀ b ∈ l, f b ≤ l.foldl (fun m b => max m (f b)) m := by
  induction l generalizing m with
  | nil => simp
  | cons a l ih =>
    obtain ⟨h1, h2⟩ := ih (max m (f a))
    refine ⟨by simp only [List.foldl_cons]; omega, fun b hb => ?_⟩
    rcases List.mem_cons.mp hb with rfl | hb
    · simp only [List.foldl_cons]; omega
    · exact h2 b hb

theorem foldl_max_attained {α : Type} (f : α → Nat) (l : List α) (m : Nat) :
    l.foldl (fun m b => max m (f b)) m = m ∨
      ∃ b ∈ l, f b = l.foldl (fun m b => max m (f b)) m := by
  induction l generalizing m with
  | nil => simp
  | cons a l ih =>
    simp only [List.foldl_cons]
    rcases ih (max m (f a)) with h | ⟨b, hb, h⟩
    · rcases Nat.le_total (f a) m with hle | hle
      · left; rw [h]; omega
      · right; exact ⟨a, by simp, by rw [h]; omega⟩
    · exact .inr ⟨b, List.mem_cons_of_mem _ hb, h⟩

/-- No code is longer than MAXLEN (R38). -/
theorem code_length_le_maxlen (s : Block) (b : Byte) : (s.code b).length ≤ s.maxlen := by
  rw [code_length]
  exact (foldl_max_ge (fun b => (s.len b).toNat) allBytes 0).2 b (mem_allBytes b)

/-- MAXLEN is the length of a valid code, or 0 (R38). -/
theorem maxlen_attained (s : Block) :
    s.maxlen = 0 ∨ ∃ b, s.valid b = true ∧ (s.code b).length = s.maxlen := by
  rcases foldl_max_attained (fun b => (s.len b).toNat) allBytes 0 with h | ⟨b, -, h⟩
  · exact .inl h
  · by_cases h0 : s.maxlen = 0
    · exact .inl h0
    · refine .inr ⟨b, ?_, by rw [code_length]; exact h⟩
      rw [valid_iff]
      intro hz
      exact h0 (by rw [← show (s.len b).toNat = s.maxlen from h, hz]; rfl)

theorem maxlen_le (s : Block) : s.maxlen ≤ 255 := by
  rcases maxlen_attained s with h | ⟨b, -, h⟩
  · omega
  · have := code_length_le s b
    omega

/-! ## Validation -/

theorem conflict_iff {s t : Bits} : conflict s t = true ↔ s <+: t ∨ t <+: s := by
  simp [conflict, isPrefix]

/-- Without a conflicting pair, the table is prefix-free, and the other way round. -/
theorem prefixFree_iff {s : Block} : s.PrefixFree ↔ ∀ a b, ¬ s.Conflicting a b := by
  constructor
  · rintro h a b ⟨hlt, ha, hb, hp | hp⟩
    · exact h a b (fun e => by simp [e] at hlt) ha hb hp
    · exact h b a (fun e => by simp [e] at hlt) hb ha hp
  · intro h a b hne ha hb hp
    rcases Nat.lt_trichotomy a.toNat b.toNat with hl | he | hg
    · exact h a b ⟨hl, ha, hb, .inl hp⟩
    · exact hne (BitVec.eq_of_toNat_eq he)
    · exact h b a ⟨hg, hb, ha, .inr hp⟩

/-- What the scan of a list of codes in rising order finds: no conflict at all, or a pair of the list
that comes before every other conflicting pair. -/
theorem firstConflict_cases (l : List (Byte × Bits))
    (hl : l.Pairwise fun p q => p.1.toNat < q.1.toNat) :
    (firstConflict l = none ∧ l.Pairwise fun p q => conflict p.2 q.2 = false) ∨
    (∃ p ∈ l, ∃ q ∈ l, firstConflict l = some (p.1, q.1) ∧ p.1.toNat < q.1.toNat ∧
      conflict p.2 q.2 = true ∧
      ∀ p' ∈ l, ∀ q' ∈ l, p'.1.toNat < q'.1.toNat → conflict p'.2 q'.2 = true →
        p.1.toNat < p'.1.toNat ∨ (p.1 = p'.1 ∧ q.1.toNat ≤ q'.1.toNat)) := by
  induction l with
  | nil => exact .inl ⟨rfl, .nil⟩
  | cons a rest ih =>
    obtain ⟨ha, hrest⟩ := List.pairwise_cons.mp hl
    cases hfind : rest.find? (fun p => conflict a.2 p.2) with
    | some q =>
      have hq : q ∈ rest := List.mem_of_find?_eq_some hfind
      have hqc : conflict a.2 q.2 = true := by simpa using List.find?_some hfind
      refine .inr ⟨a, by simp, q, by simp [hq], ?_, ha q hq, hqc, ?_⟩
      · simp only [firstConflict, hfind]
      · intro p' hp' q' hq' hlt hc
        rcases List.mem_cons.mp hp' with rfl | hp'
        · refine .inr ⟨rfl, ?_⟩
          rcases List.mem_cons.mp hq' with rfl | hq'
          · omega
          · obtain ⟨-, as, bs, rfl, has⟩ := List.find?_eq_some_iff_append.mp hfind
            rcases List.mem_append.mp hq' with h | h
            · have hn := has q' h
              simp [hc] at hn
            · rcases List.mem_cons.mp h with rfl | h
              · exact Nat.le_refl _
              · have hpw := (List.pairwise_append.mp hrest).2.1
                exact Nat.le_of_lt ((List.pairwise_cons.mp hpw).1 q' h)
        · exact .inl (ha p' hp')
    | none =>
      have hnone : ∀ q ∈ rest, conflict a.2 q.2 = false := by
        simpa [List.find?_eq_none] using hfind
      rcases ih hrest with ⟨h, hpw⟩ | ⟨p, hp, q, hq, h, hlt, hc, hmin⟩
      · refine .inl ⟨by simp only [firstConflict, hfind, h], ?_⟩
        exact List.pairwise_cons.mpr ⟨hnone, hpw⟩
      · refine .inr ⟨p, by simp [hp], q, by simp [hq], by simp only [firstConflict, hfind, h], hlt,
          hc, ?_⟩
        intro p' hp' q' hq' hlt' hc'
        rcases List.mem_cons.mp hp' with rfl | hpr
        · rcases List.mem_cons.mp hq' with rfl | hqr
          · omega
          · simp [hnone q' hqr] at hc'
        · rcases List.mem_cons.mp hq' with rfl | hqr
          · have := ha p' hpr
            omega
          · exact hmin p' hpr q' hqr hlt' hc'

/-- What validation does: it goes on exactly when the table is prefix-free, and otherwise raises
TABLE_INVALID for the first conflicting pair (R120). -/
theorem validate_cases (s : Block) :
    (s.PrefixFree ∧ validate s = .go s) ∨
    ∃ a b, s.FirstConflict a b ∧ validate s = raise .tableInvalid (pairInfo a b) s.bitcnt s := by
  have key : ∀ a b, s.Conflicting a b ↔ a.toNat < b.toNat ∧ ∃ p ∈ s.codes, ∃ q ∈ s.codes,
      p.1 = a ∧ q.1 = b ∧ conflict p.2 q.2 = true := by
    intro a b
    constructor
    · rintro ⟨hlt, ha, hb, hp⟩
      exact ⟨hlt, (a, s.code a), mem_codes.mpr ⟨ha, rfl⟩, (b, s.code b), mem_codes.mpr ⟨hb, rfl⟩,
        rfl, rfl, conflict_iff.mpr hp⟩
    · rintro ⟨hlt, p, hp, q, hq, rfl, rfl, hc⟩
      obtain ⟨hpv, hpc⟩ := mem_codes.mp hp
      obtain ⟨hqv, hqc⟩ := mem_codes.mp hq
      rw [hpc, hqc] at hc
      exact ⟨hlt, hpv, hqv, conflict_iff.mp hc⟩
  rcases firstConflict_cases s.codes (codes_pairwise s) with ⟨h, hpw⟩ | ⟨p, hp, q, hq, h, hlt, hc, hm⟩
  · refine .inl ⟨?_, by simp [validate, h]⟩
    rw [prefixFree_iff]
    intro a b hab
    obtain ⟨hlt, p, hp, q, hq, rfl, rfl, hc⟩ := (key a b).mp hab
    have hpq := List.pairwise_iff_getElem.mp hpw
    have hord := List.pairwise_iff_getElem.mp (codes_pairwise s)
    obtain ⟨i, hi, rfl⟩ := List.mem_iff_getElem.mp hp
    obtain ⟨j, hj, rfl⟩ := List.mem_iff_getElem.mp hq
    rcases Nat.lt_trichotomy i j with hij | rfl | hij
    · simp [hpq i j hi hj hij] at hc
    · omega
    · have := hord j i hj hi hij
      omega
  · refine .inr ⟨p.1, q.1, ⟨(key _ _).mpr ⟨hlt, p, hp, q, hq, rfl, rfl, hc⟩, ?_⟩, by
      simp [validate, h]⟩
    intro a' b' hab
    obtain ⟨hlt', p', hp', q', hq', rfl, rfl, hc'⟩ := (key a' b').mp hab
    exact hm p' hp' q' hq' hlt' hc'

/-- A scan that finds no pair shows the table prefix-free: the form a concrete table is checked in. -/
theorem prefixFree_of_scan {s : Block} (h : firstConflict s.codes = none) : s.PrefixFree := by
  rcases validate_cases s with ⟨hf, -⟩ | ⟨a, b, -, hv⟩
  · exact hf
  · simp [validate, h, raise] at hv

/-- A scan that finds a pair has found the first conflicting pair of the table. -/
theorem firstConflict_of_scan {s : Block} {a b : Byte} (h : firstConflict s.codes = some (a, b)) :
    s.FirstConflict a b := by
  rcases validate_cases s with ⟨-, hv⟩ | ⟨a', b', hf, hv⟩
  · simp [validate, h, raise] at hv
  · rcases firstConflict_cases s.codes (codes_pairwise s) with ⟨hn, -⟩ | ⟨p, -, q, -, hs, -⟩
    · simp [hn] at h
    · have hi : pairInfo a b = pairInfo a' b' := by simpa [validate, h, raise] using hv
      have key : ∀ x y : Byte, (pairInfo x y).extractLsb' 0 8 = x ∧
          (pairInfo x y).extractLsb' 8 8 = y := by
        intro x y
        constructor <;>
        · apply BitVec.eq_of_getLsbD_eq
          intro i hi
          have h8 : ¬ 8 + i < 8 := by omega
          have h32 : i < 32 ∧ 8 + i < 32 := by omega
          simp [pairInfo, hi, h8, h32]
      have ha := (key a b).1.symm.trans (hi ▸ (key a' b').1)
      have hb := (key a b).2.symm.trans (hi ▸ (key a' b').2)
      rw [ha, hb]
      exact hf

end Sys2Proof.Machine
end

