-- ==== Sys2Proof/Laws/Unpack.lean ====
section
/-!
SUPPORT. What feeding bits does to the decoder (spec/42_unpack.md R163, R164), as equations between blocks:
the bytes whose codes the candidate and the fed bits spell go to OUTQ, and the rest becomes the candidate,
or is the candidate that no code can match.
-/

namespace Sys2Proof.Machine

/-! ## Streams and candidates -/

@[simp] theorem stream_nil (s : Block) : s.stream [] = [] := rfl

@[simp] theorem stream_cons (s : Block) (d : Byte) (ds : List Byte) :
    s.stream (d :: ds) = s.code d ++ s.stream ds := rfl

theorem stream_append (s : Block) (ds es : List Byte) :
    s.stream (ds ++ es) = s.stream ds ++ s.stream es := by
  simp [Block.stream]

theorem stream_congr {s t : Block} (hl : t.tabLen = s.tabLen) (hb : t.tabBits = s.tabBits) :
    t.stream = s.stream := by
  funext ds
  simp [Block.stream, (table_congr hl hb).2.1]

theorem unmatched_nil (s : Block) : s.Unmatched [] := fun _ hb hp =>
  code_ne_nil hb (List.prefix_nil.mp hp)

/-- A candidate that holds no code and equals none holds none when it is one bit longer. -/
theorem unmatched_snoc {s : Block} {c : Bits} {x : Bool} (h : s.Unmatched c)
    (hn : ∀ b, s.valid b = true → s.code b ≠ c ++ [x]) : s.Unmatched (c ++ [x]) := by
  intro b hb hp
  rcases List.prefix_concat_iff.mp hp with he | hp
  · exact hn b hb he
  · exact h b hb hp

/-- A look through the codes that finds no prefix of `c`: the form a concrete candidate is checked in. -/
theorem unmatched_of_scan {s : Block} {c : Bits}
    (h : (s.codes.all fun p => !isPrefix p.2 c) = true) : s.Unmatched c := by
  intro b hb hp
  have := List.all_eq_true.mp h (b, s.code b) (mem_codes.mpr ⟨hb, rfl⟩)
  simp [isPrefix, List.isPrefixOf_iff_prefix.mpr hp] at this

/-- A list of valid bytes that spells a prefix-free parse is the only one: two parses of one string, each
followed by a rest that holds no code, are the same parse (R166). -/
theorem parse_unique {s : Block} (hf : s.PrefixFree) {ds es : List Byte} {c d : Bits}
    (hds : s.AllValid ds) (hes : s.AllValid es) (hc : s.Unmatched c) (hd : s.Unmatched d)
    (h : s.stream ds ++ c = s.stream es ++ d) : ds = es ∧ c = d := by
  induction ds generalizing es with
  | nil =>
    cases es with
    | nil => exact ⟨rfl, by simpa using h⟩
    | cons e es =>
      have he := hes e (by simp)
      refine absurd ?_ (hc e he)
      simp only [stream_nil, List.nil_append, stream_cons, List.append_assoc] at h
      exact ⟨_, h.symm⟩
  | cons a ds ih =>
    have ha := hds a (by simp)
    cases es with
    | nil =>
      refine absurd ?_ (hd a ha)
      simp only [stream_nil, List.nil_append, stream_cons, List.append_assoc] at h
      exact ⟨_, h⟩
    | cons e es =>
      have he := hes e (by simp)
      simp only [stream_cons, List.append_assoc] at h
      have hae : a = e := by
        by_contra hne
        rcases List.prefix_or_prefix_of_prefix (List.prefix_append (s.code a) (s.stream ds ++ c))
          (h ▸ List.prefix_append (s.code e) (s.stream es ++ d)) with hp | hp
        · exact hf a e hne ha he hp
        · exact hf e a (Ne.symm hne) he ha hp
      subst hae
      obtain ⟨rfl, rfl⟩ := ih (fun x hx => hds x (by simp [hx])) (fun x hx => hes x (by simp [hx]))
        (List.append_cancel_left h)
      exact ⟨rfl, rfl⟩

/-! ## One bit -/

/-- What one fed bit does: it completes a code, grows the candidate, or raises CORRUPT (R163). -/
theorem feedBit_cases (x : Bool) (s : Block) :
    (∃ b, s.valid b = true ∧ s.code b = s.cand ++ [x] ∧ feedBit x s = .go
      { s with bitcnt := s.bitcnt + 1, outcnt := s.outcnt + 1, outq := s.outq ++ [b], cand := [] }) ∨
    ((∀ b, s.valid b = true → s.code b ≠ s.cand ++ [x]) ∧ s.cand.length + 1 < s.maxlen ∧
      feedBit x s = .go { s with bitcnt := s.bitcnt + 1, cand := s.cand ++ [x] }) ∨
    ((∀ b, s.valid b = true → s.code b ≠ s.cand ++ [x]) ∧ s.maxlen ≤ s.cand.length + 1 ∧
      feedBit x s = .ended
        { s with
          bitcnt := s.bitcnt + 1, cand := s.cand ++ [x], state := .error, errcode := .corrupt
          errinfo := (BitVec.ofNat 8 (s.cand.length + 1)).setWidth 32
          errpos := s.bitcnt + 1 - (BitVec.ofNat 8 (s.cand.length + 1)).setWidth 64 }) := by
  have hb := table_congr (s := s)
    (t := { s with cand := s.cand ++ [x], bitcnt := s.bitcnt + 1 }) rfl rfl
  have hlk : ({ s with cand := s.cand ++ [x], bitcnt := s.bitcnt + 1 } : Block).lookup =
    s.lookup := hb.2.2.1
  have hmx : ({ s with cand := s.cand ++ [x], bitcnt := s.bitcnt + 1 } : Block).maxlen =
    s.maxlen := hb.2.2.2.1
  cases h : s.lookup (s.cand ++ [x]) with
  | some b =>
    obtain ⟨hv, hc⟩ := lookup_some_valid h
    refine .inl ⟨b, hv, hc, ?_⟩
    simp only [feedBit, hlk, h]
    rfl
  | none =>
    have hn := lookup_none.mp h
    by_cases hm : s.maxlen ≤ s.cand.length + 1
    · refine .inr (.inr ⟨hn, hm, ?_⟩)
      simp only [feedBit, hlk, h, hmx, List.length_append, List.length_singleton, hm, if_true,
        raise, Block.candlen]
    · refine .inr (.inl ⟨hn, by omega, ?_⟩)
      simp only [feedBit, hlk, h, hmx, List.length_append, List.length_singleton, hm, if_false]

/-! ## A string of bits -/

/-- The block after all of `c` was fed. -/
def fedBlock (s : Block) (c : Bits) (out : List Byte) (rest : Bits) : Block :=
  { s with
    bitcnt := s.bitcnt + BitVec.ofNat 64 c.length
    outcnt := s.outcnt + BitVec.ofNat 32 out.length
    outq := s.outq ++ out
    cand := rest }

/-- The block after feeding `c` raised CORRUPT with `rest` still to come (R163, R221). -/
def failedBlock (s : Block) (c : Bits) (out : List Byte) (bad rest : Bits) : Block :=
  { s with
    bitcnt := s.bitcnt + BitVec.ofNat 64 (c.length - rest.length)
    outcnt := s.outcnt + BitVec.ofNat 32 out.length
    outq := s.outq ++ out
    cand := bad
    state := .error
    errcode := .corrupt
    errinfo := BitVec.ofNat 32 bad.length
    errpos := s.bitcnt + BitVec.ofNat 64 (c.length - rest.length) - BitVec.ofNat 64 bad.length }

theorem setWidth_ofNat_8 {n m : Nat} (hm : 8 ≤ m) (h : n < 256) :
    (BitVec.ofNat 8 n).setWidth m = BitVec.ofNat m n := by
  apply BitVec.eq_of_toNat_eq
  have hp : 2 ^ 8 ≤ 2 ^ m := Nat.pow_le_pow_right (by decide) hm
  simp only [BitVec.toNat_setWidth, BitVec.toNat_ofNat]
  rw [Nat.mod_eq_of_lt (show n < 2 ^ 8 by omega)]

theorem add_one_ofNat {w : Nat} (y : BitVec w) (n : Nat) :
    y + 1#w + BitVec.ofNat w n = y + BitVec.ofNat w (n + 1) := by
  rw [Nat.add_comm n 1, BitVec.ofNat_add, ← BitVec.add_assoc]

/-- What feeding a bit string does, from a candidate that holds no code and is shorter than the longest:
all of it is fed, or a candidate fails (R163, R164). -/
theorem feedBits_cases (c : Bits) (s : Block) (hu : s.Unmatched s.cand)
    (hs : s.cand.length < max s.maxlen 1) :
    (∃ out rest, s.Parses (s.cand ++ c) out rest ∧ feedBits c s = .go (fedBlock s c out rest)) ∨
    (∃ out bad rest, s.FailsAt (s.cand ++ c) out bad rest ∧ rest.length < c.length ∧
      feedBits c s = .ended (failedBlock s c out bad rest)) := by
  induction c generalizing s with
  | nil =>
    refine .inl ⟨[], s.cand, ⟨fun _ h => by simp at h, by simp, hu, hs⟩, ?_⟩
    simp [feedBits, fedBlock]
  | cons x c ih =>
    have hml := maxlen_le s
    rcases feedBit_cases x s with ⟨b, hv, hc, heq⟩ | ⟨hn, hlt, heq⟩ | ⟨hn, hle, heq⟩
    · -- a code is complete
      rw [feedBits, heq, Flow.andThen_go]
      have hs' : (0 : Nat) < max s.maxlen 1 := by omega
      rcases ih { s with bitcnt := s.bitcnt + 1, outcnt := s.outcnt + 1, outq := s.outq ++ [b], cand := [] }
        (unmatched_nil _) hs' with ⟨out, rest, hf, he⟩ | ⟨out, bad, rest, hf, hr, he⟩
      · refine .inl ⟨b :: out, rest, ⟨?_, ?_, hf.unmatched, hf.short⟩, ?_⟩
        · intro d hd
          rcases List.mem_cons.mp hd with rfl | hd
          · exact hv
          · exact hf.valid d hd
        · have hp : [] ++ c = s.stream out ++ rest := hf.parse
          rw [stream_cons, hc, List.append_assoc, ← hp]
          simp
        · rw [he]
          simp only [fedBlock, List.length_cons, List.append_assoc, List.singleton_append]
          rw [← add_one_ofNat s.bitcnt, ← add_one_ofNat s.outcnt]
          rfl
      · refine .inr ⟨b :: out, bad, rest, ⟨?_, ?_, hf.unmatched, hf.long⟩, by
          simp only [List.length_cons]; omega, ?_⟩
        · intro d hd
          rcases List.mem_cons.mp hd with rfl | hd
          · exact hv
          · exact hf.valid d hd
        · have hp : [] ++ c = s.stream out ++ (bad ++ rest) := hf.parse
          rw [stream_cons, hc, List.append_assoc, ← hp]
          simp
        · rw [he]
          simp only [failedBlock, List.length_cons, List.append_assoc, List.singleton_append]
          rw [show c.length + 1 - rest.length = c.length - rest.length + 1 by omega,
            ← add_one_ofNat s.bitcnt, ← add_one_ofNat s.outcnt]
          rfl
    · -- the candidate grows
      rw [feedBits, heq, Flow.andThen_go]
      have hs' : (s.cand ++ [x]).length < max s.maxlen 1 := by
        simp only [List.length_append, List.length_singleton]; omega
      rcases ih { s with bitcnt := s.bitcnt + 1, cand := s.cand ++ [x] }
        (unmatched_snoc hu hn) hs' with ⟨out, rest, hf, he⟩ | ⟨out, bad, rest, hf, hr, he⟩
      · refine .inl ⟨out, rest, ⟨hf.valid, ?_, hf.unmatched, hf.short⟩, ?_⟩
        · have hp : (s.cand ++ [x]) ++ c = s.stream out ++ rest := hf.parse
          simpa using hp
        · rw [he]
          simp only [fedBlock, List.length_cons]
          rw [← add_one_ofNat s.bitcnt]
          rfl
      · refine .inr ⟨out, bad, rest, ⟨hf.valid, ?_, hf.unmatched, hf.long⟩, by
          simp only [List.length_cons]; omega, ?_⟩
        · have hp : (s.cand ++ [x]) ++ c = s.stream out ++ (bad ++ rest) := hf.parse
          simpa using hp
        · rw [he]
          simp only [failedBlock, List.length_cons]
          rw [show c.length + 1 - rest.length = c.length - rest.length + 1 by omega,
            ← add_one_ofNat s.bitcnt]
          rfl
    · -- the candidate fails
      have hlen : s.cand.length + 1 = max s.maxlen 1 := by omega
      refine .inr ⟨[], s.cand ++ [x], c, ⟨fun _ h => by simp at h, by simp,
        unmatched_snoc hu hn, by simpa using hlen⟩, by simp, ?_⟩
      rw [feedBits, heq, Flow.andThen_ended]
      simp only [failedBlock, List.length_cons, List.length_append, List.length_nil,
        List.append_nil]
      rw [setWidth_ofNat_8 (by decide) (show s.cand.length + 1 < 256 by omega),
        setWidth_ofNat_8 (by decide) (show s.cand.length + 1 < 256 by omega),
        show c.length + 1 - c.length = 1 by omega, BitVec.add_zero]
      rfl

end Sys2Proof.Machine
end

