-- ==== Sys2Proof/Tests/Slice0.lean ====
section
/-!
SUPPORT. The model's own tests. The expected values are those of spec/95_test_vectors.md, of the examples
that stand in the rules, or counted by hand from the tables of spec/30_encoding.md; each test names its
source. The last part shows, for each statement that has hypotheses, a state and operands that meet them.
-/

open Sys2Proof Sys2Proof.Machine

namespace Sys2Proof.Tests

set_option Elab.async false

/-! ## Helpers -/

/-- A step answered a next state that satisfies `P`. -/
def nextIs (o : Host.Outcome State Fault Refusal) (P : State → Bool) : Bool :=
  match o with
  | .next t => P t
  | .fault _ => false
  | .refused _ => false

theorem exists_of_nextIs {o : Host.Outcome State Fault Refusal} {P : State → Bool}
    (h : nextIs o P = true) : ∃ t, o = .next t ∧ P t = true := by
  cases o with
  | next t => exact ⟨t, rfl, h⟩
  | fault r => exact absurd h (by simp [nextIs])
  | refused r => exact absurd h (by simp [nextIs])

/-- A machine with the given block, at the reference OUTQ_DEPTH, whose host has nothing to do yet. -/
def machine (b : Block) : State := { State.reset with block := b }

/-- The table T3 of spec/95: 0x41 has "0", 0x42 has "10", 0x43 has "11". -/
def t3 : Block :=
  { Block.reset with
    tabLen := [(0x41, 1), (0x42, 2), (0x43, 2)]
    tabBits := [(8 * 0x42, 0x80000000), (8 * 0x43, 0xC0000000)] }

/-- The table of Program 3 of spec/95: 0x41 has "00", 0x42 has "01", 0x43 has "10", and "11" is no code. -/
def tGap : Block :=
  { Block.reset with
    tabLen := [(0x41, 2), (0x42, 2), (0x43, 2)]
    tabBits := [(8 * 0x42, 0x40000000), (8 * 0x43, 0x80000000)] }

/-- The table of V-V1: 0x41 has "0" and 0x42 has "01". -/
def tBad : Block :=
  { Block.reset with
    tabLen := [(0x41, 1), (0x42, 2)]
    tabBits := [(8 * 0x42, 0x40000000)] }

/-- V-B12: in PACK after PUSH 0x42 from empty. -/
def pack3 : Block := { t3 with state := .pack, bitcnt := 2, acclen := 2, accbits := 2 }

/-- A pack job whose last chunk was full. -/
def packFull3 : Block := { t3 with state := .pack, bitcnt := 8, outcnt := 1 }

/-- V-O2 in short: OUTQ one byte too full for RDY = 1. -/
def notReady3 : Block := { packFull3 with outq := List.replicate 33 0xFF }

/-- An unpack job after one PUSH, of 0x16. -/
def unpack3 : Block := { t3 with state := .unpack, hold := 0x16, holdv := true }

/-- An unpack job in the middle: one byte fed, "1" left over, and 0x01 held. -/
def unpackMid3 : Block :=
  { t3 with
    state := .unpack, bitcnt := 8, outcnt := 5, cand := [true], hold := 0x01, holdv := true }

/-- A finished pack job: V-P1, with its byte still in OUTQ. -/
def done3 : Block := { t3 with state := .done, bitcnt := 6, outcnt := 1, tail := 6, outq := [0x16] }

/-- V-C11: ERROR after PUSH 0x41 in IDLE. -/
def failed3 : Block := { t3 with state := .error, errcode := .cmdState, errinfo := 0x03000041 }

/-- The invariant of the block, in a form that is computed. -/
def checks (cfg : Config) (s : Block) : Bool := decide (
  (Memory.wf Config.nsym s.tabLen = true ∧
    Memory.wf (Config.bitsWords * Config.nsym) s.tabBits = true) ∧
  (s.errcode = .noError ↔ s.state ≠ .error) ∧
  (s.state ≠ .error → s.errinfo = 0 ∧ s.errpos = 0) ∧
  s.accbits.toNat < 2 ^ s.acclen.toNat ∧
  (s.state ≠ .pack → s.state ≠ .error → s.acclen = 0) ∧
  (s.state ≠ .unpack → s.state ≠ .error → s.cand = [] ∧ s.holdv = false) ∧
  (s.cand.length ≤ 255 ∧ (s.state ≠ .error → s.cand.length ≤ 254)) ∧
  (s.state = .unpack → s.cand.length < max s.maxlen 1) ∧
  (s.codes.all fun p => !isPrefix p.2 s.cand) = true ∧
  (s.state = .unpack → s.holdv = false → s.cand = []) ∧
  (s.holdv = false → s.hold = 0) ∧
  firstConflict s.codes = none ∧
  s.outq.length ≤ cfg.outqDepth ∧
  (s.state = .idle → s.outq = [] ∧ s.jobtm = false) ∧
  (s.state = .pack →
    s.bitcnt.toNat % 8 = s.acclen.toNat ∧ s.outcnt.toNat = s.bitcnt.toNat / 8 % 2 ^ 32))

theorem inv_of_checks {b : Block} (h : checks Config.reference b = true) : (machine b).Inv := by
  obtain ⟨⟨hl, hb⟩, h1, h2, h3, h4, h5, h6, h7, h8, h9, h10, h11, h12, h13, h14⟩ :=
    of_decide_eq_true h
  exact ⟨show Config.reference.valid = true by decide, hl, hb, h1, h2, h3, h4, h5, h6, h7, fun _ => unmatched_of_scan h8, h9, h10,
    fun _ => prefixFree_of_scan h11, h12, h13, h14⟩

theorem test_inv_idle : (machine t3).Inv := inv_of_checks (by decide +kernel)

theorem test_inv_pack : (machine pack3).Inv := inv_of_checks (by decide +kernel)

theorem test_inv_packFull : (machine packFull3).Inv := inv_of_checks (by decide +kernel)

theorem test_inv_notReady : (machine notReady3).Inv := inv_of_checks (by decide +kernel)

theorem test_inv_unpack : (machine unpack3).Inv := inv_of_checks (by decide +kernel)

theorem test_inv_unpackMid : (machine unpackMid3).Inv := inv_of_checks (by decide +kernel)

theorem test_inv_done : (machine done3).Inv := inv_of_checks (by decide +kernel)

theorem test_inv_error : (machine failed3).Inv := inv_of_checks (by decide +kernel)

/-- T3 is prefix-free (R120: a table with unused patterns and one with none are both well-formed). -/
theorem test_t3_prefixFree : t3.PrefixFree := prefixFree_of_scan (by decide)

theorem test_tGap_prefixFree : tGap.PrefixFree := prefixFree_of_scan (by decide)

/-! ## What WellFormed refuses (R8, R101) -/

theorem test_depth_31_refused : Config.valid { outqDepth := 31 } = false := by decide

theorem test_depth_256_refused : Config.valid { outqDepth := 256 } = false := by decide

theorem test_depth_bounds_accepted :
    Config.valid { outqDepth := 32 } = true ∧ Config.valid { outqDepth := 255 } = true := by decide

theorem test_empty_code_refused : codeWellFormed [] = false := by decide

theorem test_code_256_refused : codeWellFormed (List.replicate 256 true) = false := by
  simp only [codeWellFormed, List.length_replicate]
  decide

theorem test_code_bounds_accepted :
    codeWellFormed [false] = true ∧ codeWellFormed (List.replicate 255 true) = true := by
  simp only [codeWellFormed, List.length_replicate]
  decide

/-! ## Decoding: one word for each constructor, written out from R92 and R97 -/

/-- OPC = 00000000, RSV = 0, DATA = 0. -/
theorem test_decode_nop :
    decode (.command 0b00000000000000000000000000000000) = .ok .nop := by decide

/-- OPC = 00000001. -/
theorem test_decode_start_pack :
    decode (.command 0b00000001000000000000000000000000) = .ok .startPack := by decide

/-- OPC = 00000010. -/
theorem test_decode_start_unpack :
    decode (.command 0b00000010000000000000000000000000) = .ok .startUnpack := by decide

/-- OPC = 00000011, DATA = 10100101. -/
theorem test_decode_push :
    decode (.command 0b00000011000000000000000010100101) = .ok (.push 0xA5) := by decide

/-- OPC = 00000100. -/
theorem test_decode_finish :
    decode (.command 0b00000100000000000000000000000000) = .ok .finish := by decide

/-- OPC = 00000101. -/
theorem test_decode_abort :
    decode (.command 0b00000101000000000000000000000000) = .ok .abort := by decide

/-- OPC = 00000110. -/
theorem test_decode_clrtab :
    decode (.command 0b00000110000000000000000000000000) = .ok .clrtab := by decide

theorem test_decode_rd_id : decode (.access (.read 0x0000)) = .ok .rdId := by decide

theorem test_decode_rd_ctrl : decode (.access (.read 0x0004)) = .ok .rdCtrl := by decide

theorem test_decode_wr_ctrl : decode (.access (.write 0x0004 7)) = .ok (.wrCtrl 7) := by decide

theorem test_decode_rd_status : decode (.access (.read 0x0008)) = .ok .rdStatus := by decide

theorem test_decode_wr_cmd :
    decode (.access (.write 0x000C 0x01000000)) = .ok (.wrCmd 0x01000000) := by decide

theorem test_decode_rd_dout : decode (.access (.read 0x0010)) = .ok .rdDout := by decide

theorem test_decode_rd_tail : decode (.access (.read 0x0014)) = .ok .rdTail := by decide

theorem test_decode_wr_tail : decode (.access (.write 0x0014 6)) = .ok (.wrTail 6) := by decide

theorem test_decode_rd_bitcnt_lo : decode (.access (.read 0x0018)) = .ok .rdBitcntLo := by decide

theorem test_decode_rd_bitcnt_hi : decode (.access (.read 0x001C)) = .ok .rdBitcntHi := by decide

theorem test_decode_rd_outcnt : decode (.access (.read 0x0020)) = .ok .rdOutcnt := by decide

theorem test_decode_rd_errinfo : decode (.access (.read 0x0024)) = .ok .rdErrinfo := by decide

theorem test_decode_rd_errpos_lo : decode (.access (.read 0x0028)) = .ok .rdErrposLo := by decide

theorem test_decode_rd_errpos_hi : decode (.access (.read 0x002C)) = .ok .rdErrposHi := by decide

theorem test_decode_rd_tabinfo : decode (.access (.read 0x0030)) = .ok .rdTabinfo := by decide

theorem test_decode_rd_dbg : decode (.access (.read 0x0034)) = .ok .rdDbg := by decide

/-- [15:10] = 000100, [9:2] = 01000001, [1:0] = 00 (R204: LEN[0x41] is at 0x1104). -/
theorem test_decode_rd_len :
    decode (.access (.read 0b0001000100000100)) = .ok (.rdLen 0x41) := by decide

/-- LEN[0xFF] is the last LEN, at 0x13FC (R64). -/
theorem test_decode_wr_len :
    decode (.access (.write 0x13FC 0x101)) = .ok (.wrLen 0xFF 0x101) := by decide

/-- [15:13] = 001, [12:5] = 01000010, [4:2] = 000, [1:0] = 00 (R206: BITS[0x42][0] is at 0x2840). -/
theorem test_decode_rd_bits :
    decode (.access (.read 0b0010100001000000)) = .ok (.rdBits 0x42 0) := by decide

/-- BITS[0xFF][7] is the last word of the table, at 0x3FFC (R64). -/
theorem test_decode_wr_bits :
    decode (.access (.write 0x3FFC 9)) = .ok (.wrBits 0xFF 7 9) := by decide

/-- V-C1, V-C3, V-C4: OPC, DATA and RSV each make a word illegal (R94). -/
theorem test_decode_illegal_words :
    decode (.command 0x07000000) = .error (.illegalCommand 0x07000000) ∧
    decode (.command 0x00000001) = .error (.illegalCommand 0x00000001) ∧
    decode (.command 0x03000100) = .error (.illegalCommand 0x03000100) := by decide

/-- V-B1 to V-B5 and V-B8: misaligned, unmapped, and in a direction that is not listed (R63). -/
theorem test_decode_unlisted_accesses :
    decode (.access (.read 0x0002)) = .error (.unmatchedAccess 0x00002) ∧
    decode (.access (.write 0x0008 1)) = .error (.unmatchedAccess 0x10008) ∧
    decode (.access (.read 0x000C)) = .error (.unmatchedAccess 0x0000C) ∧
    decode (.access (.read 0x4000)) = .error (.unmatchedAccess 0x04000) ∧
    decode (.access (.write 0x1402 5)) = .error (.unmatchedAccess 0x11402) ∧
    decode (.access (.write 0x000D 0x01000000)) = .error (.unmatchedAccess 0x1000D) := by decide

/-- A table word of each format (log 7): a command word, a read's and a write's descriptor. -/
theorem test_table_words :
    decodeTableWord 32 0x030000AB = some (.push 0xAB) ∧
    decodeTableWord 24 0x00010 = some .rdDout ∧
    decodeTableWord 24 0x11104 = some (.wrLen 0x41 0) ∧
    decodeTableWord 24 0x00038 = none ∧
    decodeTableWord 32 0x07000000 = none := by decide

/-- A command word placed by `withFetchWord` is the next thing a step runs. -/
theorem test_fetch_word_command :
    nextIs (step (State.reset.withFetchWord 32 0x01000000)) (fun t => t.block.state == .pack) =
      true := by decide +kernel

/-- A descriptor placed by `withFetchWord` is the next thing a step runs. -/
theorem test_fetch_word_access :
    nextIs (step (State.reset.withFetchWord 24 0x00000)) (fun t => t.replies == [0x48554631]) =
      true := by decide +kernel

/-! ## Commands -/

/-- R123: NOP in UNPACK with HOLDV = 1 leaves HOLDV = 1. -/
theorem test_nop : nextIs (exec .nop (machine unpack3)) (fun t => t == machine unpack3) = true := by
  decide +kernel

/-- V-V1: TABLE_INVALID records the pair 0x41, 0x42. -/
theorem test_start_pack_invalid :
    nextIs (exec .startPack (machine tBad)) (fun t =>
      t.block.errcode == .tableInvalid && t.block.errinfo == 0x00004241) = true := by
  decide +kernel

/-- R121: DONE with a byte in OUTQ is not a state to start from. -/
theorem test_start_pack_outq :
    nextIs (exec .startPack (machine done3)) (fun t =>
      t.block.errcode == .cmdState && t.block.errinfo == 0x01000000) = true := by
  decide +kernel

/-- R122: with CTRL.TAILMODE = 1, START_UNPACK gives STATE = UNPACK and JOBTM = 1. -/
theorem test_start_unpack :
    nextIs (exec .startUnpack (machine { t3 with tailmode := true })) (fun t =>
      t.block.state == .unpack && t.block.jobtm) = true := by
  decide +kernel

/-- V-V2: two equal codes conflict. -/
theorem test_start_unpack_equal_codes :
    nextIs (exec .startUnpack (machine { Block.reset with
        tabLen := [(0x10, 1), (0x20, 1)], tabBits := [(0x80, 0x80000000), (0x100, 0x80000000)] }))
      (fun t => t.block.errcode == .tableInvalid && t.block.errinfo == 0x00002010) = true := by
  decide +kernel

/-- V-P6: the fourth code "11" fills the chunk 0xFF. -/
theorem test_push_pack_full_chunk :
    nextIs (exec (.push 0x43) (machine { t3 with
        state := .pack, bitcnt := 6, acclen := 6, accbits := 0x3F }))
      (fun t => t.block.outq == [0xFF] && t.block.acclen == 0 && t.block.bitcnt == 8 &&
        t.block.outcnt == 1) = true := by
  decide +kernel

/-- R165: PUSH 0x00 after PUSH 0xAB feeds "10101011", which is 0x42 0x42 0x42 0x43. -/
theorem test_push_unpack :
    nextIs (exec (.push 0x00) (machine { unpack3 with hold := 0xAB })) (fun t =>
      t.block.outq == [0x42, 0x42, 0x42, 0x43] && t.block.cand == [] && t.block.hold == 0 &&
        t.block.holdv) = true := by
  decide +kernel

/-- V-P1: FINISH of S = "010110" pushes 0x16 and sets TAIL = 6. -/
theorem test_finish_pack :
    nextIs (exec .finish (machine { t3 with
        state := .pack, bitcnt := 6, acclen := 6, accbits := 0x16 }))
      (fun t => t.block.outq == [0x16] && t.block.tail == 6 && t.block.state == .done) = true := by
  decide +kernel

/-- V-U3: in COMPAT mode 0x16 is "10110", so the leading "0" is lost and no error is raised. -/
theorem test_finish_unpack_compat :
    nextIs (exec .finish (machine unpack3)) (fun t =>
      t.block.outq == [0x42, 0x43, 0x41] && t.block.state == .done && t.block.bitcnt == 5) =
      true := by
  decide +kernel

/-- R124: ABORT in ERROR goes to IDLE with nothing recorded. -/
theorem test_abort :
    nextIs (exec .abort (machine failed3)) (fun t => t.block == t3) = true := by decide +kernel

/-- V-C12: CLRTAB in ERROR clears the table, and STATE stays ERROR. -/
theorem test_clrtab_error :
    nextIs (exec .clrtab (machine failed3)) (fun t =>
      t.block.ncodes == 0 && t.block.state == .error && t.block.errinfo == 0x03000041) = true := by
  decide +kernel

/-- V-C10: CLRTAB in PACK raises CMD_STATE and keeps the table. -/
theorem test_clrtab_pack :
    nextIs (exec .clrtab (machine pack3)) (fun t =>
      t.block.errcode == .cmdState && t.block.ncodes == 3) = true := by
  decide +kernel

/-! ## Register accesses -/

/-- V-B9. -/
theorem test_rd_id :
    nextIs (exec .rdId (machine t3)) (fun t => t.replies == [0x48554631]) = true := by decide

/-- V-B10: WR CTRL, 0xFFFFFFFF sets the four fields. -/
theorem test_wr_ctrl :
    nextIs (exec (.wrCtrl 0xFFFFFFFF) (machine t3)) (fun t =>
      t.block.tailmode && t.block.ieErr && t.block.ieDone && t.block.ieOut) = true := by decide

/-- R24: IE_DONE is bit 2. -/
theorem test_rd_ctrl :
    nextIs (exec .rdCtrl (machine { t3 with ieDone := true })) (fun t => t.replies == [4]) =
      true := by decide

/-- V-C8 in part: DONE with one byte in OUTQ and RDY = 1. -/
theorem test_rd_status_done :
    nextIs (exec .rdStatus (machine done3)) (fun t => t.replies == [0x0001001B]) = true := by
  decide +kernel

/-- R193: UNPACK with HOLDV = 1, an empty OUTQ and CTRL = 0. -/
theorem test_rd_status_unpack :
    nextIs (exec .rdStatus (machine unpack3)) (fun t => t.replies == [0x0000002A]) = true := by
  decide +kernel

/-- V-C9: FINISH in IDLE, written to CMD. -/
theorem test_wr_cmd_finish_idle :
    nextIs (exec (.wrCmd 0x04000000) (machine t3)) (fun t =>
      t.block.errcode == .cmdState && t.block.errinfo == 0x04000000) = true := by decide +kernel

/-- V-C5: 0x05000001 is no ABORT. -/
theorem test_wr_cmd_illegal :
    nextIs (exec (.wrCmd 0x05000001) (machine t3)) (fun t =>
      t.block.errcode == .illegalCmd && t.block.errinfo == 0x05000001) = true := by decide +kernel

/-- R195: OUTQ = [0x16] reads 0x116. -/
theorem test_rd_dout :
    nextIs (exec .rdDout (machine done3)) (fun t =>
      t.replies == [0x116] && t.block.outq == []) = true := by decide +kernel

/-- R195: an empty OUTQ reads 0. -/
theorem test_rd_dout_empty :
    nextIs (exec .rdDout (machine t3)) (fun t => t.replies == [0]) = true := by decide

/-- V-P1: RD TAIL after the job reads 6. -/
theorem test_rd_tail :
    nextIs (exec .rdTail (machine done3)) (fun t => t.replies == [6]) = true := by decide

/-- V-B11: WR TAIL, 0x16 stores 6. -/
theorem test_wr_tail :
    nextIs (exec (.wrTail 0x16) (machine t3)) (fun t => t.block.tail == 6) = true := by decide

/-- R198: the low half of 2^32 + 6. -/
theorem test_rd_bitcnt_lo :
    nextIs (exec .rdBitcntLo (machine { t3 with bitcnt := 0x100000006 })) (fun t =>
      t.replies == [6]) = true := by decide

/-- R198: the high half of 2^32 + 6. -/
theorem test_rd_bitcnt_hi :
    nextIs (exec .rdBitcntHi (machine { t3 with bitcnt := 0x100000006 })) (fun t =>
      t.replies == [1]) = true := by decide

/-- R199: RD OUTCNT after V-P1 reads 1. -/
theorem test_rd_outcnt :
    nextIs (exec .rdOutcnt (machine done3)) (fun t => t.replies == [1]) = true := by decide

/-- R200: after PUSH 0x41 in IDLE. -/
theorem test_rd_errinfo :
    nextIs (exec .rdErrinfo (machine failed3)) (fun t => t.replies == [0x03000041]) = true := by
  decide

/-- R201: the low half of ERRPOS. -/
theorem test_rd_errpos_lo :
    nextIs (exec .rdErrposLo (machine { failed3 with errpos := 0x200000007 })) (fun t =>
      t.replies == [7]) = true := by decide

/-- R201: the high half of ERRPOS. -/
theorem test_rd_errpos_hi :
    nextIs (exec .rdErrposHi (machine { failed3 with errpos := 0x200000007 })) (fun t =>
      t.replies == [2]) = true := by decide

/-- R202: T3 has 3 codes, the longest of 2 bits. -/
theorem test_rd_tabinfo :
    nextIs (exec .rdTabinfo (machine t3)) (fun t => t.replies == [0x00020003]) = true := by
  decide +kernel

/-- V-B12: ACCLEN 2, ACCBITS 0b10. -/
theorem test_rd_dbg :
    nextIs (exec .rdDbg (machine pack3)) (fun t => t.replies == [0x00240000]) = true := by decide

/-- V-U8: JOBTM = 1 and 0x16 held. -/
theorem test_rd_dbg_unpack :
    nextIs (exec .rdDbg (machine { unpack3 with jobtm := true })) (fun t =>
      t.replies == [0x08011600]) = true := by decide

/-- V-B9: LEN[0x41] is 1. -/
theorem test_rd_len :
    nextIs (exec (.rdLen 0x41) (machine t3)) (fun t => t.replies == [1]) = true := by decide

/-- R205: WR LEN[0x41], 0x101 stores 1. -/
theorem test_wr_len :
    nextIs (exec (.wrLen 0x41 0x101) (machine Block.reset)) (fun t =>
      t.block.tabLen == [(0x41, 1)]) = true := by decide

/-- V-B6: TABLE_BUSY records 0x11104, and LEN[0x41] is still 1. -/
theorem test_wr_len_busy :
    nextIs (exec (.wrLen 0x41 2) (machine pack3)) (fun t =>
      t.block.errcode == .tableBusy && t.block.errinfo == 0x11104 && t.block.len 0x41 == 1) =
      true := by decide

/-- V-B9: BITS[0x43][0] is 0xC0000000. -/
theorem test_rd_bits :
    nextIs (exec (.rdBits 0x43 0) (machine t3)) (fun t => t.replies == [0xC0000000]) = true := by
  decide

/-- R207: WR BITS[0x43][0], 0xC0000000 with LEN[0x43] = 2 gives the code "11". -/
theorem test_wr_bits :
    nextIs (exec (.wrBits 0x43 0 0xC0000000) (machine { Block.reset with tabLen := [(0x43, 2)] }))
      (fun t => t.block.code 0x43 == [true, true]) = true := by decide

/-- V-B7: TABLE_BUSY records 0x12840. -/
theorem test_wr_bits_busy :
    nextIs (exec (.wrBits 0x42 0 0) (machine unpack3)) (fun t =>
      t.block.errcode == .tableBusy && t.block.errinfo == 0x12840) = true := by decide

/-! ## Steps -/

/-- V-B2: a write of STATUS. -/
theorem test_bus_err :
    nextIs (step { machine t3 with pending := [.access (.write 0x0008 1)] }) (fun t =>
      t.block.errcode == .busErr && t.block.errinfo == 0x10008 && t.replies == []) = true := by
  decide +kernel

/-- V-B13: in ERROR a misaligned read returns 0 and records nothing. -/
theorem test_bus_err_in_error :
    nextIs (step { machine failed3 with pending := [.access (.read 0x0002)] }) (fun t =>
      t.block == failed3 && t.replies == [0]) = true := by decide +kernel

/-- R250: reset from the middle of a job. -/
theorem test_reset :
    nextIs (step { machine unpackMid3 with pending := [.reset] }) (fun t =>
      t.block == Block.reset) = true := by decide

/-! ## Host programs -/

/-- LOADCODE 0x42, "10" (spec/95, common table). -/
theorem test_loadcode :
    loadCode 0x42 [true, false] =
      [.access (.write 0x1108 2), .access (.write 0x2840 0x80000000)] := by decide

/-- R254, V-S3: after one "0" is held, COMPAT expands 0x00 to one bit, and 0x16 to "10110" (R162). -/
theorem test_natural :
    expandFinalCompat 0x00 = [false] ∧ expandFinalCompat 0x01 = [true] ∧
    expandFinalCompat 0x16 = [true, false, true, true, false] := by decide

/-! ## Every statement's hypotheses are met

For each statement that has hypotheses, a state and operands that meet all of them; for a statement of several
clauses, one for each clause, at a boundary of its range. -/

theorem test_witness_EncodeInvertsDecode :
    ∃ (r : Raw) (i : Instr), decode r = .ok i := ⟨_, _, test_decode_wr_bits⟩

theorem test_witness_AccessDecodesExactlyWhenListed :
    Listed (.read 0x0034) ∧ ¬ Listed (.read 0x0038) ∧ Listed (.write 0x13FC 0) ∧
    ¬ Listed (.write 0x1400 0) ∧ Listed (.read 0x2000) ∧ Listed (.write 0x3FFC 0) ∧
    ¬ Listed (.write 0x0034 0) := by
  unfold Listed TableAddr
  decide

theorem test_witness_IllegalCommandWords :
    (7 ≤ (0x07000000 : Word).toNat / 2 ^ 24 ∧ (0x03000100 : Word).toNat / 2 ^ 8 % 2 ^ 16 ≠ 0 ∧
      ((0x04000001 : Word).toNat / 2 ^ 24 ≠ 3 ∧ (0x04000001 : Word).toNat % 2 ^ 8 ≠ 0)) ∧
    (machine t3).block.state ≠ .error ∧ (machine failed3).block.state = .error := by decide

theorem test_witness_StepRunsTheDecodedAccess :
    { machine t3 with pending := [.access (.read 0x0000)] }.pending =
      .access (.read 0x0000) :: [] ∧ decodeAccess (.read 0x0000) = .ok .rdId := by decide

theorem test_witness_WrCmdRunsTheCommand : decodeCommand 0x030000FF = .ok (.push 0xFF) := by decide

theorem test_witness_UnlistedAccessRaisesBusErr :
    { machine t3 with pending := [.access (.read 0x0002)] }.pending =
      .access (.read 0x0002) :: [] ∧
    ¬ Listed (.read 0x0002) ∧ ¬ Listed (.write 0x0008 1) ∧ ¬ Listed (.read 0xFFFC) ∧
    (machine t3).block.state ≠ .error ∧ (machine failed3).block.state = .error := by
  unfold Listed TableAddr
  decide

theorem test_witness_ResetClearsTheBlock :
    { machine failed3 with pending := [.reset] }.pending = .reset :: [] ∧
    (machine failed3).cfg.valid = true := by decide

theorem test_witness_RunEndsWithTheHost : State.reset.pending = [] := rfl

theorem test_witness_StepTakesOneEvent :
    { machine t3 with pending := [readDout, .reset] }.pending = readDout :: [.reset] := rfl

theorem test_firstConflict : tBad.FirstConflict 0x41 0x42 := firstConflict_of_scan (by decide)

/-- A legal START on a table that passes and on one that does not; a table with one code, and one with two
equal codes. -/
theorem test_witness_PrefixFreeOrOneFirstConflict :
    ((machine t3).block.state = .idle ∧ (machine t3).block.outq = [] ∧
      (machine t3).block.PrefixFree) ∧
    ((machine { tBad with state := .done }).block.state = .done ∧
      (machine { tBad with state := .done }).block.outq = [] ∧ tBad.FirstConflict 0x41 0x42) ∧
    (∀ a b, { Block.reset with tabLen := [(0x41, 1)] }.valid a = true →
      { Block.reset with tabLen := [(0x41, 1)] }.valid b = true → a = b) ∧
    ({ Block.reset with tabLen := [(0x10, 1), (0x20, 1)] }.valid 0x10 = true ∧
      { Block.reset with tabLen := [(0x10, 1), (0x20, 1)] }.valid 0x20 = true ∧
      { Block.reset with tabLen := [(0x10, 1), (0x20, 1)] }.code 0x10 =
        { Block.reset with tabLen := [(0x10, 1), (0x20, 1)] }.code 0x20) := by
  refine ⟨⟨rfl, rfl, test_t3_prefixFree⟩, ⟨rfl, rfl, test_firstConflict⟩, ?_, by decide⟩
  have one : ∀ a : Byte, { Block.reset with tabLen := [(0x41, 1)] }.valid a = true → a = 0x41 := by
    decide +kernel
  exact fun a b ha hb => (one a ha).trans (one b hb).symm

theorem test_witness_StartPackOpensAPackJob :
    ((machine t3).block.state = .idle ∧ (machine t3).block.outq = [] ∧
      (machine t3).block.PrefixFree) ∧
    ((machine { done3 with outq := [] }).block.state = .done ∧
      (machine { done3 with outq := [] }).block.outq = []) ∧
    ((machine tBad).block.state = .idle ∧ (machine tBad).block.outq = [] ∧
      (machine tBad).block.FirstConflict 0x41 0x42) ∧
    (machine pack3).block.state = .pack ∧ (machine unpack3).block.state = .unpack ∧
    ((machine done3).block.state = .done ∧ (machine done3).block.outq ≠ []) :=
  ⟨⟨rfl, rfl, test_t3_prefixFree⟩, ⟨rfl, rfl⟩, ⟨rfl, rfl, test_firstConflict⟩, rfl, rfl, rfl,
    by decide⟩

theorem test_witness_StartUnpackOpensAnUnpackJob :
    ((machine tGap).block.state = .idle ∧ (machine tGap).block.outq = [] ∧
      (machine tGap).block.PrefixFree) ∧
    ((machine tBad).block.state = .idle ∧ (machine tBad).block.outq = [] ∧
      (machine tBad).block.FirstConflict 0x41 0x42) ∧
    (machine pack3).block.state = .pack ∧ (machine unpack3).block.state = .unpack ∧
    ((machine done3).block.state = .done ∧ (machine done3).block.outq ≠ []) :=
  ⟨⟨rfl, rfl, test_tGap_prefixFree⟩, ⟨rfl, rfl, test_firstConflict⟩, rfl, rfl, rfl, by decide⟩

theorem test_witness_AbortClearsJobAndError :
    ((0x05000001 : Word).toNat / 2 ^ 24 = 5 ∧ (0x05000001 : Word) ≠ 0x05000000 ∧
      (machine unpack3).block.state ≠ .error) ∧
    (machine failed3).block.state = .error ∧
    ∃ t, step { machine failed3 with pending := [issueCommand .abort] } = .next t ∧
      decide (t.block.state ≠ .error) = true :=
  ⟨by decide, rfl, exists_of_nextIs (by decide +kernel)⟩

theorem test_witness_ClrtabClearsTheTable :
    (machine t3).block.state = .idle ∧ (machine done3).block.state = .done ∧
    (machine failed3).block.state = .error ∧ (machine pack3).block.state = .pack ∧
    (machine unpack3).block.state = .unpack := by decide

/-- A pack job with exactly 32 slots free. -/
def packEdge3 : Block := { pack3 with outq := List.replicate 32 0xFF }

theorem test_inv_packEdge : (machine packEdge3).Inv := inv_of_checks (by decide +kernel)

theorem test_witness_PackPushAppendsTheCode :
    (machine packEdge3).Inv ∧ (machine packEdge3).block.state = .pack ∧
    (machine packEdge3).block.outq.length + 32 ≤ (machine packEdge3).cfg.outqDepth ∧
    (machine packEdge3).block.valid 0x44 = false ∧ (machine packEdge3).block.valid 0x43 = true :=
  ⟨test_inv_packEdge, by decide⟩

theorem test_witness_PackFinishFlushesTheTail :
    ((machine packEdge3).Inv ∧ (machine packEdge3).block.state = .pack ∧
      (machine packEdge3).block.outq.length + 32 ≤ (machine packEdge3).cfg.outqDepth ∧
      (machine packEdge3).block.acc ≠ []) ∧
    ((machine packFull3).Inv ∧ (machine packFull3).block.state = .pack ∧
      (machine packFull3).block.outq.length + 32 ≤ (machine packFull3).cfg.outqDepth ∧
      (machine packFull3).block.acc = [] ∧ (machine packFull3).block.bitcnt ≠ 0) :=
  ⟨⟨test_inv_packEdge, by decide⟩, ⟨test_inv_packFull, by decide⟩⟩

/-- An unpack job that has received no byte. -/
def unpackEmpty3 : Block := { t3 with state := .unpack }

theorem test_inv_unpackEmpty : (machine unpackEmpty3).Inv := inv_of_checks (by decide +kernel)

/-- An unpack job on the table with a gap, with 0xE4 held: its first two bits are no code. -/
def unpackGap : Block := { tGap with state := .unpack, hold := 0xE4, holdv := true }

theorem test_inv_unpackGap : (machine unpackGap).Inv := inv_of_checks (by decide +kernel)

/-- "1" and 0x01 are "100000001": 0x42, six times 0x41, and "1" is left (R163). -/
theorem test_parses_mid :
    unpackMid3.Parses (unpackMid3.cand ++ lowBits 8 unpackMid3.hold.toNat)
      [0x42, 0x41, 0x41, 0x41, 0x41, 0x41, 0x41] [true] :=
  ⟨by unfold Block.AllValid; decide +kernel, by decide +kernel,
    unmatched_of_scan (by decide +kernel), by decide +kernel⟩

/-- 0xE4 is "11100100": the candidate "11" is as long as the longest code, and is none. -/
theorem test_failsAt_gap :
    unpackGap.FailsAt (unpackGap.cand ++ lowBits 8 unpackGap.hold.toNat) [] [true, true]
      [true, false, false, true, false, false] :=
  ⟨by unfold Block.AllValid; decide +kernel, by decide +kernel,
    unmatched_of_scan (by decide +kernel), by decide +kernel⟩

theorem test_witness_UnpackPushFeedsTheHeldByte :
    ((machine unpackEmpty3).Inv ∧ (machine unpackEmpty3).block.state = .unpack ∧
      (machine unpackEmpty3).block.outq.length + 32 ≤ (machine unpackEmpty3).cfg.outqDepth ∧
      (machine unpackEmpty3).block.holdv = false) ∧
    ((machine unpackMid3).Inv ∧ (machine unpackMid3).block.state = .unpack ∧
      (machine unpackMid3).block.holdv = true ∧
      unpackMid3.Parses (unpackMid3.cand ++ lowBits 8 unpackMid3.hold.toNat)
        [0x42, 0x41, 0x41, 0x41, 0x41, 0x41, 0x41] [true]) ∧
    ((machine unpackGap).Inv ∧ (machine unpackGap).block.state = .unpack ∧
      (machine unpackGap).block.holdv = true ∧
      unpackGap.FailsAt (unpackGap.cand ++ lowBits 8 unpackGap.hold.toNat) [] [true, true]
        [true, false, false, true, false, false]) :=
  ⟨⟨test_inv_unpackEmpty, by decide⟩, ⟨test_inv_unpackMid, rfl, rfl, test_parses_mid⟩,
    ⟨test_inv_unpackGap, rfl, rfl, test_failsAt_gap⟩⟩

/-- An EXACT unpack job with 0x16 held, for a given TAIL. -/
def unpackExact3 (t : BitVec 4) : Block := { unpack3 with jobtm := true, tail := t }

/-- 0x16 with TAIL = 6 is "010110", the codes of 0x41 0x42 0x43 0x41 (V-U1). -/
theorem test_parses_exact :
    (unpackExact3 6).Parses ((unpackExact3 6).cand ++ lowBits 6 0x16)
      [0x41, 0x42, 0x43, 0x41] [] :=
  ⟨by unfold Block.AllValid; decide +kernel, by decide +kernel, unmatched_nil _,
    by decide +kernel⟩

/-- "1" and the natural form "1" of 0x01 are the code of 0x43; 0x01 alone leaves "1" (V-U6b). -/
theorem test_parses_compat :
    unpackMid3.Parses (unpackMid3.cand ++ naturalBits unpackMid3.hold) [0x43] [] ∧
    { unpack3 with hold := 0x01 }.Parses
      ({ unpack3 with hold := 0x01 }.cand ++ naturalBits 0x01) [] [true] :=
  ⟨⟨by unfold Block.AllValid; decide +kernel, by decide +kernel, unmatched_nil _,
      by decide +kernel⟩,
    ⟨by unfold Block.AllValid; decide +kernel, by decide +kernel,
      unmatched_of_scan (by decide +kernel), by decide +kernel⟩⟩

/-- 0xE4 in its natural form has all 8 bits, and fails at the first candidate. -/
theorem test_failsAt_compat :
    unpackGap.FailsAt (unpackGap.cand ++ naturalBits unpackGap.hold) [] [true, true]
      [true, false, false, true, false, false] :=
  ⟨by unfold Block.AllValid; decide +kernel, by decide +kernel,
    unmatched_of_scan (by decide +kernel), by decide +kernel⟩

/-- R168 at the ends of its range: TAIL 0 and 9 do not fit 0x16, nor does 4; 5 and 8 do. -/
theorem test_tailFits :
    ¬ TailFits 0 0x16 ∧ ¬ TailFits 9 0x16 ∧ ¬ TailFits 4 0x16 ∧ TailFits 5 0x16 ∧
    TailFits 8 0x16 ∧ TailFits 1 0x01 := by
  unfold TailFits
  decide

theorem test_inv_unpackExact :
    (machine (unpackExact3 6)).Inv ∧ (machine (unpackExact3 9)).Inv :=
  ⟨inv_of_checks (by decide +kernel), inv_of_checks (by decide +kernel)⟩

theorem test_inv_unpackOne : (machine { unpack3 with hold := 0x01 }).Inv :=
  inv_of_checks (by decide +kernel)

theorem test_witness_UnpackFinishFeedsTheFinalByte :
    ((machine unpackEmpty3).Inv ∧ (machine unpackEmpty3).block.state = .unpack ∧
      (machine unpackEmpty3).block.outq.length + 32 ≤ (machine unpackEmpty3).cfg.outqDepth ∧
      (machine unpackEmpty3).block.holdv = false) ∧
    ((machine (unpackExact3 9)).Inv ∧ (unpackExact3 9).holdv = true ∧
      (unpackExact3 9).jobtm = true ∧
      ¬ TailFits (unpackExact3 9).tail.toNat (unpackExact3 9).hold) ∧
    ((machine (unpackExact3 6)).Inv ∧ (unpackExact3 6).holdv = true ∧
      TailFits (unpackExact3 6).tail.toNat (unpackExact3 6).hold ∧
      (unpackExact3 6).Parses ((unpackExact3 6).cand ++ lowBits 6 0x16)
        [0x41, 0x42, 0x43, 0x41] []) ∧
    ((machine { unpack3 with hold := 0x01 }).Inv ∧
      { unpack3 with hold := 0x01 }.jobtm = false ∧
      { unpack3 with hold := 0x01 }.Parses
        ({ unpack3 with hold := 0x01 }.cand ++ naturalBits 0x01) [] [true]) ∧
    ((machine unpackGap).Inv ∧ unpackGap.holdv = true ∧ unpackGap.jobtm = false ∧
      unpackGap.FailsAt (unpackGap.cand ++ naturalBits unpackGap.hold) [] [true, true]
        [true, false, false, true, false, false]) :=
  ⟨⟨test_inv_unpackEmpty, by decide⟩,
    ⟨test_inv_unpackExact.2, rfl, rfl, test_tailFits.2.1⟩,
    ⟨test_inv_unpackExact.1, rfl, by unfold TailFits; decide, test_parses_exact⟩,
    ⟨test_inv_unpackOne, rfl, test_parses_compat.2⟩,
    ⟨test_inv_unpackGap, rfl, rfl, test_failsAt_compat⟩⟩

theorem test_witness_EveryStringParsesOrFailsOnce : t3.PrefixFree ∧ tGap.PrefixFree :=
  ⟨test_t3_prefixFree, test_tGap_prefixFree⟩

theorem test_witness_IllegalInStateRaisesCmdState :
    (machine pack3).block.state = .pack ∧ (machine unpack3).block.state = .unpack ∧
    ((machine done3).block.state = .done ∧ (machine done3).block.outq ≠ []) ∧
    (machine t3).block.state = .idle := by decide

theorem test_witness_NotReadyRaisesOverrun :
    (machine notReady3).block.state = .pack ∧
    (machine notReady3).cfg.outqDepth < (machine notReady3).block.outq.length + 32 := by decide

theorem test_witness_ErrorStateIgnoresCommands :
    (machine failed3).block.state = .error ∧ Command.push 0x42 ≠ .nop ∧
    Command.push 0x42 ≠ .abort ∧ Command.push 0x42 ≠ .clrtab := by decide

/-- One step in ERROR of each kind: a command that is ignored, and ABORT. -/
theorem test_witness_OnlyAbortOrResetLeavesError :
    (machine failed3).block.state = .error ∧
    (∃ t, step { machine failed3 with pending := [issueCommand (.push 0x42)] } = .next t ∧
      decide (t.block = failed3) = true) ∧
    (∃ t, step { machine failed3 with pending := [issueCommand .abort] } = .next t ∧
      decide (t.block = t3) = true) :=
  ⟨rfl, exists_of_nextIs (by decide +kernel), exists_of_nextIs (by decide +kernel)⟩

/-- A step of each move of R128. -/
theorem test_witness_StateMovesOnlyByItsCommand :
    (∃ t, step { machine t3 with pending := [issueCommand .startPack] } = .next t ∧
      decide (t.block.state = .pack) = true) ∧
    (∃ t, step { machine t3 with pending := [issueCommand .startUnpack] } = .next t ∧
      decide (t.block.state = .unpack) = true) ∧
    (∃ t, step { machine pack3 with pending := [issueCommand .finish] } = .next t ∧
      decide (t.block.state = .done) = true) ∧
    (∃ t, step { machine done3 with pending := [issueCommand .abort] } = .next t ∧
      decide (t.block.state = .idle) = true) ∧
    (∃ t, step { machine t3 with pending := [issueCommand .finish] } = .next t ∧
      decide (t.block.state = .error) = true) :=
  ⟨exists_of_nextIs (by decide +kernel), exists_of_nextIs (by decide +kernel),
    exists_of_nextIs (by decide +kernel), exists_of_nextIs (by decide +kernel),
    exists_of_nextIs (by decide +kernel)⟩

theorem test_witness_StatusReadsTheFlags :
    (machine t3).Inv ∧ (machine pack3).Inv ∧ (machine unpack3).Inv ∧ (machine done3).Inv ∧
    (machine failed3).Inv :=
  ⟨test_inv_idle, test_inv_pack, test_inv_unpack, test_inv_done, test_inv_error⟩

theorem test_witness_DbgReadsTheJobState : (machine unpackMid3).Inv := test_inv_unpackMid

theorem test_witness_DoutPopsTheOldestByte :
    (machine t3).block.outq = [] ∧ (machine done3).block.outq = 0x16 :: [] := by decide

theorem test_witness_LenWriteChangesOneEntry :
    ((machine pack3).Inv ∧ (machine pack3).block.state = .pack) ∧
    ((machine unpack3).Inv ∧ (machine unpack3).block.state = .unpack) ∧
    ((machine t3).Inv ∧ (machine t3).block.state ≠ .pack ∧ (machine t3).block.state ≠ .unpack) :=
  ⟨⟨test_inv_pack, rfl⟩, ⟨test_inv_unpack, rfl⟩, ⟨test_inv_idle, by decide⟩⟩

theorem test_witness_BitsWriteChangesOneWord :
    ((machine pack3).Inv ∧ (machine pack3).block.state = .pack) ∧
    ((machine unpack3).Inv ∧ (machine unpack3).block.state = .unpack) ∧
    ((machine failed3).Inv ∧ (machine failed3).block.state ≠ .pack ∧
      (machine failed3).block.state ≠ .unpack ∧
      ∀ i, i < ((machine failed3).block.len 0x41).toNat → i / 32 = (0 : BitVec 3).toNat →
        (0x7FFFFFFF : Word).getLsbD (31 - i % 32) =
          ((machine failed3).block.bits 0x41 0).getLsbD (31 - i % 32)) :=
  ⟨⟨test_inv_pack, rfl⟩, ⟨test_inv_unpack, rfl⟩, ⟨test_inv_error, by decide⟩⟩

theorem test_witness_OnlyDoutReadsHaveASideEffect :
    Listed (.read 0x008) ∧ (0x008 : Addr) ≠ 0x010 ∧
    ∃ t, step { machine unpack3 with pending := [.access (.read 0x008)] } = .next t ∧
      decide (t.replies = [0x0000002A]) = true :=
  ⟨by unfold Listed TableAddr; decide, by decide, exists_of_nextIs (by decide +kernel)⟩

/-- FINISH of a pack job: no write of CTRL, none of TAIL, and no reset; TAIL changes. -/
theorem test_witness_CtrlAndTailChangeOnlyByTheirWrites :
    (∃ t, step { machine pack3 with pending := [issueCommand .finish] } = .next t ∧
      decide (t.block.tail = 2) = true) ∧
    [issueCommand .finish].head? ≠ some .reset ∧
    (∀ v, [issueCommand .finish].head? ≠ some (.access (.write 0x004 v))) ∧
    ∀ v, [issueCommand .finish].head? ≠ some (.access (.write 0x014 v)) :=
  ⟨exists_of_nextIs (by decide +kernel), by decide,
    fun v => by simp [issueCommand, cmdAddr], fun v => by simp [issueCommand, cmdAddr]⟩

/-- A write of LEN[0x41] during a job. -/
theorem test_witness_TableIsFrozenDuringAJob :
    (machine pack3).block.state = .pack ∧
    (∃ t, step { machine pack3 with pending := [.access (.write 0x1104 2)] } = .next t ∧
      decide (t.block.state = .error) = true) ∧
    [Event.access (.write 0x1104 2)].head? ≠ some .reset :=
  ⟨rfl, exists_of_nextIs (by decide +kernel), by decide⟩

theorem test_witness_CommandsKeepCtrlAndTable :
    ∃ t, exec (.ofCommand .abort) (machine failed3) = .next t ∧ decide (t.block = t3) = true :=
  exists_of_nextIs (by decide +kernel)

theorem test_witness_JobsKeepEachOthersState :
    ((machine pack3).block.state = .pack ∧
      ∃ t, exec (.ofCommand .finish) (machine pack3) = .next t ∧
        decide (t.block.state = .done) = true) ∧
    ((machine unpack3).block.state = .unpack ∧
      ∃ t, exec (.ofCommand (.push 0x16)) (machine unpack3) = .next t ∧
        decide (t.block.state = .unpack) = true) :=
  ⟨⟨rfl, exists_of_nextIs (by decide +kernel)⟩, ⟨rfl, exists_of_nextIs (by decide +kernel)⟩⟩

theorem test_witness_PackJobDoesNotReadTheDecoder :
    (machine pack3).block.state = .pack ∧
    ∃ t, exec (.ofCommand (.push 0x43)) (machine pack3) = .next t ∧
      decide (t.block.bitcnt = 4) = true :=
  ⟨rfl, exists_of_nextIs (by decide +kernel)⟩

theorem test_witness_UnpackJobDoesNotReadThePacker :
    (machine (unpackExact3 6)).block.state = .unpack ∧
    (machine (unpackExact3 6)).block.jobtm = true ∧
    ∃ t, exec (.ofCommand .finish) (machine (unpackExact3 6)) = .next t ∧
      decide (t.block.outq = [0x41, 0x42, 0x43, 0x41]) = true :=
  ⟨rfl, rfl, exists_of_nextIs (by decide +kernel)⟩

theorem test_witness_OneCommandAddsAtMost32Bytes :
    ((machine packEdge3).Inv ∧ (machine packEdge3).block.state = .pack ∧
      ∃ t, exec (.ofCommand .finish) (machine packEdge3) = .next t ∧
        decide (t.block.outq.length = 33) = true) ∧
    ((machine unpack3).Inv ∧ (machine unpack3).block.state = .unpack ∧
      ∃ t, exec (.ofCommand .finish) (machine unpack3) = .next t ∧
        decide (t.block.outq.length = 3) = true) ∧
    ((machine t3).Inv ∧ (machine t3).block.state ≠ .pack ∧ (machine t3).block.state ≠ .unpack ∧
      ∃ t, exec (.ofCommand .finish) (machine t3) = .next t ∧
        decide (t.block.state = .error) = true) :=
  ⟨⟨test_inv_packEdge, rfl, exists_of_nextIs (by decide +kernel)⟩,
    ⟨test_inv_unpack, rfl, exists_of_nextIs (by decide +kernel)⟩,
    ⟨test_inv_idle, by decide, by decide, exists_of_nextIs (by decide +kernel)⟩⟩

theorem test_witness_OutqIsFirstInFirstOut :
    ∃ t, step { machine done3 with pending := [readDout] } = .next t ∧
      decide (t.block.outq = [] ∧ t.replies = [0x116]) = true :=
  exists_of_nextIs (by decide +kernel)

theorem test_witness_StepKeepsTheInvariant :
    { machine pack3 with pending := [issueCommand (.push 0x43)] }.Inv ∧
    ∃ t, step { machine pack3 with pending := [issueCommand (.push 0x43)] } = .next t ∧
      decide (t.block.acclen = 4) = true :=
  ⟨⟨test_inv_pack.cfg, test_inv_pack.block⟩, exists_of_nextIs (by decide +kernel)⟩

theorem test_witness_ResetMeetsTheInvariant :
    Config.valid { outqDepth := 32 } = true ∧ Config.valid { outqDepth := 255 } = true := by decide

/-- V-B12 as a trace: the code of 0x42 pushed, nothing emitted yet. -/
theorem test_packTrace : pack3.PackTrace [true, false] [] :=
  ⟨rfl, by decide, by decide, by decide, by decide, by decide⟩

theorem test_witness_PackTraceIsKept :
    ((machine t3).block.state = .idle ∧ ∃ t, exec .startPack (machine t3) = .next t ∧
      decide (t.block.state = .pack) = true) ∧
    (pack3.PackTrace [true, false] [] ∧ ∃ t, exec (.push 0x43) (machine pack3) = .next t ∧
      decide (t.block.state = .pack) = true) ∧
    ((∃ t, step { machine pack3 with pending := [issueCommand .nop] } = .next t ∧
      decide (t.block.state = .pack) = true) ∧
      ∀ d, [issueCommand .nop].head? ≠ some (issueCommand (.push d))) := by
  refine ⟨⟨rfl, exists_of_nextIs (by decide +kernel)⟩,
    ⟨test_packTrace, exists_of_nextIs (by decide +kernel)⟩,
    exists_of_nextIs (by decide +kernel), by decide +kernel⟩

/-- After PUSH 0x16 nothing is fed; after PUSH 0xAB, PUSH 0x16 the four bytes of R165 are emitted. -/
theorem test_unpackTrace :
    unpack3.UnpackTrace [0x16] [] ∧
    { unpack3 with bitcnt := 8, outcnt := 4 }.UnpackTrace [0xAB, 0x16] [0x42, 0x42, 0x42, 0x43] :=
  ⟨⟨rfl, .inr ⟨[], 0x16, rfl, rfl, rfl⟩, by decide, by decide,
      ⟨by unfold Block.AllValid; decide, by decide, unmatched_nil _, by decide +kernel⟩⟩,
    ⟨rfl, .inr ⟨[0xAB], 0x16, rfl, rfl, rfl⟩, by decide, by decide,
      ⟨by unfold Block.AllValid; decide +kernel, by decide +kernel, unmatched_nil _,
        by decide +kernel⟩⟩⟩

theorem test_witness_UnpackTraceIsKept :
    ((machine t3).block.state = .idle ∧ ∃ t, exec .startUnpack (machine t3) = .next t ∧
      decide (t.block.state = .unpack) = true) ∧
    (unpack3.UnpackTrace [0x16] [] ∧ ∃ t, exec (.push 0x43) (machine unpack3) = .next t ∧
      decide (t.block.state = .unpack) = true) ∧
    ((∃ t, step { machine unpack3 with pending := [issueCommand .nop] } = .next t ∧
      decide (t.block.state = .unpack) = true) ∧
      ∀ d, [issueCommand .nop].head? ≠ some (issueCommand (.push d))) := by
  refine ⟨⟨rfl, exists_of_nextIs (by decide +kernel)⟩,
    ⟨test_unpackTrace.1, exists_of_nextIs (by decide +kernel)⟩,
    exists_of_nextIs (by decide +kernel), by decide +kernel⟩

theorem test_witness_LoadcodeLoadsTheCode :
    (machine t3).Inv ∧ (machine t3).block.state ≠ .pack ∧ (machine t3).block.state ≠ .unpack ∧
    codeWellFormed (List.replicate 255 true) = true :=
  ⟨test_inv_idle, by decide, by decide, test_code_bounds_accepted.2⟩

theorem test_witness_WaitrdyEndsAtOnceOrNever :
    (machine packEdge3).block.outq.length + 32 ≤ (machine packEdge3).cfg.outqDepth ∧
    (machine notReady3).cfg.outqDepth < (machine notReady3).block.outq.length + 32 := by decide

theorem test_witness_FinalByteExpansions :
    (1 ≤ [false].length ∧ [false].length ≤ 8 ∧ ([false] : Bits) = [false]) ∧
    (1 ≤ [true].length ∧ ([true] : Bits).head? = some true) ∧
    ((List.replicate 8 false).length ≤ 8 ∧
      ¬ ((List.replicate 8 false).head? = some true ∨ List.replicate 8 false = [false])) := by
  decide

theorem test_ready : (machine t3).ready ∧ (machine tGap).ready :=
  ⟨⟨.inl rfl, rfl, rfl⟩, ⟨.inl rfl, rfl, rfl⟩⟩

theorem test_inv_gap : (machine tGap).Inv := inv_of_checks (by decide +kernel)

/-- START_PACK, PUSH 0x41, FINISH ends DONE. -/
theorem test_witness_PackJobPacksTheStream :
    (machine t3).Inv ∧ (machine t3).ready ∧
    ∃ t, Runs (machine t3) (jobEvents .startPack [.push 0x41]) t ∧
      decide (t.block.state = .done) = true :=
  ⟨test_inv_idle, test_ready.1, exists_of_nextIs (by decide +kernel)⟩

theorem test_allValid : t3.AllValid [0x41, 0x42, 0x43, 0x41] := by
  unfold Block.AllValid
  decide

theorem test_witness_DrainedPackJobEndsDone :
    (machine t3).Inv ∧ (machine t3).ready ∧ (machine t3).block.PrefixFree ∧
    (machine t3).block.AllValid [0x41, 0x42, 0x43, 0x41] :=
  ⟨test_inv_idle, test_ready.1, test_t3_prefixFree, test_allValid⟩

/-- A job that ends DONE, one that raises CORRUPT, and one in EXACT mode whose TAIL fits. -/
theorem test_witness_UnpackJobIsTheSourcesDecoder :
    ((machine t3).Inv ∧ (machine t3).ready ∧ (machine t3).block.PrefixFree ∧
      (machine t3).block.tailmode = false ∧
      ∃ t, Runs (machine t3) (jobEvents .startUnpack [.push 0x16]) t ∧
        decide (t.block.state = .done ∧ t.block.errcode ≠ .overrun) = true) ∧
    ((machine tGap).Inv ∧ (machine tGap).ready ∧ (machine tGap).block.PrefixFree ∧
      ∃ t, Runs (machine tGap) (jobEvents .startUnpack [.push 0xE4]) t ∧
        decide (t.block.errcode = .corrupt) = true) ∧
    ((machine { t3 with tailmode := true, tail := 6 }).Inv ∧
      ∀ p, (pushedBytes [.push 0x16]).getLast? = some p → TailFits 6 p) ∧
    drainedPushes [] = [] ∧ pushedBytes (drainedPushes [0x16]) = [0x16] :=
  ⟨⟨test_inv_idle, test_ready.1, test_t3_prefixFree, rfl,
      exists_of_nextIs (by decide +kernel)⟩,
    ⟨test_inv_gap, test_ready.2, test_tGap_prefixFree, exists_of_nextIs (by decide +kernel)⟩,
    ⟨inv_of_checks (by decide +kernel), by unfold TailFits; decide⟩, by decide⟩

/-- Packing 0x41 leaves TAIL = 1, and an EXACT unpacker with the same table and that TAIL meets the inner
hypotheses. -/
theorem test_witness_ExactRoundTrip :
    (machine t3).Inv ∧ (machine t3).ready ∧ (machine t3).block.PrefixFree ∧
    (machine t3).block.AllValid [0x41] ∧ ((machine t3).block.stream [0x41]).length < 2 ^ 64 ∧
    ∃ t, Runs (machine t3) (jobEvents .startPack (drainedPushes [0x41])) t ∧
      decide (t.block.state = .done ∧
        (machine { t3 with tailmode := true, tail := 1 }).block.tail = t.block.tail) = true ∧
      (machine { t3 with tailmode := true, tail := 1 }).Inv ∧
      (machine { t3 with tailmode := true, tail := 1 }).ready ∧
      t3.SameTable (machine { t3 with tailmode := true, tail := 1 }).block := by
  obtain ⟨t, ht, hd⟩ := exists_of_nextIs
    (o := core.run 35 { machine t3 with pending := jobEvents .startPack (drainedPushes [0x41]) })
    (P := fun t => decide (t.block.state = .done ∧
        (machine { t3 with tailmode := true, tail := 1 }).block.tail = t.block.tail))
    (by decide +kernel)
  exact ⟨test_inv_idle, test_ready.1, test_t3_prefixFree, by unfold Block.AllValid; decide,
    by decide, t, ht, hd, inv_of_checks (by decide +kernel), ⟨.inl rfl, rfl, rfl⟩,
    fun _ => rfl, fun _ _ => rfl⟩

/-- The three cases of the condition of R149: no input, a final chunk "0", and one that begins with 1; and a
final chunk that loses its first bit. -/
theorem test_witness_CompatRoundTripCondition :
    ((machine t3).Inv ∧ (machine t3).ready ∧ (machine t3).block.PrefixFree ∧
      (machine t3).block.AllValid [0x41, 0x42, 0x43, 0x41]) ∧
    (t3.SameTable (machine t3).block ∧ (machine t3).block.tailmode = false) ∧
    (chunks (t3.stream [0x41])).getLast? = some [false] ∧
    (chunks (t3.stream [0x43])).getLast? = some [true, true] ∧
    (chunks (t3.stream [0x41, 0x43])).getLast? = some [false, true, true] :=
  ⟨⟨test_inv_idle, test_ready.1, test_t3_prefixFree, test_allValid⟩,
    ⟨⟨fun _ => rfl, fun _ _ => rfl⟩, rfl⟩, by decide⟩

end Sys2Proof.Tests
end

section
/-!
SUPPORT. What a step does with each event of the host: the access's direction through the decoder, what an
instruction gives back to the host, and the state after reset (spec/00_scope.md R7, R8, R15;
spec/70_reset_and_hazards.md R250, R257).
-/

namespace Sys2Proof

/-! ## The direction of a decoded access -/

/-- How many words an access returns to the host: a read one, a write none (R60). -/
def BusAccess.replyCount (a : BusAccess) : Nat := if a.isWrite then 0 else 1

@[simp] theorem BusAccess.replyCount_read (x : Addr) : (BusAccess.read x).replyCount = 1 := rfl

@[simp] theorem BusAccess.replyCount_write (x : Addr) (v : Word) :
    (BusAccess.write x v).replyCount = 0 := rfl

/-- An access that decodes is covered by a row of R97, which builds its instruction. -/
theorem exists_busRow_of_decodeAccess {a : BusAccess} {i : Instr} (h : decodeAccess a = .ok i) :
    ∃ r ∈ busRows, r.covers a.descriptor = true ∧ i = r.build a.addr a.data := by
  unfold decodeAccess at h
  split at h
  case h_1 r hr =>
    cases h
    exact ⟨r, List.mem_of_find?_eq_some hr, by simpa using List.find?_some hr, rfl⟩
  case h_2 => cases h

/-- WE is bit 16 of the descriptor (R96). -/
theorem BusAccess.descriptor_we (a : BusAccess) : a.descriptor.getLsbD 16 = a.isWrite := by
  simp only [BusAccess.descriptor, BitVec.getLsbD_append]
  cases a.isWrite <;> rfl

/-- Every row of R97 fixes WE, and an access of that direction carries its instruction. -/
theorem busRow_we {r : BusRow} (hr : r ∈ busRows) :
    r.mask.getLsbD 16 = true ∧
      ∀ x v, (encode (r.build x v)).carrier.isWrite = r.pattern.getLsbD 16 := by
  unfold busRows at hr
  fin_cases hr <;> exact ⟨rfl, fun _ _ => rfl⟩

/-- The decoder keeps the direction: a read decodes to an instruction that a read carries. -/
theorem isWrite_of_decodeAccess {a : BusAccess} {i : Instr} (h : decodeAccess a = .ok i) :
    (encode i).carrier.isWrite = a.isWrite := by
  obtain ⟨r, hr, hc, rfl⟩ := exists_busRow_of_decodeAccess h
  obtain ⟨hmask, hbuild⟩ := busRow_we hr
  have hp : a.descriptor &&& r.mask = r.pattern := by simpa [BusRow.covers] using hc
  rw [hbuild, ← hp, BitVec.getLsbD_and, hmask, Bool.and_true, BusAccess.descriptor_we]

end Sys2Proof

namespace Sys2Proof.Machine

/-! ## What an instruction gives back to the host -/

/-- The outcome `o` completes from `s`: the block may have changed, `n` words have gone to the host, and
nothing else of the machine is different. -/
def Answers (n : Nat) (s : State) (o : Host.Outcome State Fault Refusal) : Prop :=
  ∃ (b : Block) (vs : List Word),
    o = .next { s with block := b, replies := s.replies ++ vs } ∧ vs.length = n

theorem answers_reply (s : State) (b : Block) (v : Word) :
    Answers 1 s (.next (State.reply { s with block := b } v)) := ⟨b, [v], rfl, rfl⟩

theorem answers_onBlock (s : State) (f : Block → Flow) : Answers 0 s (.next (s.onBlock f)) :=
  ⟨(f s.block).block, [], by simp [State.onBlock], rfl⟩

theorem answers_execCommand (c : Command) (s : State) : Answers 0 s (execCommand c s) := by
  rw [execCommand_eq]
  exact answers_onBlock s _

theorem answers_execWrCmd (v : Word) (s : State) : Answers 0 s (execWrCmd v s) := by
  rcases execWrCmd_cases v s with ⟨c, -, he⟩ | ⟨-, he⟩ <;> rw [he]
  · exact answers_execCommand c s
  · exact answers_onBlock s _

theorem answers_execRdDout (s : State) : Answers 1 s (execRdDout s) := by
  unfold execRdDout
  split
  · exact answers_reply s s.block 0
  · exact answers_reply s _ _

/-- Every instruction completes, and returns as many words as the access that carries it (R60, R257). -/
theorem answers_exec (i : Instr) (s : State) :
    Answers (encode i).carrier.replyCount s (exec i s) := by
  cases i
  case wrCmd v => exact answers_execWrCmd v s
  case rdDout => exact answers_execRdDout s
  case nop | startPack | startUnpack | push | finish | abort | clrtab
      | wrCtrl | wrTail | wrLen | wrBits =>
    exact answers_onBlock s _
  -- the plain reads
  all_goals exact answers_reply s s.block _

/-- A rejected access completes as well: a read returns one word, a write none (R63). -/
theorem answers_rejectAccess (a : BusAccess) (s : State) :
    Answers a.replyCount s (.next (s.rejectAccess a)) := by
  cases a with
  | read x => exact answers_reply s (busError (.read x) s.block).block 0
  | write x v => exact answers_onBlock s (busError (.write x v))

/-! ## The step, by the host's next event -/

/-- A reset event (R250). -/
theorem step_reset {s : State} {rest : List Event} (hp : s.pending = .reset :: rest) :
    step s = .next { s with block := Block.reset, pending := rest } := by
  simp [step, State.fetch, hp, State.resetBlock]

/-- An access that the decoder rejects (R63). -/
theorem step_rejected {s : State} {a : BusAccess} {e : Reject} {rest : List Event}
    (hp : s.pending = .access a :: rest) (hd : decodeAccess a = .error e) :
    step s = .next (State.rejectAccess a { s with pending := rest }) := by
  simp [step, State.fetch, hp, hd]

/-- Settles O7: the step's own branch for an access that decodes. -/
theorem stepRunsTheDecodedAccess : Obligations.StepRunsTheDecodedAccess := by
  intro s a i rest hp hd
  simp [step, State.fetch, hp, hd]

/-- An access, whether it decodes or is rejected, completes with the words its direction asks for. -/
theorem answers_step_access {s : State} {a : BusAccess} {rest : List Event}
    (hp : s.pending = .access a :: rest) :
    Answers a.replyCount { s with pending := rest } (step s) := by
  cases hd : decodeAccess a with
  | ok i =>
    have hn : (encode i).carrier.replyCount = a.replyCount := by
      simp only [BusAccess.replyCount, isWrite_of_decodeAccess hd]
    rw [stepRunsTheDecodedAccess s a i rest hp hd, ← hn]
    exact answers_exec i _
  | error e =>
    rw [step_rejected hp hd]
    exact answers_rejectAccess a _

/-- Settles O13: a reset by its equation, an access because it answers, decoded or rejected. -/
theorem stepTakesOneEvent : Obligations.StepTakesOneEvent := by
  intro s e rest hp
  cases e with
  | reset => exact ⟨_, step_reset hp, rfl, rfl, [], by simp, rfl⟩
  | access a =>
    obtain ⟨b, vs, hs, hlen⟩ := answers_step_access hp
    refine ⟨_, hs, rfl, rfl, vs, rfl, ?_⟩
    cases a <;> simpa using hlen

/-! ## The state after reset -/

/-- The reset column of R46 meets the block's invariant at every depth: no job is open, and the table, OUTQ
and the decoder are empty. -/
theorem inv_blockReset (cfg : Config) : Block.reset.Inv cfg where
  lenWf := rfl
  bitsWf := rfl
  errcode := by decide
  errClear := by decide
  accRange := by decide
  accIdle := by decide
  candIdle := by decide
  candBound := by decide
  candShort := nofun
  candUnmatched := nofun
  candHeld := nofun
  holdClear := by decide
  tableFree := nofun
  outqBound := Nat.zero_le _
  idleClear := by decide
  packCount := nofun

/-- Settles O49: only OUTQ_DEPTH's own legality depends on the depth. -/
theorem resetMeetsTheInvariant : Obligations.ResetMeetsTheInvariant :=
  ⟨⟨by decide, inv_blockReset _⟩, fun cfg hv => ⟨hv, inv_blockReset cfg⟩⟩

end Sys2Proof.Machine
end

section
/-!
SUPPORT. The register map as arithmetic (spec/10_state.md R22, spec/30_encoding.md R90 to R97): which
descriptors a row covers, that no two rows cover one, and that an encoding is read back in one way only.
-/

namespace Sys2Proof

/-! ## What a row covers, in numbers -/

/-- A masked comparison, cut at bit `k` (R96). -/
theorem land_eq_iff_div_mod (k x m p : Nat) :
    x &&& m = p ↔ x / 2 ^ k &&& m / 2 ^ k = p / 2 ^ k ∧ x % 2 ^ k &&& m % 2 ^ k = p % 2 ^ k := by
  rw [← Nat.and_div_two_pow, ← Nat.and_mod_two_pow]
  constructor
  · rintro rfl
    exact ⟨rfl, rfl⟩
  · rintro ⟨hd, hm⟩
    rw [← Nat.div_add_mod (x &&& m) (2 ^ k), hd, hm, Nat.div_add_mod]

theorem BusRow.covers_iff_toNat {r : BusRow} {bd : Descriptor} :
    r.covers bd = true ↔ bd.toNat &&& r.mask.toNat = r.pattern.toNat := by
  simp [BusRow.covers, ← BitVec.toNat_inj]

/-- A row whose mask is full covers its pattern alone. -/
theorem covers_full {p bd : Descriptor} {f : Addr → Word → Instr} :
    (BusRow.mk p 0x1FFFF f).covers bd = true ↔ bd.toNat = p.toNat := by
  rw [BusRow.covers_iff_toNat, show (0x1FFFF : Descriptor).toNat = 2 ^ 17 - 1 from rfl,
    Nat.and_two_pow_sub_one_eq_mod, Nat.mod_eq_of_lt bd.isLt]

/-- The mask of LEN keeps bits 16..10 and 1..0 (R97). -/
theorem covers_lenMask {p bd : Descriptor} {f : Addr → Word → Instr} :
    (BusRow.mk p 0x1FC03 f).covers bd = true ↔
      bd.toNat / 1024 = p.toNat / 1024 ∧ bd.toNat % 4 = p.toNat % 1024 := by
  have hlt := bd.isLt
  rw [BusRow.covers_iff_toNat, land_eq_iff_div_mod 10,
    show (0x1FC03 : Descriptor).toNat / 2 ^ 10 = 2 ^ 7 - 1 from rfl,
    show (0x1FC03 : Descriptor).toNat % 2 ^ 10 = 2 ^ 2 - 1 from rfl,
    Nat.and_two_pow_sub_one_eq_mod, Nat.and_two_pow_sub_one_eq_mod]
  dsimp only
  omega

/-- The mask of BITS keeps bits 16..13 and 1..0 (R97). -/
theorem covers_bitsMask {p bd : Descriptor} {f : Addr → Word → Instr} :
    (BusRow.mk p 0x1E003 f).covers bd = true ↔
      bd.toNat / 8192 = p.toNat / 8192 ∧ bd.toNat % 4 = p.toNat % 8192 := by
  have hlt := bd.isLt
  rw [BusRow.covers_iff_toNat, land_eq_iff_div_mod 13,
    show (0x1E003 : Descriptor).toNat / 2 ^ 13 = 2 ^ 4 - 1 from rfl,
    show (0x1E003 : Descriptor).toNat % 2 ^ 13 = 2 ^ 2 - 1 from rfl,
    Nat.and_two_pow_sub_one_eq_mod, Nat.and_two_pow_sub_one_eq_mod]
  dsimp only
  omega

@[simp] theorem descriptor_read_toNat (x : Addr) :
    (BusAccess.read x).descriptor.toNat = x.toNat := by
  simp only [BusAccess.descriptor, BusAccess.isWrite, BusAccess.addr, BitVec.toNat_append]
  rw [← Nat.shiftLeft_add_eq_or_of_lt x.isLt]
  simp

@[simp] theorem descriptor_write_toNat (x : Addr) (v : Word) :
    (BusAccess.write x v).descriptor.toNat = 0x10000 + x.toNat := by
  have := x.isLt
  simp only [BusAccess.descriptor, BusAccess.isWrite, BusAccess.addr, BitVec.toNat_append]
  rw [← Nat.shiftLeft_add_eq_or_of_lt x.isLt]
  rfl

/-! ## Which rows answer -/

/-- An access decodes exactly when some row covers it. -/
theorem decodes_iff_covered (a : BusAccess) :
    (∃ i, decodeAccess a = .ok i) ↔ ∃ r ∈ busRows, r.covers a.descriptor = true := by
  constructor
  · rintro ⟨i, h⟩
    obtain ⟨r, hr, hc, -⟩ := exists_busRow_of_decodeAccess h
    exact ⟨r, hr, hc⟩
  · rintro ⟨r, hr, hc⟩
    unfold decodeAccess
    cases hf : busRows.find? (fun r => r.covers a.descriptor) with
    | some r' => exact ⟨_, rfl⟩
    | none => exact absurd hc (by simpa using List.find?_eq_none.mp hf r hr)

/-- Two rows differ on a bit that both masks keep. -/
theorem busRows_disjoint :
    busRows.Pairwise fun r r' => r.pattern &&& r'.mask ≠ r'.pattern &&& r.mask := by
  unfold busRows
  decide

/-- Two rows that cover one descriptor are the same row. -/
theorem busRow_unique {r r' : BusRow} (hr : r ∈ busRows) (hr' : r' ∈ busRows) {bd : Descriptor}
    (hc : r.covers bd = true) (hc' : r'.covers bd = true) : r = r' := by
  have hsymm : Std.Symm fun r r' : BusRow => r.pattern &&& r'.mask ≠ r'.pattern &&& r.mask :=
    ⟨fun _ _ h => h.symm⟩
  by_contra hne
  refine busRows_disjoint.forall hr hr' hne ?_
  simp only [BusRow.covers, beq_iff_eq] at hc hc'
  rw [← hc, ← hc', BitVec.and_assoc, BitVec.and_assoc, BitVec.and_comm r.mask]

/-- No access is covered by two rows, so a row that covers it gives its instruction. -/
theorem decodeAccess_of_covers {a : BusAccess} {r : BusRow} (hr : r ∈ busRows)
    (hc : r.covers a.descriptor = true) : decodeAccess a = .ok (r.build a.addr a.data) := by
  obtain ⟨i, hi⟩ := (decodes_iff_covered a).mpr ⟨r, hr, hc⟩
  obtain ⟨r', hr', hc', rfl⟩ := exists_busRow_of_decodeAccess hi
  rw [hi, busRow_unique hr hr' hc hc']

/-- Settles O3: the twenty rows, in numbers, are the register map. -/
theorem accessDecodesExactlyWhenListed : Obligations.AccessDecodesExactlyWhenListed := by
  intro a
  rw [decodes_iff_covered]
  simp only [busRows, List.exists_mem_cons_iff, List.not_mem_nil, false_and, exists_false, or_false,
    covers_full, covers_lenMask, covers_bitsMask]
  cases a with
  | read x =>
    have := x.isLt
    simp only [descriptor_read_toNat, BitVec.ofNat_eq_ofNat, BitVec.toNat_ofNat, Machine.Listed,
      Machine.TableAddr]
    omega
  | write x v =>
    have := x.isLt
    simp only [descriptor_write_toNat, BitVec.ofNat_eq_ofNat, BitVec.toNat_ofNat, Machine.Listed,
      Machine.TableAddr]
    omega

/-! ## The addresses of the table -/

theorem lenAddr_toNat (b : Byte) : (lenAddr b).toNat = 0x1000 + 4 * b.toNat := by
  have := b.isLt
  simp only [lenAddr, BitVec.toNat_append, BitVec.ofNat_eq_ofNat, BitVec.toNat_ofNat]
  rw [← Nat.shiftLeft_add_eq_or_of_lt b.isLt, ← Nat.shiftLeft_add_eq_or_of_lt (by decide)]
  omega

theorem bitsAddr_toNat (b : Byte) (w : BitVec 3) :
    (bitsAddr b w).toNat = 0x2000 + 32 * b.toNat + 4 * w.toNat := by
  have := b.isLt
  have := w.isLt
  simp only [bitsAddr, BitVec.toNat_append, BitVec.ofNat_eq_ofNat, BitVec.toNat_ofNat]
  rw [← Nat.shiftLeft_add_eq_or_of_lt b.isLt, ← Nat.shiftLeft_add_eq_or_of_lt w.isLt,
    ← Nat.shiftLeft_add_eq_or_of_lt (by decide)]
  omega

theorem lenIndex_toNat (x : Addr) : (lenIndex x).toNat = x.toNat / 4 % 256 := by
  simp [lenIndex, BitVec.extractLsb'_toNat, Nat.shiftRight_eq_div_pow]

theorem bitsIndex_toNat (x : Addr) : (bitsIndex x).toNat = x.toNat / 32 % 256 := by
  simp [bitsIndex, BitVec.extractLsb'_toNat, Nat.shiftRight_eq_div_pow]

theorem bitsWordIndex_toNat (x : Addr) : (bitsWordIndex x).toNat = x.toNat / 4 % 8 := by
  simp [bitsWordIndex, BitVec.extractLsb'_toNat, Nat.shiftRight_eq_div_pow]

theorem lenIndex_lenAddr (b : Byte) : lenIndex (lenAddr b) = b := by
  apply BitVec.eq_of_toNat_eq
  have := b.isLt
  rw [lenIndex_toNat, lenAddr_toNat]
  omega

theorem bitsIndex_bitsAddr (b : Byte) (w : BitVec 3) : bitsIndex (bitsAddr b w) = b := by
  apply BitVec.eq_of_toNat_eq
  have := b.isLt
  have := w.isLt
  rw [bitsIndex_toNat, bitsAddr_toNat]
  omega

theorem bitsWordIndex_bitsAddr (b : Byte) (w : BitVec 3) : bitsWordIndex (bitsAddr b w) = w := by
  apply BitVec.eq_of_toNat_eq
  have := w.isLt
  rw [bitsWordIndex_toNat, bitsAddr_toNat]
  omega

/-- The address of LEN[b] in numbers (R22). -/
theorem ofNat_lenAddr (b : Byte) : BitVec.ofNat 16 (0x1000 + 4 * b.toNat) = lenAddr b := by
  rw [← lenAddr_toNat, BitVec.ofNat_toNat, BitVec.setWidth_eq]

/-- The address of BITS[b][w] in numbers (R22). -/
theorem ofNat_bitsAddr (b : Byte) (w : BitVec 3) :
    BitVec.ofNat 16 (0x2000 + 32 * b.toNat + 4 * w.toNat) = bitsAddr b w := by
  rw [← bitsAddr_toNat, BitVec.ofNat_toNat, BitVec.setWidth_eq]

theorem decodeAccess_read_lenAddr (b : Byte) : decodeAccess (.read (lenAddr b)) = .ok (.rdLen b) := by
  have hlt := b.isLt
  rw [decodeAccess_of_covers (r := ⟨0x01000, 0x1FC03, fun a _ => .rdLen (lenIndex a)⟩)
    (by simp [busRows]) (by rw [covers_lenMask, descriptor_read_toNat, lenAddr_toNat]; simp; omega)]
  exact congrArg (fun b => Except.ok (Instr.rdLen b)) (lenIndex_lenAddr b)

theorem decodeAccess_write_lenAddr (b : Byte) (v : Word) :
    decodeAccess (.write (lenAddr b) v) = .ok (.wrLen b v) := by
  have hlt := b.isLt
  rw [decodeAccess_of_covers (r := ⟨0x11000, 0x1FC03, fun a v => .wrLen (lenIndex a) v⟩)
    (by simp [busRows]) (by rw [covers_lenMask, descriptor_write_toNat, lenAddr_toNat]; simp; omega)]
  exact congrArg (fun b => Except.ok (Instr.wrLen b v)) (lenIndex_lenAddr b)

theorem decodeAccess_read_bitsAddr (b : Byte) (w : BitVec 3) :
    decodeAccess (.read (bitsAddr b w)) = .ok (.rdBits b w) := by
  have hlt := b.isLt
  have hw := w.isLt
  rw [decodeAccess_of_covers
    (r := ⟨0x02000, 0x1E003, fun a _ => .rdBits (bitsIndex a) (bitsWordIndex a)⟩)
    (by simp [busRows]) (by rw [covers_bitsMask, descriptor_read_toNat, bitsAddr_toNat]; simp; omega)]
  exact congrArg₂ (fun b w => Except.ok (Instr.rdBits b w)) (bitsIndex_bitsAddr b w)
    (bitsWordIndex_bitsAddr b w)

theorem decodeAccess_write_bitsAddr (b : Byte) (w : BitVec 3) (v : Word) :
    decodeAccess (.write (bitsAddr b w) v) = .ok (.wrBits b w v) := by
  have hlt := b.isLt
  have hw := w.isLt
  rw [decodeAccess_of_covers
    (r := ⟨0x12000, 0x1E003, fun a v => .wrBits (bitsIndex a) (bitsWordIndex a) v⟩)
    (by simp [busRows]) (by rw [covers_bitsMask, descriptor_write_toNat, bitsAddr_toNat]; simp; omega)]
  exact congrArg₂ (fun b w => Except.ok (Instr.wrBits b w v)) (bitsIndex_bitsAddr b w)
    (bitsWordIndex_bitsAddr b w)

theorem decodeAccess_write_ctrl (v : Word) : decodeAccess (.write 0x004 v) = .ok (.wrCtrl v) :=
  decodeAccess_of_covers (r := ⟨0x10004, 0x1FFFF, fun _ v => .wrCtrl v⟩) (by simp [busRows])
    (by rw [covers_full, descriptor_write_toNat]; rfl)

theorem decodeAccess_write_cmd (v : Word) : decodeAccess (.write 0x00C v) = .ok (.wrCmd v) :=
  decodeAccess_of_covers (r := ⟨0x1000C, 0x1FFFF, fun _ v => .wrCmd v⟩) (by simp [busRows])
    (by rw [covers_full, descriptor_write_toNat]; rfl)

theorem decodeAccess_write_tail (v : Word) : decodeAccess (.write 0x014 v) = .ok (.wrTail v) :=
  decodeAccess_of_covers (r := ⟨0x10014, 0x1FFFF, fun _ v => .wrTail v⟩) (by simp [busRows])
    (by rw [covers_full, descriptor_write_toNat]; rfl)

/-- Settles O4: the reads of plain registers by computation, the writes and the table by their rows. -/
theorem registerMapByAddress : Obligations.RegisterMapByAddress := by
  intro b w v
  rw [ofNat_lenAddr, ofNat_bitsAddr]
  exact ⟨rfl, rfl, decodeAccess_write_ctrl v, rfl, decodeAccess_write_cmd v, rfl, rfl,
    decodeAccess_write_tail v, rfl, rfl, rfl, rfl, rfl, rfl, rfl, rfl,
    decodeAccess_read_lenAddr b, decodeAccess_write_lenAddr b v, decodeAccess_read_bitsAddr b w,
    decodeAccess_write_bitsAddr b w v⟩

/-! ## Reading an encoding back -/

theorem lenAddr_lenIndex {x : Addr} (h : x.toNat / 1024 = 4) (h4 : x.toNat % 4 = 0) :
    lenAddr (lenIndex x) = x := by
  apply BitVec.eq_of_toNat_eq
  rw [lenAddr_toNat, lenIndex_toNat]
  omega

theorem bitsAddr_bitsIndex {x : Addr} (h : x.toNat / 8192 = 1) (h4 : x.toNat % 4 = 0) :
    bitsAddr (bitsIndex x) (bitsWordIndex x) = x := by
  apply BitVec.eq_of_toNat_eq
  rw [bitsAddr_toNat, bitsIndex_toNat, bitsWordIndex_toNat]
  omega

/-- A descriptor gives the access back, but for the word a write carries (R96). -/
theorem access_of_descriptor (a : BusAccess) :
    a = if a.descriptor.getLsbD 16 then .write (a.descriptor.setWidth 16) a.data
      else .read (a.descriptor.setWidth 16) := by
  rw [BusAccess.descriptor_we]
  have haddr : a.descriptor.setWidth 16 = a.addr := BitVec.setWidth_append_eq_right ..
  rw [haddr]
  cases a <;> rfl

/-- The sixteen plain registers: the row's pattern is the descriptor of the access that carries what the
row builds. -/
theorem encode_build_plain {r : BusRow} (hr : r ∈ busRows.take 16) (x : Addr) (v : Word) :
    r.mask = 0x1FFFF ∧ encode (r.build x v) = .access (if r.pattern.getLsbD 16 then
      .write (r.pattern.setWidth 16) v else .read (r.pattern.setWidth 16)) := by
  unfold busRows at hr
  fin_cases hr <;> exact ⟨rfl, rfl⟩

/-- The four rows of the table: the address built from the indices is the address they were read from. -/
theorem encode_build_table {r : BusRow} (hr : r ∈ busRows.drop 16) {a : BusAccess}
    (hc : r.covers a.descriptor = true) : encode (r.build a.addr a.data) = .access a := by
  simp only [busRows, List.drop_succ_cons, List.drop_zero, List.mem_cons, List.not_mem_nil,
    or_false] at hr
  rcases hr with rfl | rfl | rfl | rfl
  all_goals
    simp only [covers_lenMask, covers_bitsMask] at hc
    simp only [BitVec.ofNat_eq_ofNat, BitVec.toNat_ofNat] at hc
  · cases a with
    | read x =>
      rw [descriptor_read_toNat] at hc
      exact congrArg (fun x => Raw.access (.read x)) (lenAddr_lenIndex (x := x) (by omega) (by omega))
    | write x v => rw [descriptor_write_toNat] at hc; omega
  · cases a with
    | read x => have := x.isLt; rw [descriptor_read_toNat] at hc; omega
    | write x v =>
      rw [descriptor_write_toNat] at hc
      exact congrArg (fun x => Raw.access (.write x v)) (lenAddr_lenIndex (x := x) (by omega) (by omega))
  · cases a with
    | read x =>
      rw [descriptor_read_toNat] at hc
      exact congrArg (fun x => Raw.access (.read x)) (bitsAddr_bitsIndex (x := x) (by omega) (by omega))
    | write x v => rw [descriptor_write_toNat] at hc; omega
  · cases a with
    | read x => have := x.isLt; rw [descriptor_read_toNat] at hc; omega
    | write x v =>
      rw [descriptor_write_toNat] at hc
      exact congrArg (fun x => Raw.access (.write x v)) (bitsAddr_bitsIndex (x := x) (by omega) (by omega))

/-- An access that decodes is the encoding of what it decodes to. -/
theorem encode_of_decodeAccess {a : BusAccess} {i : Instr} (h : decodeAccess a = .ok i) :
    encode i = .access a := by
  obtain ⟨r, hr, hc, rfl⟩ := exists_busRow_of_decodeAccess h
  rw [← List.take_append_drop 16 busRows, List.mem_append] at hr
  rcases hr with hr | hr
  · obtain ⟨hm, he⟩ := encode_build_plain hr a.addr a.data
    have hd : a.descriptor = r.pattern := by
      rw [← BitVec.toNat_inj]
      obtain ⟨p, m, f⟩ := r
      obtain rfl : m = 0x1FFFF := hm
      exact covers_full.mp hc
    rw [he, ← hd, ← access_of_descriptor]
  · exact encode_build_table hr hc

/-- A command word is its three fields (R91). -/
theorem word_eq_fields (w : Word) : w = opc w ++ rsv w ++ cmdData w := by
  apply BitVec.eq_of_getLsbD_eq
  intro i hi
  simp only [opc, rsv, cmdData, BitVec.getLsbD_append, BitVec.getLsbD_extractLsb']
  by_cases h8 : i < 8
  · simp [h8]
  · by_cases h24 : i - 8 < 16
    · simp [h8, h24, show 8 + (i - 8) = i by omega]
    · simp [h8, h24, show 24 + (i - 8 - 16) = i by omega, show i - 8 - 16 < 8 by omega]

/-- A command word that decodes is the word of its command (R92, R95). -/
theorem encodeCommand_of_decodeCommand {w : Word} {c : Command} (h : decodeCommand w = .ok c) :
    encodeCommand c = w := by
  rw [word_eq_fields w]
  unfold decodeCommand at h
  split at h
  case isTrue => cases h
  case isFalse hr =>
    rw [not_not.mp hr]
    split at h
    case isTrue hp => cases h; rw [hp]; rfl
    case isFalse =>
      split at h
      case isTrue => cases h
      case isFalse hd =>
        rw [not_not.mp hd]
        repeat' split at h
        all_goals cases h
        all_goals simp only [*]; rfl

end Sys2Proof
end

section
/-!
SUPPORT. What a step does to the block, said once for each kind of event, and the statements that follow from
it (spec/20_memory.md R60 to R70; spec/40_control.md R121 to R128; spec/60_exceptions.md R225 to R230).
-/

namespace Sys2Proof.Machine

/-! ## The effect of an event on the block -/

/-- What an event does to the block `s` of a machine with the parameter `cfg`: the block after it. `pop` is a
read of DOUT that finds a byte, `read` every other read that the map lists (R69). -/
inductive Effect (cfg : Config) (s : Block) : Event → Block → Prop
  | reset : Effect cfg s .reset Block.reset
  | command (c : Command) :
    Effect cfg s (.access (.write 0x00C (encodeCommand c))) (execute c (ruleOf c) cfg s).block
  | illegal (w : Word) : Effect cfg s (.access (.write 0x00C w)) (executeIllegal w s).block
  | ctrl (v : Word) : Effect cfg s (.access (.write 0x004 v)) (s.setCtrl v)
  | tail (v : Word) : Effect cfg s (.access (.write 0x014 v)) (s.setTail v)
  | len (b : Byte) (v : Word) : Effect cfg s (.access (.write (lenAddr b) v))
      (tableWrite (lenAddr b) (·.setLen b (v.extractLsb' 0 8)) s).block
  | bits (b : Byte) (w : BitVec 3) (v : Word) : Effect cfg s (.access (.write (bitsAddr b w) v))
      (tableWrite (bitsAddr b w) (·.setBits b w v) s).block
  | pop (x : Byte) (rest : List Byte) (h : s.outq = x :: rest) :
    Effect cfg s (.access (.read 0x010)) { s with outq := rest }
  | read (a : Addr) : Effect cfg s (.access (.read a)) s
  | rejected (a : BusAccess) (e : Reject) (h : decodeAccess a = .error e) :
    Effect cfg s (.access a) (busError a s).block

/-- The effect of a write of CMD: the command's own, or that of an illegal word (R194). -/
theorem effect_wrCmd {v : Word} {s t : State} (h : execWrCmd v s = .next t) :
    Effect s.cfg s.block (.access (.write 0x00C v)) t.block := by
  rcases execWrCmd_cases v s with ⟨c, hd, he⟩ | ⟨-, he⟩
  · rw [he, execCommand_eq] at h
    cases h
    rw [← encodeCommand_of_decodeCommand hd]
    exact .command c
  · rw [he] at h
    cases h
    exact .illegal v

/-- The effect of a read of DOUT: the pop of the head, or nothing (R195). -/
theorem effect_rdDout {s t : State} (h : execRdDout s = .next t) :
    Effect s.cfg s.block (.access (.read 0x010)) t.block := by
  unfold execRdDout at h
  split at h
  case h_1 => cases h; exact .read _
  case h_2 x rest hq => cases h; exact .pop x rest hq

/-- The effect of an instruction that an access carries. -/
theorem effect_of_exec {a : BusAccess} {i : Instr} {s t : State} (he : encode i = .access a)
    (h : exec i s = .next t) : Effect s.cfg s.block (.access a) t.block := by
  cases i
  case nop | startPack | startUnpack | push | finish | abort | clrtab => cases he
  all_goals obtain rfl := Raw.access.inj he
  case wrCmd v => exact effect_wrCmd h
  case rdDout => exact effect_rdDout h
  all_goals cases h
  case wrCtrl v => exact .ctrl v
  case wrTail v => exact .tail v
  case wrLen b v => exact .len b v
  case wrBits b w v => exact .bits b w v
  -- the plain reads
  all_goals exact .read _

/-- A step takes the host's first event, and has that event's effect on the block. -/
theorem effect_of_step {s t : State} (h : step s = .next t) :
    ∃ e, s.pending.head? = some e ∧ t.cfg = s.cfg ∧ Effect s.cfg s.block e t.block := by
  rcases step_cases h with ⟨rest, hp, rfl⟩ | ⟨a, i, rest, hp, hd, he⟩ | ⟨a, e, rest, hp, hd, rfl⟩
  · exact ⟨.reset, by rw [hp]; rfl, rfl, .reset⟩
  · obtain ⟨b, vs, ho, -⟩ := answers_exec i { s with pending := rest }
    have hcfg : t.cfg = s.cfg := by rw [ho] at he; cases he; rfl
    exact ⟨.access a, by rw [hp]; rfl, hcfg,
      effect_of_exec (s := { s with pending := rest }) (encode_of_decodeAccess hd) he⟩
  · refine ⟨.access a, by rw [hp]; rfl, ?_, ?_⟩
    · cases a <;> rfl
    · have hb : (State.rejectAccess a { s with pending := rest }).block = (busError a s.block).block := by
        cases a <;> rfl
      rw [hb]
      exact .rejected a e hd

/-! ## In ERROR -/

/-- What ERROR freezes: the first error and the state of the job (R226). -/
structure SameJob (s t : Block) : Prop where
  state : t.state = s.state
  errcode : t.errcode = s.errcode
  errinfo : t.errinfo = s.errinfo
  errpos : t.errpos = s.errpos
  bitcnt : t.bitcnt = s.bitcnt
  outcnt : t.outcnt = s.outcnt
  accbits : t.accbits = s.accbits
  acclen : t.acclen = s.acclen
  cand : t.cand = s.cand
  hold : t.hold = s.hold
  holdv : t.holdv = s.holdv
  jobtm : t.jobtm = s.jobtm

theorem SameJob.refl (s : Block) : SameJob s s :=
  ⟨rfl, rfl, rfl, rfl, rfl, rfl, rfl, rfl, rfl, rfl, rfl, rfl⟩

/-- In ERROR, a command is ABORT or leaves the job as it is (R226, R228). -/
theorem execute_in_error (c : Command) (cfg : Config) {s : Block} (h : s.state = .error) :
    (c = .abort ∧ (execute c (ruleOf c) cfg s).block = abort s) ∨
      SameJob s (execute c (ruleOf c) cfg s).block := by
  have hrun : ∀ c, runsInError c = true → execute c (ruleOf c) cfg s = ruleOf c s := by
    intro c hc
    simp [execute, h, hc]
  have hskip : ∀ c, runsInError c = false → execute c (ruleOf c) cfg s = .ended s := by
    intro c hc
    simp [execute, h, hc]
  cases c
  case abort => exact .inl ⟨rfl, by rw [hrun .abort rfl]; rfl⟩
  case nop => rw [hrun .nop rfl]; exact .inr (.refl s)
  case clrtab =>
    rw [hrun .clrtab rfl]
    exact .inr ⟨rfl, rfl, rfl, rfl, rfl, rfl, rfl, rfl, rfl, rfl, rfl, rfl⟩
  all_goals exact .inr (by rw [hskip _ rfl]; exact .refl s)

/-- In ERROR, an event is reset or the ABORT word, or it leaves the job as it is. -/
theorem Effect.in_error {cfg : Config} {s t : Block} {e : Event} (h : Effect cfg s e t)
    (hs : s.state = .error) :
    (t.state = .idle ∧ (e = .reset ∨ e = .access (.write 0x00C 0x05000000))) ∨ SameJob s t := by
  have hna : s.active = false := by simp [Block.active, hs]
  cases h with
  | reset => exact .inl ⟨rfl, .inl rfl⟩
  | command c =>
    rcases execute_in_error c cfg hs with ⟨rfl, he⟩ | he
    · exact .inl ⟨by rw [he]; rfl, .inr rfl⟩
    · exact .inr he
  | illegal w => rw [executeIllegal, if_pos hs]; exact .inr (.refl s)
  | rejected a _ _ => rw [busError, if_pos hs]; exact .inr (.refl s)
  | read a => exact .inr (.refl s)
  | len b v =>
    simp only [tableWrite, hna]
    exact .inr ⟨rfl, rfl, rfl, rfl, rfl, rfl, rfl, rfl, rfl, rfl, rfl, rfl⟩
  | bits b w v =>
    simp only [tableWrite, hna]
    exact .inr ⟨rfl, rfl, rfl, rfl, rfl, rfl, rfl, rfl, rfl, rfl, rfl, rfl⟩
  | ctrl v | tail v | pop x rest h =>
    exact .inr ⟨rfl, rfl, rfl, rfl, rfl, rfl, rfl, rfl, rfl, rfl, rfl, rfl⟩

/-- Settles O28: the two events that leave ERROR, and what every other one keeps. -/
theorem onlyAbortOrResetLeavesError : Obligations.OnlyAbortOrResetLeavesError := by
  intro s t hs h
  obtain ⟨e, hp, -, he⟩ := effect_of_step h
  rcases he.in_error hs with ⟨hi, rfl | rfl⟩ | hk
  · exact .inl ⟨hi, .inl hp⟩
  · exact .inl ⟨hi, .inr hp⟩
  · exact .inr ⟨hk.state.trans hs, hk.errcode, hk.errinfo, hk.errpos, hk.bitcnt, hk.outcnt, hk.accbits,
      hk.acclen, hk.cand, hk.hold, hk.holdv, hk.jobtm⟩

/-! ## What the jobs leave unchanged -/

/-- From `s` to `t` at most `n` bytes went to OUTQ, and CTRL and TAIL are as before. -/
structure Appends (n : Nat) (s t : Block) : Prop where
  tailmode : t.tailmode = s.tailmode
  ieErr : t.ieErr = s.ieErr
  ieDone : t.ieDone = s.ieDone
  ieOut : t.ieOut = s.ieOut
  tail : t.tail = s.tail
  outq : ∃ new, t.outq = s.outq ++ new ∧ new.length ≤ n

/-- Two blocks with one OUTQ, CTRL and TAIL. -/
theorem appends_of_outq_eq {s t : Block} (n : Nat) (hm : t.tailmode = s.tailmode)
    (he : t.ieErr = s.ieErr) (hd : t.ieDone = s.ieDone) (ho : t.ieOut = s.ieOut)
    (ht : t.tail = s.tail) (hq : t.outq = s.outq) : Appends n s t :=
  ⟨hm, he, hd, ho, ht, [], by simp [hq], Nat.zero_le n⟩

theorem Appends.refl (n : Nat) (s : Block) : Appends n s s :=
  appends_of_outq_eq n rfl rfl rfl rfl rfl rfl

theorem Appends.trans {n m : Nat} {s t u : Block} (h : Appends n s t) (h' : Appends m t u) :
    Appends (n + m) s u where
  tailmode := h'.tailmode.trans h.tailmode
  ieErr := h'.ieErr.trans h.ieErr
  ieDone := h'.ieDone.trans h.ieDone
  ieOut := h'.ieOut.trans h.ieOut
  tail := h'.tail.trans h.tail
  outq := by
    obtain ⟨new, hq, hn⟩ := h.outq
    obtain ⟨new', hq', hn'⟩ := h'.outq
    exact ⟨new ++ new', by rw [hq', hq, List.append_assoc], by rw [List.length_append]; omega⟩

theorem Appends.mono {n m : Nat} {s t : Block} (h : Appends n s t) (hnm : n ≤ m) :
    Appends m s t := by
  obtain ⟨new, hq, hn⟩ := h.outq
  exact { h with outq := ⟨new, hq, hn.trans hnm⟩ }

theorem appends_raise (n : Nat) (e : ErrCode) (i : Word) (p : BitVec 64) (s : Block) :
    Appends n s (raise e i p s).block := appends_of_outq_eq n rfl rfl rfl rfl rfl rfl

/-- An access in two parts, the second of which runs only when no raise ended the first. -/
theorem Appends.andThen {n m : Nat} {s : Block} {x : Flow} {f : Block → Flow}
    (hx : Appends n s x.block) (hf : ∀ t, Appends m t (f t).block) :
    Appends (n + m) s (x.andThen f).block := by
  rcases Flow.andThen_cases x f with ⟨t, rfl, he⟩ | ⟨t, rfl, he⟩ <;> rw [he]
  · exact hx.trans (hf t)
  · exact hx.mono (Nat.le_add_right n m)

/-! ### Packing -/

theorem appends_appendBit (x : Bool) (s : Block) : Appends 1 s (appendBit x s) := by
  unfold appendBit
  dsimp only
  split
  · exact ⟨rfl, rfl, rfl, rfl, rfl, [_], rfl, Nat.le_refl 1⟩
  · exact appends_of_outq_eq 1 rfl rfl rfl rfl rfl rfl

theorem appends_appendBits (c : Bits) (s : Block) : Appends c.length s (appendBits c s) := by
  induction c generalizing s with
  | nil => exact .refl 0 s
  | cons x c ih =>
    rw [List.length_cons, Nat.add_comm]
    exact (appends_appendBit x s).trans (ih _)

theorem appends_packPush (d : Byte) (s : Block) :
    Appends (s.code d).length s (packPush d s).block := by
  unfold packPush
  split
  · exact appends_appendBits _ s
  · exact appends_raise _ ..

/-- FINISH of a pack job changes TAIL, and otherwise only flushes the held bits (R145). -/
theorem appends_packFinish (s : Block) :
    Appends 1 { s with tail := (packFinish s).block.tail } (packFinish s).block := by
  unfold packFinish
  dsimp only [Flow.block]
  split
  · exact ⟨rfl, rfl, rfl, rfl, rfl, [_], rfl, Nat.le_refl 1⟩
  · split <;> exact appends_of_outq_eq 1 rfl rfl rfl rfl rfl rfl

/-! ### Unpacking -/

/-- A fed bit completes at most one code. -/
theorem appends_feedBit (x : Bool) (s : Block) : Appends 1 s (feedBit x s).block := by
  rcases feedBit_cases x s with ⟨b, -, -, he⟩ | ⟨-, -, he⟩ | ⟨-, -, he⟩ <;> rw [he]
  · exact ⟨rfl, rfl, rfl, rfl, rfl, [b], rfl, Nat.le_refl 1⟩
  · exact appends_of_outq_eq 1 rfl rfl rfl rfl rfl rfl
  · exact appends_of_outq_eq 1 rfl rfl rfl rfl rfl rfl

theorem appends_feedBits (c : Bits) (s : Block) : Appends c.length s (feedBits c s).block := by
  induction c generalizing s with
  | nil => exact .refl 0 s
  | cons x c ih =>
    rw [List.length_cons, Nat.add_comm]
    exact (appends_feedBit x s).andThen ih

/-- Feeding after the held byte is dropped (R165, R168). -/
theorem appends_feedBits_dropHold {c : Bits} {n : Nat} (hn : c.length ≤ n) (s : Block) :
    Appends n s (feedBits c (dropHold s)).block :=
  ((appends_of_outq_eq 0 rfl rfl rfl rfl rfl rfl : Appends 0 s (dropHold s)).trans
    (appends_feedBits c (dropHold s))).mono (by omega)

theorem appends_unpackPush (d : Byte) (s : Block) : Appends 8 s (unpackPush d s).block := by
  refine Appends.andThen (n := 8) (m := 0) ?_
    fun t => appends_of_outq_eq 0 rfl rfl rfl rfl rfl rfl
  split
  · exact appends_feedBits_dropHold (by simp) s
  · exact .refl 8 s

/-- A TAIL that is not bad is at most 8 (R168). -/
theorem tail_le_of_not_bad {s : Block} (h : s.tailIsBad = false) : s.tail.toNat ≤ 8 := by
  simp only [Block.tailIsBad, Bool.or_eq_false_iff, decide_eq_false_iff_not] at h
  omega

theorem appends_feedFinal (s : Block) : Appends 8 s (feedFinal s).block := by
  unfold feedFinal
  split
  · split
    · exact appends_raise _ ..
    · rename_i hb
      exact appends_feedBits_dropHold (by simpa using tail_le_of_not_bad (by simpa using hb)) s
  · exact appends_feedBits_dropHold (expandFinalCompat_length s.hold).2 s

theorem appends_unpackFinish (s : Block) : Appends 8 s (unpackFinish s).block := by
  refine Appends.andThen (n := 8) (m := 0) ?_ fun t => ?_
  · split
    · exact appends_feedFinal s
    · exact .refl 8 s
  · split
    · exact appends_raise _ ..
    · exact appends_of_outq_eq 0 rfl rfl rfl rfl rfl rfl

/-! ### Commands -/

theorem ruleOf_push_pack {s : Block} (h : s.state = .pack) (d : Byte) :
    ruleOf (.push d) s = packPush d s := by
  simp [ruleOf, pushRule, h]

theorem ruleOf_push_unpack {s : Block} (h : s.state = .unpack) (d : Byte) :
    ruleOf (.push d) s = unpackPush d s := by
  simp [ruleOf, pushRule, h]

theorem ruleOf_finish_pack {s : Block} (h : s.state = .pack) : ruleOf .finish s = packFinish s := by
  simp [ruleOf, finishRule, h]

theorem ruleOf_finish_unpack {s : Block} (h : s.state = .unpack) :
    ruleOf .finish s = unpackFinish s := by
  simp [ruleOf, finishRule, h]

theorem appends_validate (s : Block) : Appends 0 s (validate s).block := by
  rcases validate_cases s with ⟨-, he⟩ | ⟨a, b, -, he⟩ <;> rw [he]
  · exact .refl 0 s
  · exact appends_raise _ ..

/-- Validation after fields were cleared that are not among those `Appends` speaks of (R121, R122). -/
theorem Appends.validate {s t : Block} (h : Appends 0 s t) :
    Appends 0 s (Machine.validate t).block := h.trans (appends_validate t)

theorem appends_startPack (s : Block) : Appends 0 s (startPack s).block :=
  Appends.andThen (n := 0) (m := 0) (.validate (appends_of_outq_eq 0 rfl rfl rfl rfl rfl rfl))
    fun _ => appends_of_outq_eq 0 rfl rfl rfl rfl rfl rfl

theorem appends_startUnpack (s : Block) : Appends 0 s (startUnpack s).block :=
  Appends.andThen (n := 0) (m := 0) (.validate (appends_of_outq_eq 0 rfl rfl rfl rfl rfl rfl))
    fun _ => appends_of_outq_eq 0 rfl rfl rfl rfl rfl rfl

/-- The rule of every command but ABORT appends to OUTQ, and keeps CTRL and, unless it is FINISH of a pack
job, TAIL. -/
theorem appends_ruleOf {c : Command} (ha : c ≠ .abort) {s : Block}
    (hf : ¬ (c = .finish ∧ s.state = .pack)) : ∃ n, Appends n s (ruleOf c s).block := by
  cases c with
  | nop => exact ⟨0, .refl 0 s⟩
  | startPack => exact ⟨0, appends_startPack s⟩
  | startUnpack => exact ⟨0, appends_startUnpack s⟩
  | push d =>
    simp only [ruleOf, pushRule]
    split
    · exact ⟨_, appends_packPush d s⟩
    · exact ⟨8, appends_unpackPush d s⟩
    · exact ⟨0, .refl 0 s⟩
  | finish =>
    simp only [ruleOf, finishRule]
    split
    · rename_i h
      exact absurd ⟨rfl, h⟩ hf
    · exact ⟨8, appends_unpackFinish s⟩
    · exact ⟨0, .refl 0 s⟩
  | abort => exact absurd rfl ha
  | clrtab => exact ⟨0, appends_of_outq_eq 0 rfl rfl rfl rfl rfl rfl⟩

/-- The checks of R230 let the rule of the command run. -/
def Accepts (cfg : Config) (c : Command) (s : Block) : Prop :=
  (s.state = .error ∧ runsInError c = true) ∨
    (s.state ≠ .error ∧ legal c s = true ∧ (needsRdy c = true → s.rdy cfg = true))

/-- What `execute` leaves: the block, or the block with an error, or what the rule leaves (R230). -/
theorem execute_block_cases (c : Command) (rule : Block → Flow) (cfg : Config) (s : Block) :
    (execute c rule cfg s).block = s ∨
    (∃ e, e ≠ .noError ∧
      (execute c rule cfg s).block = (raise e (encodeCommand c) s.bitcnt s).block) ∨
    (Accepts cfg c s ∧ (execute c rule cfg s).block = (rule s).block) := by
  rcases execute_cases c rule cfg s with ⟨he, hr, h⟩ | ⟨-, -, h⟩ | ⟨-, -, h⟩ | ⟨-, -, -, -, h⟩ |
    ⟨he, hl, hn, h⟩ <;> rw [h]
  · exact .inr (.inr ⟨.inl ⟨he, hr⟩, rfl⟩)
  · exact .inl rfl
  · exact .inr (.inl ⟨.cmdState, by decide, rfl⟩)
  · exact .inr (.inl ⟨.overrun, by decide, rfl⟩)
  · exact .inr (.inr ⟨.inr ⟨he, hl, hn⟩, rfl⟩)

/-- ABORT runs in every state (R124, R128). -/
theorem execute_abort (cfg : Config) (s : Block) :
    (execute .abort (ruleOf .abort) cfg s).block = abort s := by
  by_cases h : s.state = .error <;> simp [execute, h, runsInError, legal, needsRdy, ruleOf]

/-- Every command but ABORT appends to OUTQ, and keeps CTRL and, unless it is FINISH of a pack job, TAIL. -/
theorem appends_execute {c : Command} (ha : c ≠ .abort) (cfg : Config) {s : Block}
    (hf : ¬ (c = .finish ∧ s.state = .pack)) : ∃ n, Appends n s (execute c (ruleOf c) cfg s).block := by
  rcases execute_block_cases c (ruleOf c) cfg s with h | ⟨e, -, h⟩ | ⟨-, h⟩ <;> rw [h]
  · exact ⟨0, .refl 0 s⟩
  · exact ⟨0, appends_raise 0 e _ _ s⟩
  · exact appends_ruleOf ha hf

/-- FINISH in PACK appends to OUTQ and keeps CTRL. -/
theorem appends_execute_finish (cfg : Config) {s : Block} (hp : s.state = .pack) :
    Appends 1 { s with tail := (execute .finish (ruleOf .finish) cfg s).block.tail }
      (execute .finish (ruleOf .finish) cfg s).block := by
  rcases execute_block_cases .finish (ruleOf .finish) cfg s with h | ⟨e, -, h⟩ | ⟨-, h⟩ <;> rw [h]
  · exact .refl 1 s
  · exact appends_of_outq_eq 1 rfl rfl rfl rfl rfl rfl
  · rw [ruleOf_finish_pack hp]
    exact appends_packFinish s

/-- A table write that keeps CTRL, TAIL and OUTQ, stored or dropped. -/
theorem appends_tableWrite (a : Addr) {store : Block → Block} {s : Block}
    (h : Appends 0 s (store s)) : Appends 0 s (tableWrite a store s).block := by
  rcases tableWrite_cases a store s with ⟨-, he⟩ | ⟨-, he⟩ <;> rw [he]
  · exact appends_raise 0 _ _ _ s
  · exact h

theorem appends_executeIllegal (w : Word) (s : Block) : Appends 0 s (executeIllegal w s).block := by
  unfold executeIllegal
  split
  · exact .refl 0 s
  · exact appends_raise 0 _ _ _ s

theorem appends_busError (a : BusAccess) (s : Block) : Appends 0 s (busError a s).block := by
  rcases busError_cases a s with ⟨-, he⟩ | ⟨-, he⟩ <;> rw [he]
  · exact .refl 0 s
  · exact appends_raise 0 _ _ _ s

/-- What an event does to OUTQ, CTRL and TAIL: a pop of DOUT, the writes of CTRL and TAIL, FINISH of a pack
job, ABORT and reset do what their rules say, and every other event appends to OUTQ and keeps CTRL and TAIL. -/
theorem Effect.appends_cases {cfg : Config} {s t : Block} {e : Event} (h : Effect cfg s e t) :
    (∃ n, Appends n s t) ∨
    (∃ x rest, e = .access (.read 0x010) ∧ s.outq = x :: rest ∧ t = { s with outq := rest }) ∨
    (∃ v, e = .access (.write 0x004 v) ∧ t = s.setCtrl v) ∨
    (∃ v, e = .access (.write 0x014 v) ∧ t = s.setTail v) ∨
    (e = .access (.write 0x00C 0x04000000) ∧ s.state = .pack ∧ Appends 1 { s with tail := t.tail } t) ∨
    (e = .access (.write 0x00C 0x05000000) ∧ t = abort s) ∨
    (e = .reset ∧ t = Block.reset) := by
  cases h with
  | read a => exact .inl ⟨0, .refl 0 s⟩
  | len b v => exact .inl ⟨0, appends_tableWrite _ (appends_of_outq_eq 0 rfl rfl rfl rfl rfl rfl)⟩
  | bits b w v => exact .inl ⟨0, appends_tableWrite _ (appends_of_outq_eq 0 rfl rfl rfl rfl rfl rfl)⟩
  | illegal w => exact .inl ⟨0, appends_executeIllegal w s⟩
  | rejected a _ _ => exact .inl ⟨0, appends_busError a s⟩
  | pop x rest hq => exact .inr (.inl ⟨x, rest, rfl, hq, rfl⟩)
  | ctrl v => exact .inr (.inr (.inl ⟨v, rfl, rfl⟩))
  | tail v => exact .inr (.inr (.inr (.inl ⟨v, rfl, rfl⟩)))
  | reset => exact .inr (.inr (.inr (.inr (.inr (.inr ⟨rfl, rfl⟩)))))
  | command c =>
    by_cases ha : c = .abort
    · subst ha
      exact .inr (.inr (.inr (.inr (.inr (.inl ⟨rfl, execute_abort cfg s⟩)))))
    · by_cases hf : c = .finish ∧ s.state = .pack
      · obtain ⟨rfl, hp⟩ := hf
        exact .inr (.inr (.inr (.inr (.inl ⟨rfl, hp, appends_execute_finish cfg hp⟩))))
      · exact .inl (appends_execute ha cfg hf)

/-- Settles O40: the events whose rules write CTRL or TAIL, and all others, which keep both. -/
theorem ctrlAndTailChangeOnlyByTheirWrites : Obligations.CtrlAndTailChangeOnlyByTheirWrites := by
  intro s t h hnr
  obtain ⟨e, hp, -, he⟩ := effect_of_step h
  rw [hp] at hnr ⊢
  rcases he.appends_cases with ⟨n, ha⟩ | ⟨x, rest, -, -, ht⟩ | ⟨v, rfl, ht⟩ | ⟨v, rfl, ht⟩ |
    ⟨rfl, hs, ha⟩ | ⟨-, ht⟩ | ⟨rfl, -⟩
  · exact ⟨fun _ => ⟨ha.tailmode, ha.ieErr, ha.ieDone, ha.ieOut⟩, fun _ => .inl ha.tail⟩
  · rw [ht]; exact ⟨fun _ => ⟨rfl, rfl, rfl, rfl⟩, fun _ => .inl rfl⟩
  · rw [ht]; exact ⟨fun hv => absurd rfl (hv v), fun _ => .inl rfl⟩
  · rw [ht]; exact ⟨fun _ => ⟨rfl, rfl, rfl, rfl⟩, fun hv => absurd rfl (hv v)⟩
  · exact ⟨fun _ => ⟨ha.tailmode, ha.ieErr, ha.ieDone, ha.ieOut⟩, fun _ => .inr ⟨hs, rfl⟩⟩
  · rw [ht]; exact ⟨fun _ => ⟨rfl, rfl, rfl, rfl⟩, fun _ => .inl rfl⟩
  · exact absurd rfl hnr

/-! ## OUTQ as a queue -/

/-- The word a read of DOUT returns for the byte `x`: VALID in bit 8 (R28). -/
theorem doutWord_eq (x : Byte) :
    (0x100 ||| x.setWidth 32 : Word) = BitVec.ofNat 32 (256 + x.toNat) := by
  revert x
  decide

/-- A read of DOUT with bytes in OUTQ returns the head. -/
theorem step_rdDout_replies {s t : State} {x : Byte} {rest : List Byte} (h : step s = .next t)
    (hp : s.pending.head? = some (.access (.read 0x010))) (hq : s.block.outq = x :: rest) :
    t.replies = s.replies ++ [BitVec.ofNat 32 (256 + x.toNat)] := by
  obtain ⟨evs, hp⟩ := List.head?_eq_some_iff.mp hp
  rw [stepRunsTheDecodedAccess s (.read 0x010) .rdDout evs hp rfl] at h
  simp only [exec, execRdDout, hq] at h
  cases h
  rw [← doutWord_eq]
  rfl

/-- Settles O47: the head leaves by DOUT, all of it by ABORT and reset, and every other event appends. -/
theorem outqIsFirstInFirstOut : Obligations.OutqIsFirstInFirstOut := by
  intro s t h
  obtain ⟨e, hp, -, he⟩ := effect_of_step h
  rcases he.appends_cases with ⟨n, ha⟩ | ⟨x, rest, rfl, hq, ht⟩ | ⟨v, rfl, ht⟩ | ⟨v, rfl, ht⟩ |
    ⟨-, -, ha⟩ | ⟨rfl, ht⟩ | ⟨rfl, ht⟩
  · obtain ⟨new, hn, -⟩ := ha.outq
    exact .inl ⟨new, hn⟩
  · exact .inr (.inl ⟨x, rest, hp, hq, by rw [ht], step_rdDout_replies h hp hq⟩)
  · exact .inl ⟨[], by simp [ht]⟩
  · exact .inl ⟨[], by simp [ht]⟩
  · obtain ⟨new, hn, -⟩ := ha.outq
    exact .inl ⟨new, hn⟩
  · exact .inr (.inr ⟨by rw [ht]; rfl, .inr hp⟩)
  · exact .inr (.inr ⟨by rw [ht]; rfl, .inl hp⟩)

end Sys2Proof.Machine
end

section
/-!
SUPPORT. The invariant of the machine, kept by every step (spec/10_state.md R25 to R46, spec/41_pack.md R140,
spec/42_unpack.md R160), and the room that one command needs in OUTQ (R27).
-/

namespace Sys2Proof.Machine

/-! ## The room one command needs in OUTQ -/

/-- Full chunks pack to one byte each. -/
theorem packedBytes_length_of_full {c : Bits} (n : Nat) (hn : c.length = 8 * n) :
    (packedBytes c).length = n := by
  induction n generalizing c with
  | zero => simp [List.eq_nil_of_length_eq_zero (by simpa using hn)]
  | succ n ih =>
    have h8 : (c.take 8).length = 8 := by simp; omega
    rw [← List.take_append_drop 8 c, packedBytes_of_length_8_append h8, List.length_cons,
      ih (by simp; omega)]

/-- Fewer than 8 held bits and a code of at most 255 fill at most 32 bytes (R142). -/
theorem packPush_appended {s : Block} (h : s.accbits.toNat < 2 ^ s.acclen.toNat) (d : Byte) :
    ∃ new, (packPush d s).block.outq = s.outq ++ new ∧ new.length ≤ 32 := by
  unfold packPush
  split
  · have hh := holds_acc h
    have hlt := hh.length_lt
    have hle := code_length_le s d
    rw [appendBits_eq hh]
    refine ⟨_, rfl, ?_⟩
    rw [packedBytes_length_of_full _ (fullPart_length _), List.length_append]
    omega
  · exact ⟨[], by simp, by simp⟩

/-- The most bytes that one PUSH or FINISH adds to OUTQ in a state (R27). -/
def jobRoom : JobState → Nat
  | .pack => 32
  | .unpack => 8
  | _ => 0

theorem ruleOf_appended {s : Block} (h : s.accbits.toNat < 2 ^ s.acclen.toNat) {c : Command}
    (hc : (∃ d, c = .push d) ∨ c = .finish) :
    ∃ new, (ruleOf c s).block.outq = s.outq ++ new ∧ new.length ≤ jobRoom s.state := by
  cases hs : s.state with
  | pack =>
    rcases hc with ⟨d, rfl⟩ | rfl
    · rw [ruleOf_push_pack hs]
      exact packPush_appended h d
    · rw [ruleOf_finish_pack hs]
      obtain ⟨new, hq, hn⟩ := (appends_packFinish s).outq
      exact ⟨new, hq, hn.trans (by decide)⟩
  | unpack =>
    rcases hc with ⟨d, rfl⟩ | rfl
    · rw [ruleOf_push_unpack hs]
      exact (appends_unpackPush d s).outq
    · rw [ruleOf_finish_unpack hs]
      exact (appends_unpackFinish s).outq
  | idle | done | error =>
    rcases hc with ⟨d, rfl⟩ | rfl <;>
      exact ⟨[], by simp [ruleOf, pushRule, finishRule, hs], Nat.zero_le _⟩

/-- Settles O46: the rule's bytes, or none when the checks of R230 stop the command. -/
theorem oneCommandAddsAtMost32Bytes : Obligations.OneCommandAddsAtMost32Bytes := by
  intro c s t hi hc h
  rw [exec_ofCommand, execCommand_eq] at h
  cases h
  have key : ∃ new, (execute c (ruleOf c) s.cfg s.block).block.outq = s.block.outq ++ new ∧
      new.length ≤ jobRoom s.block.state := by
    rcases execute_block_cases c (ruleOf c) s.cfg s.block with h | ⟨e, -, h⟩ | ⟨-, h⟩ <;> rw [h]
    · exact ⟨[], by simp, Nat.zero_le _⟩
    · exact ⟨[], by simp, Nat.zero_le _⟩
    · exact ruleOf_appended hi.block.accRange hc
  obtain ⟨new, hq, hn⟩ := key
  refine ⟨new, hq, fun hs => ?_, fun hs => ?_, fun hp hu => ?_⟩
  · rwa [hs] at hn
  · rwa [hs] at hn
  · cases hs : s.block.state <;> simp_all [jobRoom]

/-! ## The invariant, state by state -/

/-- The part of the invariant that does not depend on STATE. -/
structure InvBase (cfg : Config) (s : Block) : Prop where
  lenWf : Memory.wf Config.nsym s.tabLen = true
  bitsWf : Memory.wf (Config.bitsWords * Config.nsym) s.tabBits = true
  accRange : s.accbits.toNat < 2 ^ s.acclen.toNat
  candLe : s.cand.length ≤ 255
  holdClear : s.holdv = false → s.hold = 0
  outqBound : s.outq.length ≤ cfg.outqDepth

/-- No error is recorded. -/
structure NoErr (s : Block) : Prop where
  errcode : s.errcode = .noError
  errinfo : s.errinfo = 0
  errpos : s.errpos = 0

section

variable {cfg : Config} {s : Block}

theorem invBase_of_inv (h : s.Inv cfg) : InvBase cfg s :=
  ⟨h.lenWf, h.bitsWf, h.accRange, h.candBound.1, h.holdClear, h.outqBound⟩

theorem noErr_of_inv (h : s.Inv cfg) (hs : s.state ≠ .error) : NoErr s :=
  ⟨h.errcode.mpr hs, (h.errClear hs).1, (h.errClear hs).2⟩

/-- The invariant in ERROR. -/
theorem inv_of_error (h : InvBase cfg s) (hs : s.state = .error) (he : s.errcode ≠ .noError) :
    s.Inv cfg where
  lenWf := h.lenWf
  bitsWf := h.bitsWf
  errcode := by simp [hs, he]
  errClear := by simp [hs]
  accRange := h.accRange
  accIdle := by simp [hs]
  candIdle := by simp [hs]
  candBound := ⟨h.candLe, by simp [hs]⟩
  candShort := by simp [hs]
  candUnmatched := by simp [hs]
  candHeld := by simp [hs]
  holdClear := h.holdClear
  tableFree := by simp [Block.active, hs]
  outqBound := h.outqBound
  idleClear := by simp [hs]
  packCount := by simp [hs]

/-- The invariant in IDLE and DONE. -/
theorem inv_of_rest (h : InvBase cfg s) (hn : NoErr s) (hs : s.state = .idle ∨ s.state = .done)
    (ha : s.acclen = 0) (hc : s.cand = []) (hv : s.holdv = false)
    (hi : s.state = .idle → s.outq = [] ∧ s.jobtm = false) : s.Inv cfg where
  lenWf := h.lenWf
  bitsWf := h.bitsWf
  errcode := by rcases hs with hs | hs <;> simp [hs, hn.errcode]
  errClear := fun _ => ⟨hn.errinfo, hn.errpos⟩
  accRange := h.accRange
  accIdle := fun _ _ => ha
  candIdle := fun _ _ => ⟨hc, hv⟩
  candBound := by simp [hc]
  candShort := by rcases hs with hs | hs <;> simp [hs]
  candUnmatched := by rcases hs with hs | hs <;> simp [hs]
  candHeld := fun _ _ => hc
  holdClear := h.holdClear
  tableFree := by rcases hs with hs | hs <;> simp [Block.active, hs]
  outqBound := h.outqBound
  idleClear := hi
  packCount := by rcases hs with hs | hs <;> simp [hs]

/-- The invariant in PACK. -/
theorem inv_of_pack (h : InvBase cfg s) (hn : NoErr s) (hs : s.state = .pack) (hc : s.cand = [])
    (hv : s.holdv = false) (hf : s.PrefixFree)
    (hp : s.bitcnt.toNat % 8 = s.acclen.toNat ∧ s.outcnt.toNat = s.bitcnt.toNat / 8 % 2 ^ 32) :
    s.Inv cfg where
  lenWf := h.lenWf
  bitsWf := h.bitsWf
  errcode := by simp [hs, hn.errcode]
  errClear := fun _ => ⟨hn.errinfo, hn.errpos⟩
  accRange := h.accRange
  accIdle := by simp [hs]
  candIdle := fun _ _ => ⟨hc, hv⟩
  candBound := by simp [hc]
  candShort := by simp [hs]
  candUnmatched := by simp [hs]
  candHeld := fun _ _ => hc
  holdClear := h.holdClear
  tableFree := fun _ => hf
  outqBound := h.outqBound
  idleClear := by simp [hs]
  packCount := fun _ => hp

/-- An unpack job in the middle of a command: the invariant but for the clause that ties CAND to HOLDV. -/
structure Decoding (cfg : Config) (s : Block) : Prop where
  base : InvBase cfg s
  noErr : NoErr s
  state : s.state = .unpack
  acclen : s.acclen = 0
  candShort : s.cand.length < max s.maxlen 1
  candUnmatched : s.Unmatched s.cand
  tableFree : s.PrefixFree

/-- The invariant in UNPACK. -/
theorem inv_of_unpack (h : Decoding cfg s) (hv : s.holdv = false → s.cand = []) : s.Inv cfg where
  lenWf := h.base.lenWf
  bitsWf := h.base.bitsWf
  errcode := by simp [h.state, h.noErr.errcode]
  errClear := fun _ => ⟨h.noErr.errinfo, h.noErr.errpos⟩
  accRange := h.base.accRange
  accIdle := fun _ _ => h.acclen
  candIdle := by simp [h.state]
  candBound := by
    have := maxlen_le s
    have := h.candShort
    omega
  candShort := fun _ => h.candShort
  candUnmatched := fun _ => h.candUnmatched
  candHeld := fun _ => hv
  holdClear := h.base.holdClear
  tableFree := fun _ => h.tableFree
  outqBound := h.base.outqBound
  idleClear := by simp [h.state]
  packCount := by simp [h.state]

theorem decoding_of_inv (h : s.Inv cfg) (hs : s.state = .unpack) : Decoding cfg s where
  base := invBase_of_inv h
  noErr := noErr_of_inv h (by simp [hs])
  state := hs
  acclen := h.accIdle (by simp [hs]) (by simp [hs])
  candShort := h.candShort hs
  candUnmatched := h.candUnmatched hs
  tableFree := h.tableFree (active_iff.mpr (.inr hs))

/-- A raise leaves the invariant of ERROR, whatever the access did before it. -/
theorem inv_raise (h : InvBase cfg s) {e : ErrCode} (he : e ≠ .noError) (i : Word) (p : BitVec 64) :
    (raise e i p s).block.Inv cfg :=
  inv_of_error ⟨h.lenWf, h.bitsWf, h.accRange, h.candLe, h.holdClear, h.outqBound⟩ rfl he

/-! ## START, ABORT and CLRTAB -/

theorem accRange_zero : (0 : BitVec 7).toNat < 2 ^ (0 : BitVec 3).toNat := by decide

theorem inv_abort (h : s.Inv cfg) : (abort s).Inv cfg :=
  inv_of_rest ⟨h.lenWf, h.bitsWf, accRange_zero, by simp, fun _ => rfl, by simp⟩ ⟨rfl, rfl, rfl⟩
    (.inl rfl) rfl rfl rfl fun _ => ⟨rfl, rfl⟩

/-- Between jobs, no command has left anything in ACC, CAND or HOLD. -/
theorem inv_between (h : s.Inv cfg) (hs : s.state = .idle ∨ s.state = .done) :
    NoErr s ∧ s.acclen = 0 ∧ s.cand = [] ∧ s.holdv = false := by
  have hp : s.state ≠ .pack := by rcases hs with hs | hs <;> simp [hs]
  have hu : s.state ≠ .unpack := by rcases hs with hs | hs <;> simp [hs]
  have he : s.state ≠ .error := by rcases hs with hs | hs <;> simp [hs]
  exact ⟨noErr_of_inv h he, h.accIdle hp he, h.candIdle hu he⟩

theorem inv_startPack (h : s.Inv cfg) (hs : s.state = .idle ∨ s.state = .done) :
    (startPack s).block.Inv cfg := by
  obtain ⟨hn, -, hc, hv⟩ := inv_between h hs
  have h0 : InvBase cfg { s with bitcnt := 0, outcnt := 0, accbits := 0, acclen := 0 } :=
    { invBase_of_inv h with accRange := accRange_zero }
  unfold startPack
  rcases validate_cases { s with bitcnt := 0, outcnt := 0, accbits := 0, acclen := 0 } with
    ⟨hf, he⟩ | ⟨a, b, -, he⟩ <;> rw [he]
  · exact inv_of_pack { h0 with } { hn with } rfl hc hv hf ⟨rfl, by simp⟩
  · exact inv_raise h0 (by decide) _ _

theorem inv_startUnpack (h : s.Inv cfg) (hs : s.state = .idle ∨ s.state = .done) :
    (startUnpack s).block.Inv cfg := by
  obtain ⟨hn, ha, -, -⟩ := inv_between h hs
  have h0 : InvBase cfg { s with
      bitcnt := 0, outcnt := 0, cand := [], hold := 0, holdv := false, jobtm := s.tailmode } :=
    { invBase_of_inv h with candLe := by simp, holdClear := fun _ => rfl }
  unfold startUnpack
  rcases validate_cases { s with
      bitcnt := 0, outcnt := 0, cand := [], hold := 0, holdv := false, jobtm := s.tailmode } with
    ⟨hf, he⟩ | ⟨a, b, -, he⟩ <;> rw [he]
  · refine inv_of_unpack ⟨{ h0 with }, { hn with }, rfl, ha, ?_, unmatched_nil _, hf⟩ fun _ => rfl
    exact Nat.lt_of_lt_of_le Nat.zero_lt_one (Nat.le_max_right _ 1)
  · exact inv_raise h0 (by decide) _ _

/-- A change of the table between jobs or in ERROR that keeps its form and nothing but it (R73). -/
theorem inv_table (h : s.Inv cfg) (hna : s.active = false) {tl : Memory 8} {tb : Memory 32}
    (hl : Memory.wf Config.nsym tl = true)
    (hb : Memory.wf (Config.bitsWords * Config.nsym) tb = true) :
    ({ s with tabLen := tl, tabBits := tb } : Block).Inv cfg := by
  have hu : s.state ≠ .unpack := fun hu => by simp [Block.active, hu] at hna
  exact { h with
    lenWf := hl
    bitsWf := hb
    candShort := fun hs => absurd hs hu
    candUnmatched := fun hs => absurd hs hu
    tableFree := fun ha => absurd (hna.symm.trans ha) (by decide) }

/-! ## The pack job -/

theorem accRange_of_holds {A : Bits} (h : Holds s A) : s.accbits.toNat < 2 ^ s.acclen.toNat := by
  rw [h.len, h.bits]
  exact bitsToNat_lt A

/-- The counters of a pack job after `n` more bits, of which `m` were held before (R31, R140). -/
theorem packCount_add {b : BitVec 64} {o : BitVec 32} {m : Nat} (n : Nat) (hn : n ≤ 255)
    (hm : b.toNat % 8 = m) (ho : o.toNat = b.toNat / 8 % 2 ^ 32) :
    (b + BitVec.ofNat 64 n).toNat % 8 = (BitVec.ofNat 3 ((m + n) % 8)).toNat ∧
      (o + BitVec.ofNat 32 ((m + n) / 8)).toNat = (b + BitVec.ofNat 64 n).toNat / 8 % 2 ^ 32 := by
  simp only [BitVec.toNat_add, BitVec.toNat_ofNat]
  omega

theorem inv_packPush (h : s.Inv cfg) (hs : s.state = .pack)
    (hq : s.outq.length + 32 ≤ cfg.outqDepth) (d : Byte) : (packPush d s).block.Inv cfg := by
  obtain ⟨new, hnew, hlen⟩ := packPush_appended h.accRange d
  unfold packPush at hnew ⊢
  split
  case isFalse => exact inv_raise (invBase_of_inv h) (by decide) _ _
  case isTrue hv =>
    rw [if_pos hv, Flow.block_go] at hnew
    have hh := holds_acc h.accRange
    have hacc := accRange_of_holds (holds_appendBits hh (s.code d))
    have hout : (appendBits (s.code d) s).outq.length ≤ cfg.outqDepth := by
      rw [hnew, List.length_append]; omega
    obtain ⟨hc, hhv⟩ := h.candIdle (by simp [hs]) (by simp [hs])
    have hn := noErr_of_inv h (by simp [hs])
    obtain ⟨hb, ho⟩ := h.packCount hs
    rw [appendBits_eq hh] at hacc hout
    rw [Flow.block_go, appendBits_eq hh]
    refine inv_of_pack { invBase_of_inv h with accRange := hacc, outqBound := hout } { hn with } hs hc hhv
      (h.tableFree (active_iff.mpr (.inl hs))) ?_
    rw [List.length_append, ← hh.len]
    exact packCount_add _ (code_length_le s d) hb ho

theorem inv_packFinish (h : s.Inv cfg) (hs : s.state = .pack)
    (hq : s.outq.length + 32 ≤ cfg.outqDepth) : (packFinish s).block.Inv cfg := by
  obtain ⟨hc, hv⟩ := h.candIdle (by simp [hs]) (by simp [hs])
  have hn := noErr_of_inv h (by simp [hs])
  have hk := invBase_of_inv h
  unfold packFinish
  dsimp only [Flow.block]
  split
  · have hout : (s.outq ++ [s.accbits.setWidth 8]).length ≤ cfg.outqDepth := by
      rw [List.length_append, List.length_singleton]; omega
    exact inv_of_rest { hk with accRange := accRange_zero, outqBound := hout } { hn with } (.inr rfl) rfl
      hc hv nofun
  · split <;>
      exact inv_of_rest { hk with accRange := accRange_zero } { hn with } (.inr rfl) rfl hc hv nofun

/-! ## The unpack job -/

/-- Feeding bits inside an unpack job: the job goes on, or CORRUPT ends it (R163, R164). -/
theorem decoding_feedBits (h : Decoding cfg s) (c : Bits)
    (hq : s.outq.length + c.length ≤ cfg.outqDepth) :
    (∃ t, feedBits c s = .go t ∧ Decoding cfg t ∧ t.holdv = s.holdv) ∨
      (∃ t, feedBits c s = .ended t ∧ t.Inv cfg) := by
  have hout : (feedBits c s).block.outq.length ≤ cfg.outqDepth := by
    obtain ⟨new, hnew, hlen⟩ := (appends_feedBits c s).outq
    rw [hnew, List.length_append]
    omega
  have hml := maxlen_le s
  rcases feedBits_cases c s h.candUnmatched h.candShort with
    ⟨out, rest, hp, he⟩ | ⟨out, bad, rest, hf, -, he⟩ <;> rw [he] at hout
  · refine .inl ⟨_, he, ⟨{ h.base with candLe := ?_, outqBound := hout }, { h.noErr with }, h.state,
      h.acclen, hp.short, hp.unmatched, h.tableFree⟩, rfl⟩
    have := hp.short
    exact show rest.length ≤ 255 by omega
  · refine .inr ⟨_, he, inv_of_error { h.base with candLe := ?_, outqBound := hout } rfl nofun⟩
    have := hf.long
    exact show bad.length ≤ 255 by omega

/-- Dropping the held byte, which is in the expansion now (R165, R168). -/
theorem decoding_dropHold (h : Decoding cfg s) : Decoding cfg (dropHold s) :=
  ⟨{ h.base with holdClear := fun _ => rfl }, { h.noErr with }, h.state, h.acclen, h.candShort,
    h.candUnmatched, h.tableFree⟩

theorem inv_unpackPush (h : s.Inv cfg) (hs : s.state = .unpack)
    (hq : s.outq.length + 32 ≤ cfg.outqDepth) (d : Byte) : (unpackPush d s).block.Inv cfg := by
  have hd := decoding_of_inv h hs
  have hhold : ∀ t, Decoding cfg t → ({ t with hold := d, holdv := true } : Block).Inv cfg :=
    fun t ht => inv_of_unpack ⟨{ ht.base with holdClear := nofun }, { ht.noErr with }, ht.state,
      ht.acclen, ht.candShort, ht.candUnmatched, ht.tableFree⟩ nofun
  unfold unpackPush
  split
  · rcases decoding_feedBits (decoding_dropHold hd) (bin8 s.hold) (by simp; omega) with
      ⟨t, he, ht, -⟩ | ⟨t, he, ht⟩ <;> rw [he]
    · exact hhold t ht
    · exact ht
  · exact hhold s hd

/-- The final byte: its bits are fed, and the job is still open with no byte held, or an error ends it
(R168). -/
theorem decoding_feedFinal (h : Decoding cfg s) (hq : s.outq.length + 32 ≤ cfg.outqDepth) :
    (∃ t, feedFinal s = .go t ∧ Decoding cfg t ∧ t.holdv = false) ∨
      (∃ t, feedFinal s = .ended t ∧ t.Inv cfg) := by
  have hd := decoding_dropHold h
  unfold feedFinal
  split
  · split
    · exact .inr ⟨_, rfl, inv_raise h.base (by decide) _ _⟩
    · rename_i hb
      have hle := tail_le_of_not_bad (by simpa using hb)
      exact decoding_feedBits hd _ (by simp; omega)
  · have hle := (expandFinalCompat_length s.hold).2
    exact decoding_feedBits hd _ (by simp; omega)

theorem inv_unpackFinish (h : s.Inv cfg) (hs : s.state = .unpack)
    (hq : s.outq.length + 32 ≤ cfg.outqDepth) : (unpackFinish s).block.Inv cfg := by
  have hd := decoding_of_inv h hs
  have hfed : (∃ t, (if s.holdv then feedFinal s else .go s) = .go t ∧ Decoding cfg t ∧
        t.holdv = false) ∨
      (∃ t, (if s.holdv then feedFinal s else .go s) = .ended t ∧ t.Inv cfg) := by
    split
    · exact decoding_feedFinal hd hq
    · rename_i hv
      exact .inl ⟨s, rfl, hd, by simpa using hv⟩
  unfold unpackFinish
  rcases hfed with ⟨t, he, ht, hv⟩ | ⟨t, he, ht⟩ <;> rw [he]
  · rw [Flow.andThen_go]
    split
    · exact inv_raise ht.base (by decide) _ _
    · rename_i hc
      have hnil : t.cand = [] := List.eq_nil_of_length_eq_zero (by omega)
      exact inv_of_rest { ht.base with } { ht.noErr with } (.inr rfl) ht.acclen hnil hv nofun
  · exact ht

/-! ## Every step -/

/-- START is legal only between jobs (R128). -/
theorem between_of_legal_start {c : Command} (hc : c = .startPack ∨ c = .startUnpack)
    (hl : legal c s = true) : s.state = .idle ∨ s.state = .done := by
  rcases hc with rfl | rfl <;> cases hs : s.state <;> simp_all [legal]

/-- CLRTAB is legal only when no job is open (R125, R128). -/
theorem not_active_of_legal_clrtab (hl : legal .clrtab s = true) : s.active = false := by
  cases hs : s.state <;> simp_all [legal, Block.active]

/-- PUSH and FINISH run only in a job, with 32 free slots (R128, R230). -/
theorem job_of_accepts {c : Command} (hn : needsRdy c = true) (ha : Accepts cfg c s) :
    (s.state = .pack ∨ s.state = .unpack) ∧ s.outq.length + 32 ≤ cfg.outqDepth := by
  rcases ha with ⟨-, hr⟩ | ⟨-, hl, hrdy⟩
  · cases c <;> simp_all [needsRdy, runsInError]
  · exact ⟨active_iff.mp (active_of_legal_needsRdy hl hn), of_decide_eq_true (hrdy hn)⟩

/-- The rule of a command that R230 lets run keeps the invariant. -/
theorem inv_ruleOf (h : s.Inv cfg) {c : Command} (ha : Accepts cfg c s) :
    (ruleOf c s).block.Inv cfg := by
  have hstart : c = .startPack ∨ c = .startUnpack → s.state = .idle ∨ s.state = .done := by
    intro hc
    rcases ha with ⟨-, hr⟩ | ⟨-, hl, -⟩
    · rcases hc with rfl | rfl <;> cases hr
    · exact between_of_legal_start hc hl
  cases c with
  | nop => exact h
  | startPack => exact inv_startPack h (hstart (.inl rfl))
  | startUnpack => exact inv_startUnpack h (hstart (.inr rfl))
  | push d =>
    obtain ⟨hs | hs, hq⟩ := job_of_accepts rfl ha
    · rw [ruleOf_push_pack hs]; exact inv_packPush h hs hq d
    · rw [ruleOf_push_unpack hs]; exact inv_unpackPush h hs hq d
  | finish =>
    obtain ⟨hs | hs, hq⟩ := job_of_accepts rfl ha
    · rw [ruleOf_finish_pack hs]; exact inv_packFinish h hs hq
    · rw [ruleOf_finish_unpack hs]; exact inv_unpackFinish h hs hq
  | abort => exact inv_abort h
  | clrtab =>
    refine inv_table h ?_ rfl rfl
    rcases ha with ⟨hs, -⟩ | ⟨-, hl, -⟩
    · simp [Block.active, hs]
    · exact not_active_of_legal_clrtab hl

theorem inv_execute (h : s.Inv cfg) (c : Command) : (execute c (ruleOf c) cfg s).block.Inv cfg := by
  rcases execute_block_cases c (ruleOf c) cfg s with he | ⟨e, hne, he⟩ | ⟨ha, he⟩ <;> rw [he]
  · exact h
  · exact inv_raise (invBase_of_inv h) hne _ _
  · exact inv_ruleOf h ha

/-- A table write: TABLE_BUSY in a job, and a store that keeps the table's form otherwise. -/
theorem inv_tableWrite (h : s.Inv cfg) (a : Addr) {store : Block → Block}
    (hstore : s.active = false → (store s).Inv cfg) : (tableWrite a store s).block.Inv cfg := by
  rcases tableWrite_cases a store s with ⟨-, he⟩ | ⟨hna, he⟩ <;> rw [he]
  · exact inv_raise (invBase_of_inv h) (by decide) _ _
  · exact hstore hna

/-- Every event keeps the invariant. -/
theorem inv_effect {t : Block} {e : Event} (h : s.Inv cfg) (he : Effect cfg s e t) : t.Inv cfg := by
  cases he with
  | reset => exact inv_blockReset cfg
  | command c => exact inv_execute h c
  | illegal w =>
    unfold executeIllegal
    split
    · exact h
    · exact inv_raise (invBase_of_inv h) (by decide) _ _
  | ctrl v => exact { h with }
  | tail v => exact { h with }
  | len b v =>
    exact inv_tableWrite h _ fun hna => inv_table h hna (Memory.wf_write h.lenWf (lenCell_lt b) _) h.bitsWf
  | bits b w v =>
    exact inv_tableWrite h _ fun hna => inv_table h hna h.lenWf (Memory.wf_write h.bitsWf (bitsCell_lt b w) _)
  | pop x rest hq =>
    refine { h with outqBound := ?_, idleClear := fun hs => ?_ }
    · have := h.outqBound
      rw [hq, List.length_cons] at this
      exact Nat.le_of_succ_le this
    · have := (h.idleClear hs).1
      rw [hq] at this
      cases this
  | read a => exact h
  | rejected a _ _ =>
    rcases busError_cases a s with ⟨-, he⟩ | ⟨-, he⟩ <;> rw [he]
    · exact h
    · exact inv_raise (invBase_of_inv h) (by decide) _ _

end

/-- Settles O48: every effect an event can have keeps the block's invariant, and no step changes
OUTQ_DEPTH. -/
theorem stepKeepsTheInvariant : Obligations.StepKeepsTheInvariant := by
  intro s t h hstep
  obtain ⟨e, -, hcfg, he⟩ := effect_of_step hstep
  exact ⟨hcfg ▸ h.cfg, hcfg ▸ inv_effect h.block he⟩

end Sys2Proof.Machine
end

section
/-!
SUPPORT. Reset, the fields of TAIL and DBG, and the host program LOADCODE (spec/10_state.md R29, R35, R37, R46;
spec/30_encoding.md R101).
-/

namespace Sys2Proof.Machine

/-! ## Reset -/

/-- STATUS reads 8 after reset at a legal OUTQ_DEPTH: IDLE, RDY, and an empty OUTQ (R46, R250). -/
theorem statusWord_reset {cfg : Config} (h : cfg.valid = true) :
    Block.reset.statusWord cfg = 0x00000008 := by
  have hrdy : Block.reset.rdy cfg = true := by
    simp only [Config.valid, Bool.and_eq_true, decide_eq_true_eq] at h
    simpa [Block.rdy, Block.reset] using h.1
  unfold Block.statusWord
  rw [hrdy]
  decide

/-- Settles O10: reset puts the reset column of R46 in place of the block. -/
theorem resetClearsTheBlock : Obligations.ResetClearsTheBlock := by
  intro s rest hp
  refine ⟨_, step_reset hp, rfl, rfl, rfl, rfl, rfl, rfl, rfl, rfl, rfl, rfl, rfl, rfl, rfl, rfl, rfl, rfl,
    rfl, rfl, rfl, rfl, rfl, fun _ => rfl, fun _ _ => rfl, rfl, fun hv => ?_⟩
  rw [← statusWord_reset hv]
  rfl

/-! ## TAIL and DBG -/

/-- Settles O33: bits 3..0 are the remainder by 16. -/
theorem tailWriteStoresFourBits : Obligations.TailWriteStoresFourBits := by
  intro s v
  have hv : v.extractLsb' 0 4 = BitVec.ofNat 4 (v.toNat % 16) := by
    apply BitVec.eq_of_toNat_eq
    simp [BitVec.extractLsb'_toNat]
  refine ⟨decodeAccess_write_tail v, ?_⟩
  rw [← hv]
  rfl

/-- A field of `n` bits, placed at bit `k` of a register. -/
def regField {n : Nat} (x : BitVec n) (k : Nat) : Word := x.setWidth 32 <<< k

theorem getLsbD_regField {n : Nat} (x : BitVec n) (k j : Nat) :
    (regField x k).getLsbD j = (decide (j < 32) && decide (k ≤ j) && x.getLsbD (j - k)) := by
  by_cases hj : j < 32
  · by_cases hk : k ≤ j
    · simp [regField, hj, hk, Nat.not_lt.mpr hk]
    · simp [regField, hk, Nat.not_le.mp hk]
  · simp [regField, hj]

/-- Where a field stands, the register reads as the field. -/
theorem extractLsb'_regField {n k : Nat} (x : BitVec n) (h : k + n ≤ 32) :
    (regField x k).extractLsb' k n = x := by
  apply BitVec.eq_of_getLsbD_eq
  intro i hi
  have hki : k + i < 32 := by omega
  rw [BitVec.getLsbD_extractLsb', getLsbD_regField]
  simp [hi, hki]

/-- Beside a field, the register reads 0. -/
theorem extractLsb'_regField_beside {n k j m : Nat} (x : BitVec n) (h : k + n ≤ j ∨ j + m ≤ k) :
    (regField x k).extractLsb' j m = 0#m := by
  apply BitVec.eq_of_getLsbD_eq
  intro i hi
  rw [BitVec.getLsbD_extractLsb', getLsbD_regField]
  rcases h with h | h
  · simp [BitVec.getLsbD_of_ge x (j + i - k) (by omega)]
  · simp [show ¬ k ≤ j + i by omega]

/-- A single bit of a register is the field of one bit there. -/
theorem getLsbD_of_extractLsb' {r : Word} {j : Nat} {f : Bool}
    (h : r.extractLsb' j 1 = BitVec.ofBool f) : r.getLsbD j = f := by
  have h0 := congrArg (·.getLsbD 0) h
  simpa using h0

/-- DBG is its six fields (R35). -/
theorem dbgWord_eq_fields (s : Block) : s.dbgWord = regField s.candlen 0 ||| regField s.hold 8 |||
    regField (BitVec.ofBool s.holdv) 16 ||| regField s.acclen 17 ||| regField s.accbits 20 |||
    regField (BitVec.ofBool s.jobtm) 27 := by
  simp [Block.dbgWord, flagAt, regField]

/-- Settles O34: each field of DBG read back at its place; CANDLEN loses nothing below 256. -/
theorem dbgReadsTheJobState : Obligations.DbgReadsTheJobState := by
  refine ⟨rfl, fun s hi => ⟨s.block.dbgWord, rfl, ?_⟩⟩
  have hcand : s.block.candlen.toNat = s.block.cand.length :=
    Nat.mod_eq_of_lt (Nat.lt_succ_of_le hi.block.candBound.1)
  rw [dbgWord_eq_fields, ← hcand]
  refine ⟨congrArg BitVec.toNat ?_, ?_, getLsbD_of_extractLsb' ?_, ?_, ?_, getLsbD_of_extractLsb' ?_, ?_⟩
  all_goals
    simp (disch := omega) only [BitVec.extractLsb'_or, extractLsb'_regField, extractLsb'_regField_beside,
      BitVec.or_zero, BitVec.zero_or, BitVec.ofNat_eq_ofNat]

/-! ## LOADCODE -/

/-- A run takes the first event in one step, and then is a run of the others. -/
theorem runs_cons {s u t : State} {e : Event} {es : List Event}
    (h : step { s with pending := e :: es } = .next u) (hr : Runs u es t) : Runs s (e :: es) t := by
  obtain ⟨u', hu', hp, -⟩ := stepTakesOneEvent { s with pending := e :: es } e es rfl
  obtain rfl : u' = u := by rw [h] at hu'; cases hu'; rfl
  have hes : { u' with pending := es } = u' := by rw [← hp]
  unfold Runs at hr ⊢
  rw [hes] at hr
  simp only [List.length_cons, Host.Core.run]
  rw [show core.step { s with pending := e :: es } = .next u' from h]
  exact hr

theorem runs_nil (s : State) : Runs s [] { s with pending := [] } := rfl

/-- Outside a job, a write of LEN[b] stores the low 8 bits of the value (R205). -/
theorem step_wrLen {s : State} (hs : s.block.active = false) (b : Byte) (v : Word) (es : List Event) :
    step { s with pending := wr (.len b) v :: es } =
      .next { s with block := s.block.setLen b (v.extractLsb' 0 8), pending := es } := by
  rw [stepRunsTheDecodedAccess _ _ _ es rfl (decodeAccess_write_lenAddr b v)]
  simp [exec, execWrLen, writeReg, State.onBlock, tableWrite, hs]

/-- Outside a job, a write of BITS[b][w] stores the value (R207). -/
theorem step_wrBits {s : State} (hs : s.block.active = false) (b : Byte) (w : BitVec 3) (v : Word)
    (es : List Event) : step { s with pending := wr (.bits b w) v :: es } =
      .next { s with block := s.block.setBits b w v, pending := es } := by
  rw [stepRunsTheDecodedAccess _ _ _ es rfl (decodeAccess_write_bitsAddr b w v)]
  simp [exec, execWrBits, writeReg, State.onBlock, tableWrite, hs]

/-- The block after the words `ws` of the code `c` were written to BITS[b]. -/
def storeWords (b : Byte) (c : Bits) (ws : List Nat) (s : Block) : Block :=
  ws.foldl (fun s w => s.setBits b (BitVec.ofNat 3 w) (codeWord c w)) s

/-- Outside a job, the writes of BITS[b] in LOADCODE run to their end. -/
theorem runs_storeWords (b : Byte) (c : Bits) (ws : List Nat) {s : State}
    (hs : s.block.active = false) :
    Runs s (ws.map fun w => wr (.bits b (BitVec.ofNat 3 w)) (codeWord c w))
      { s with block := storeWords b c ws s.block, pending := [] } := by
  induction ws generalizing s with
  | nil => exact runs_nil s
  | cons w ws ih =>
    rw [List.map_cons]
    exact runs_cons (step_wrBits hs b _ _ _) (ih hs)

/-- What the words written leave: LEN as it is, the canonical form, and in BITS[b] the words of the code. -/
theorem storeWords_range (b : Byte) (c : Bits) {s : Block}
    (h : Memory.wf (Config.bitsWords * Config.nsym) s.tabBits = true) (n : Nat) (hn : n ≤ 8) :
    let t := storeWords b c (List.range n) s
    t.tabLen = s.tabLen ∧ Memory.wf (Config.bitsWords * Config.nsym) t.tabBits = true ∧
      ∀ a x, t.bits a x = if a = b ∧ x.toNat < n then codeWord c x.toNat else s.bits a x := by
  induction n with
  | zero => exact ⟨rfl, h, by simp [storeWords]⟩
  | succ n ih =>
    obtain ⟨hl, hw, hb⟩ := ih (by omega)
    have hsucc : storeWords b c (List.range (n + 1)) s =
        (storeWords b c (List.range n) s).setBits b (BitVec.ofNat 3 n) (codeWord c n) := by
      simp [storeWords, List.range_succ]
    rw [hsucc]
    refine ⟨hl, Memory.wf_write hw (bitsCell_lt b _) _, fun a x => ?_⟩
    have hx : x = BitVec.ofNat 3 n ↔ x.toNat = n := by
      rw [← BitVec.toNat_inj, BitVec.toNat_ofNat, Nat.mod_eq_of_lt (by omega)]
    simp only [bits_setBits hw, hb, hx]
    by_cases ha : a = b
    · rcases Nat.lt_trichotomy x.toNat n with hlt | heq | hgt
      · simp [ha, hlt, Nat.ne_of_lt hlt, Nat.lt_succ_of_lt hlt]
      · simp [ha, heq]
      · simp [ha, show ¬ x.toNat < n + 1 by omega, show ¬ x.toNat < n by omega, Nat.ne_of_gt hgt]
    · simp [ha]

/-- Shifting bits in from the right, first bit first: bit `k` of the word is the bit shifted in `k` steps
before the last. -/
theorem getLsbD_shiftIn (f : Nat → Bool) (n : Nat) (hn : n ≤ 32) (k : Nat) :
    ((List.range n).foldl
      (fun (acc : Word) j => (acc <<< 1) ||| (BitVec.ofBool (f j)).setWidth 32) (0 : Word)).getLsbD k =
      (decide (k < n) && f (n - 1 - k)) := by
  induction n generalizing k with
  | zero => simp
  | succ n ih =>
    rw [List.range_succ, List.foldl_append, List.foldl_cons, List.foldl_nil, BitVec.getLsbD_or,
      BitVec.getLsbD_shiftLeft]
    cases k with
    | zero => simp
    | succ k =>
      rw [Nat.add_sub_cancel, ih (by omega)]
      by_cases hk : k < n
      · simp [hk, show k + 1 < 32 by omega, show n - (k + 1) = n - 1 - k by omega]
      · simp [hk]

/-- Bit 31 - j of the word `W_w` is bit `32w + j` of the code (R101). -/
theorem getLsbD_codeWord (c : Bits) (w : Nat) {j : Nat} (hj : j < 32) :
    (codeWord c w).getLsbD (31 - j) = c.getD (32 * w + j) false := by
  rw [codeWord, getLsbD_shiftIn (fun j => c.getD (32 * w + j) false) 32 (Nat.le_refl 32)]
  simp [show 31 - j < 32 by omega, show 31 - (31 - j) = j by omega]

/-- An entry whose LEN is the length of `c`, and whose words are those of `c`, has the code `c` (R37). -/
theorem code_eq_of_words {s : Block} {b : Byte} {c : Bits} (hc : c.length ≤ 255)
    (hl : (s.len b).toNat = c.length)
    (hb : ∀ x : BitVec 3, x.toNat < (c.length + 31) / 32 → s.bits b x = codeWord c x.toNat) :
    s.code b = c := by
  apply List.ext_getElem
  · rw [code_length, hl]
  · intro i hi hi'
    have hx : (BitVec.ofNat 3 (i / 32)).toNat = i / 32 := by
      rw [BitVec.toNat_ofNat, Nat.mod_eq_of_lt (by omega)]
    simp only [Block.code, List.getElem_map, List.getElem_range]
    rw [hb _ (by omega), hx, getLsbD_codeWord c _ (Nat.mod_lt i (by decide)), Nat.div_add_mod,
      List.getD_eq_getElem _ _ hi']

/-- An entry whose LEN and words read alike in two blocks has one code in both. -/
theorem entry_congr {s t : Block} {a : Byte} (hl : t.len a = s.len a)
    (hb : ∀ w, t.bits a w = s.bits a w) : t.valid a = s.valid a ∧ t.code a = s.code a := by
  simp [Block.valid, Block.code, hl, hb]

/-- Settles O52: LEN[b], then the words that the code reaches; no other entry is written. -/
theorem loadcodeLoadsTheCode : Obligations.LoadcodeLoadsTheCode := by
  intro s b c hi hp hu hc
  obtain ⟨h1, h255⟩ : 1 ≤ c.length ∧ c.length ≤ 255 := by
    rwa [codeWellFormed, Bool.and_eq_true, decide_eq_true_eq, decide_eq_true_eq] at hc
  have hs : s.block.active = false := by
    rw [← Bool.not_eq_true, active_iff]
    exact fun h => h.elim hp hu
  obtain ⟨v, hv⟩ : ∃ v, (BitVec.ofNat 32 c.length).extractLsb' 0 8 = v := ⟨_, rfl⟩
  have hvlen : v.toNat = c.length := by
    rw [← hv]
    simp only [BitVec.extractLsb'_toNat, BitVec.toNat_ofNat, Nat.shiftRight_zero]
    omega
  have hlen : ∀ a, (s.block.setLen b v).len a = if a = b then v else s.block.len a :=
    fun a => len_setLen hi.block.lenWf b a v
  obtain ⟨hl, -, hb⟩ := storeWords_range b c (s := s.block.setLen b v) hi.block.bitsWf
    ((c.length + 31) / 32) (by omega)
  refine ⟨_, runs_cons (step_wrLen hs b _ _) (runs_storeWords b c _ hs), ?_, ?_, fun a ha => ?_⟩ <;>
    rw [hv]
  · rw [valid_iff, len_congr hl, hlen, if_pos rfl]
    intro h0
    rw [h0] at hvlen
    simp only [BitVec.ofNat_eq_ofNat, BitVec.toNat_ofNat, Nat.zero_mod] at hvlen
    omega
  · refine code_eq_of_words h255 ?_ fun x hx => ?_
    · rw [len_congr hl, hlen, if_pos rfl, hvlen]
    · rw [hb, if_pos ⟨rfl, hx⟩]
  · refine entry_congr ?_ fun w => ?_
    · rw [len_congr hl, hlen, if_neg ha]
    · rw [hb, if_neg fun h => ha h.1]
      rfl

end Sys2Proof.Machine
end

section
/-!
SUPPORT. The register space as the host sees it (spec/20_memory.md): what an access gives back, what an access
outside the map does (R63), that a listed read leaves the block alone (R69), and that no event of a job writes
the code table (R73).
-/

namespace Sys2Proof.Machine

/-! ## What every access gives back -/

/-- Settles O12: an instruction answers as many words as the access that carries it asks for. -/
theorem everyInstructionCompletes : Obligations.EveryInstructionCompletes := by
  intro i s
  obtain ⟨b, vs, he, hlen⟩ := answers_exec i s
  refine ⟨b, vs, he, ?_⟩
  rw [hlen]
  cases (encode i).carrier <;> rfl

/-! ## Accesses outside the map -/

/-- BUS_ERR of a read records its address (R63). -/
theorem accessInfo_read (x : Addr) : accessInfo x false = BitVec.ofNat 32 x.toNat := by
  apply BitVec.eq_of_toNat_eq
  simp [accessInfo]

/-- BUS_ERR and TABLE_BUSY of a write record its address, and the direction in bit 16 (R63, R221). -/
theorem accessInfo_write (x : Addr) : accessInfo x true = BitVec.ofNat 32 (x.toNat + 65536) := by
  have hx := x.isLt
  apply BitVec.eq_of_toNat_eq
  have hor : 1 <<< 16 + x.toNat = 1 <<< 16 ||| x.toNat := Nat.shiftLeft_add_eq_or_of_lt hx 1
  simp only [accessInfo, BitVec.toNat_or, BitVec.toNat_setWidth, BitVec.toNat_shiftLeft,
    BitVec.toNat_ofBool, BitVec.toNat_ofNat]
  rw [Nat.or_comm, Nat.mod_eq_of_lt (by omega : x.toNat < 2 ^ 32)]
  exact hor.symm.trans (by omega)

/-- The decoder rejects what the register map does not list. -/
theorem decodeAccess_of_not_listed {a : BusAccess} (h : ¬ Listed a) :
    ∃ e, decodeAccess a = .error e := by
  cases hd : decodeAccess a with
  | ok i => exact absurd ((accessDecodesExactlyWhenListed a).mp ⟨i, hd⟩) h
  | error e => exact ⟨e, rfl⟩

/-- Settles O9: the step is a rejected access, and `busError` looks at STATE alone. -/
theorem unlistedAccessRaisesBusErr : Obligations.UnlistedAccessRaisesBusErr := by
  intro s a rest hp hl s' info
  obtain ⟨e, hd⟩ := decodeAccess_of_not_listed hl
  have hstep : step s = .next { s' with block := (busError a s.block).block } := by
    rw [step_rejected hp hd]
    cases a with
    | read x => rfl
    | write x v => simp [s', State.rejectAccess, State.onBlock, BusAccess.isWrite]
  have hinfo : accessInfo a.addr a.isWrite = info := by
    cases a with
    | read x => exact accessInfo_read x
    | write x v => exact accessInfo_write x
  rw [hstep, ← hinfo]
  rcases busError_cases a s.block with ⟨hs, he⟩ | ⟨hs, he⟩ <;> rw [he]
  · exact ⟨fun hn => absurd hs hn, fun _ => rfl⟩
  · exact ⟨fun _ => rfl, fun h => absurd h hs⟩

/-! ## Reads of the map -/

/-- A read that the map lists, of another register than DOUT, leaves the block: a pop is DOUT's, and a listed
access is not rejected. -/
theorem Effect.eq_of_read {cfg : Config} {s t : Block} {a : Addr}
    (h : Effect cfg s (.access (.read a)) t) (hl : Listed (.read a)) (hne : a ≠ 0x010) : t = s := by
  cases h with
  | pop x rest hq => exact absurd rfl hne
  | read => rfl
  | rejected _ e hd =>
    obtain ⟨i, hi⟩ := (accessDecodesExactlyWhenListed _).mpr hl
    rw [hi] at hd
    cases hd

/-- Settles O39, by the effects that a read can have. -/
theorem onlyDoutReadsHaveASideEffect : Obligations.OnlyDoutReadsHaveASideEffect := by
  intro s t a rest hp hl hne h
  obtain ⟨e, he, -, heff⟩ := effect_of_step h
  rw [hp] at he
  cases he
  exact heff.eq_of_read hl hne

/-! ## The code table in a job -/

/-- The two stores of the code table (R36). -/
def Block.table (s : Block) : Memory 8 × Memory 32 := (s.tabLen, s.tabBits)

/-- Blocks with the same stores have the same code table. -/
theorem sameTable_of_table_eq {s t : Block} (h : t.table = s.table) : s.SameTable t := by
  obtain ⟨hl, hb⟩ := Prod.mk.inj h
  exact ⟨len_congr hl, bits_congr hb⟩

@[simp] theorem table_raise (e : ErrCode) (i : Word) (p : BitVec 64) (s : Block) :
    (raise e i p s).block.table = s.table := rfl

@[simp] theorem table_dropHold (s : Block) : (dropHold s).table = s.table := rfl

/-- A part that keeps the table, after one that may have ended the access. -/
theorem table_andThen {x : Flow} {f : Block → Flow} (hf : ∀ t, (f t).block.table = t.table) :
    (x.andThen f).block.table = x.block.table := by
  cases x with
  | go t => exact hf t
  | ended t => rfl

@[simp] theorem table_appendBits (c : Bits) (s : Block) : (appendBits c s).table = s.table := by
  induction c generalizing s with
  | nil => rfl
  | cons x c ih =>
    have hbit : (appendBit x s).table = s.table := by
      unfold appendBit
      dsimp only
      split <;> rfl
    rw [appendBits_cons, ih, hbit]

@[simp] theorem table_feedBits (c : Bits) (s : Block) : (feedBits c s).block.table = s.table := by
  induction c generalizing s with
  | nil => rfl
  | cons x c ih =>
    have hbit : (feedBit x s).block.table = s.table := by
      rcases feedBit_cases x s with ⟨b, -, -, he⟩ | ⟨-, -, he⟩ | ⟨-, -, he⟩ <;> rw [he] <;> rfl
    exact (table_andThen ih).trans hbit

@[simp] theorem table_validate (s : Block) : (validate s).block.table = s.table := by
  rcases validate_cases s with ⟨-, he⟩ | ⟨a, b, -, he⟩ <;> rw [he] <;> rfl

theorem table_startPack (s : Block) : (startPack s).block.table = s.table :=
  (table_andThen fun _ => rfl).trans (table_validate _)

theorem table_startUnpack (s : Block) : (startUnpack s).block.table = s.table :=
  (table_andThen fun _ => rfl).trans (table_validate _)

theorem table_packPush (d : Byte) (s : Block) : (packPush d s).block.table = s.table := by
  unfold packPush
  split <;> simp

theorem table_packFinish (s : Block) : (packFinish s).block.table = s.table := by
  unfold packFinish
  dsimp only [Flow.block]
  split
  · rfl
  · split <;> rfl

theorem table_unpackPush (d : Byte) (s : Block) : (unpackPush d s).block.table = s.table := by
  refine (table_andThen fun _ => rfl).trans ?_
  split <;> simp

theorem table_feedFinal (s : Block) : (feedFinal s).block.table = s.table := by
  unfold feedFinal
  split
  · split <;> simp
  · simp

theorem table_unpackFinish (s : Block) : (unpackFinish s).block.table = s.table := by
  refine (table_andThen fun t => ?_).trans ?_
  · split <;> rfl
  · split
    · exact table_feedFinal s
    · rfl

/-- The rule of every command but CLRTAB keeps the table, in every state (R121 to R127). -/
theorem table_ruleOf {c : Command} (hc : c ≠ .clrtab) (s : Block) :
    (ruleOf c s).block.table = s.table := by
  cases c with
  | nop | abort => rfl
  | startPack => exact table_startPack s
  | startUnpack => exact table_startUnpack s
  | push d =>
    simp only [ruleOf, pushRule]
    split
    · exact table_packPush d s
    · exact table_unpackPush d s
    · rfl
  | finish =>
    simp only [ruleOf, finishRule]
    split
    · exact table_packFinish s
    · exact table_unpackFinish s
    · rfl
  | clrtab => exact absurd rfl hc

/-- R230 does not let CLRTAB run in a job (R125). -/
theorem not_accepts_clrtab {cfg : Config} {s : Block} (ha : s.active = true) :
    ¬ Accepts cfg .clrtab s := by
  rintro (⟨hs, -⟩ | ⟨-, hl, -⟩)
  · simp [Block.active, hs] at ha
  · rw [not_active_of_legal_clrtab hl] at ha
    cases ha

/-- No command changes the table in a job. -/
theorem table_execute {s : Block} (ha : s.active = true) (c : Command) (cfg : Config) :
    (execute c (ruleOf c) cfg s).block.table = s.table := by
  rcases execute_block_cases c (ruleOf c) cfg s with he | ⟨e, -, he⟩ | ⟨hacc, he⟩ <;> rw [he]
  · exact table_raise ..
  · refine table_ruleOf (fun hc => ?_) s
    subst hc
    exact not_accepts_clrtab ha hacc

/-- A write of the table in a job is dropped (R73). -/
theorem table_tableWrite {s : Block} (ha : s.active = true) (a : Addr) (store : Block → Block) :
    (tableWrite a store s).block.table = s.table := by
  rw [tableWrite, if_pos ha, table_raise]

/-- In a job, no event but reset changes the table. -/
theorem Effect.table_eq {cfg : Config} {s t : Block} {e : Event} (h : Effect cfg s e t)
    (ha : s.active = true) (he : e ≠ .reset) : t.table = s.table := by
  cases h with
  | reset => exact absurd rfl he
  | command c => exact table_execute ha c cfg
  | illegal w =>
    unfold executeIllegal
    split
    · rfl
    · exact table_raise ..
  | len b v => exact table_tableWrite ha _ _
  | bits b w v => exact table_tableWrite ha _ _
  | ctrl v | tail v | pop x rest hq | read a => rfl
  | rejected a _ _ => rcases busError_cases a s with ⟨-, hb⟩ | ⟨-, hb⟩ <;> rw [hb] <;> rfl

/-- Settles O41: what every event but reset does in a job leaves both stores of the table. -/
theorem tableIsFrozenDuringAJob : Obligations.TableIsFrozenDuringAJob := by
  intro s t hs h hr
  obtain ⟨e, hp, -, he⟩ := effect_of_step h
  rw [hp] at hr
  exact sameTable_of_table_eq (he.table_eq (active_iff.mpr hs) fun h => hr (congrArg some h))

end Sys2Proof.Machine
end

section
/-!
SUPPORT. The encoding read in both directions (spec/30_encoding.md R90 to R97): the fields of a command word, the
command words that encode no command, and that decoding and encoding invert each other in both formats.
-/

namespace Sys2Proof

/-! ## The fields of a command word -/

/-- The three fields of a word that is written from them (R91). -/
theorem fields_append (o : Byte) (r : BitVec 16) (d : Byte) :
    opc (o ++ r ++ d) = o ∧ rsv (o ++ r ++ d) = r ∧ cmdData (o ++ r ++ d) = d := by
  refine ⟨?_, ?_, ?_⟩
  · rw [opc, BitVec.extractLsb'_append_eq_of_le (by decide), BitVec.extractLsb'_append_eq_left]
  · rw [rsv, BitVec.extractLsb'_append_eq_of_le (by decide), BitVec.extractLsb'_append_eq_right]
  · exact BitVec.extractLsb'_append_eq_right

/-- OPC in numbers: bits [31:24] (R91). -/
theorem opc_toNat (w : Word) : (opc w).toNat = w.toNat / 2 ^ 24 := by
  have := w.isLt
  simp only [opc, BitVec.extractLsb'_toNat, Nat.shiftRight_eq_div_pow]
  omega

/-- RSV in numbers: bits [23:8] (R91). -/
theorem rsv_toNat (w : Word) : (rsv w).toNat = w.toNat / 2 ^ 8 % 2 ^ 16 := by
  simp only [rsv, BitVec.extractLsb'_toNat, Nat.shiftRight_eq_div_pow]

/-- DATA in numbers: bits [7:0] (R91). -/
theorem cmdData_toNat (w : Word) : (cmdData w).toNat = w.toNat % 2 ^ 8 := by
  simp only [cmdData, BitVec.extractLsb'_toNat, Nat.shiftRight_zero]

/-! ## Decoding inverts encoding -/

/-- The word of a command decodes to it; PUSH alone has an operand to read back (R93). -/
theorem decodeCommand_encodeCommand (c : Command) : decodeCommand (encodeCommand c) = .ok c := by
  cases c with
  | push d =>
    obtain ⟨ho, hr, hd⟩ := fields_append 0x03 0 d
    simp only [encodeCommand, decodeCommand, ho, hr, hd, ne_eq, not_true, if_true, if_false]
  | nop | startPack | startUnpack | finish | abort | clrtab => rfl

/-- A command's instruction is encoded as the command's word. -/
theorem encode_ofCommand (c : Command) : encode (.ofCommand c) = .command (encodeCommand c) := by
  cases c <;> rfl

/-- The word of a command decodes to the command's instruction. -/
theorem decode_encode_ofCommand (c : Command) : decode (encode (.ofCommand c)) = .ok (.ofCommand c) := by
  rw [encode_ofCommand, decode, decodeCommand_encodeCommand]
  rfl

/-- Settles O1: the commands by their words, the writes and the table by their rows, the reads of plain
registers by computation. -/
theorem decodeInvertsEncode : Obligations.DecodeInvertsEncode := by
  intro i
  cases i with
  | nop => exact decode_encode_ofCommand .nop
  | startPack => exact decode_encode_ofCommand .startPack
  | startUnpack => exact decode_encode_ofCommand .startUnpack
  | push d => exact decode_encode_ofCommand (.push d)
  | finish => exact decode_encode_ofCommand .finish
  | abort => exact decode_encode_ofCommand .abort
  | clrtab => exact decode_encode_ofCommand .clrtab
  | wrCtrl v => exact decodeAccess_write_ctrl v
  | wrCmd v => exact decodeAccess_write_cmd v
  | wrTail v => exact decodeAccess_write_tail v
  | rdLen b => exact decodeAccess_read_lenAddr b
  | wrLen b v => exact decodeAccess_write_lenAddr b v
  | rdBits b w => exact decodeAccess_read_bitsAddr b w
  | wrBits b w v => exact decodeAccess_write_bitsAddr b w v
  | rdId | rdCtrl | rdStatus | rdDout | rdTail | rdBitcntLo | rdBitcntHi | rdOutcnt | rdErrinfo
  | rdErrposLo | rdErrposHi | rdTabinfo | rdDbg => rfl

/-- Settles O2: a command word and a bus access, each read back from what it decodes to. -/
theorem encodeInvertsDecode : Obligations.EncodeInvertsDecode := by
  intro r i h
  cases r with
  | access a => exact encode_of_decodeAccess h
  | command w =>
    cases hd : decodeCommand w with
    | error e => rw [decode, hd] at h; cases h
    | ok c =>
      rw [decode, hd] at h
      cases h
      rw [encode_ofCommand, encodeCommand_of_decodeCommand hd]

/-- Settles O6: the words are the encodings of their instructions, or fail on a field or on every row. -/
theorem sampleWordsDecode : Obligations.SampleWordsDecode :=
  ⟨decodeInvertsEncode .nop, decodeInvertsEncode (.push 0xAB), decodeInvertsEncode .clrtab, rfl,
    decodeInvertsEncode .rdDout, decodeInvertsEncode (.rdLen 0x41), decodeInvertsEncode (.wrBits 0x43 1 7),
    rfl⟩

/-! ## Illegal command words -/

/-- The words that encode no command: an opcode that names none, a reserved bit set, or an operand where the
command has none (R94). -/
theorem decodeCommand_error_iff (w : Word) : (∃ e, decodeCommand w = .error e) ↔
    7 ≤ (opc w).toNat ∨ rsv w ≠ 0 ∨ (opc w ≠ 0x03 ∧ cmdData w ≠ 0) := by
  unfold decodeCommand
  split_ifs with hr hp hd h0 h1 h2 h4 h5 h6
  · exact iff_of_true ⟨_, rfl⟩ (.inr (.inl hr))
  · simp [not_not.mp hr, hp]
  · exact iff_of_true ⟨_, rfl⟩ (.inr (.inr ⟨hp, hd⟩))
  case neg => exact iff_of_true ⟨_, rfl⟩ (.inl (by bv_omega))
  -- an opcode without operand, and nothing beside it in the word
  all_goals simp [not_not.mp hr, not_not.mp hd, *]

end Sys2Proof
end

section
/-!
SUPPORT. What a write of CMD does, and the polling loops of the host, WAITRDY and DRAIN (spec/30_encoding.md R94,
R101; spec/43_bus.md R194, R195).
-/

namespace Sys2Proof.Machine

/-! ## Writes of CMD -/

/-- A write of CMD whose word encodes no command (R194). -/
theorem exec_wrCmd_of_error {w : Word} {e : Reject} (h : decodeCommand w = .error e) (s : State) :
    exec (.wrCmd w) s = .next (s.onBlock (executeIllegal w)) := by
  simp only [exec, execWrCmd, h]
  rfl

/-- A write of CMD whose word is a command (R194). -/
theorem exec_wrCmd_of_ok {w : Word} {c : Command} (h : decodeCommand w = .ok c) (s : State) :
    exec (.wrCmd w) s = execCommand c s := by
  simp only [exec, execWrCmd, h]

/-- Settles O5: R94's three conditions by the fields in numbers, and the effect by STATE. -/
theorem illegalCommandWords : Obligations.IllegalCommandWords := by
  intro w s illegal
  have hiff : (∃ e, decodeCommand w = .error e) ↔ illegal := by
    rw [decodeCommand_error_iff]
    simp only [illegal, ne_eq, ← BitVec.toNat_inj, opc_toNat, rsv_toNat, cmdData_toNat]
    rfl
  have heffect : illegal → exec (.wrCmd w) s = .next (s.onBlock (executeIllegal w)) := fun hi =>
    have ⟨_, hd⟩ := hiff.mpr hi
    exec_wrCmd_of_error hd s
  refine ⟨hiff, fun hi hs => ?_, fun hi hs => ?_⟩
  · rw [heffect hi, State.onBlock, executeIllegal, if_neg hs]
    rfl
  · rw [heffect hi, State.onBlock, executeIllegal, if_pos hs]
    rfl

/-- Settles O8: both are the command's rule behind the checks of R230. -/
theorem wrCmdRunsTheCommand : Obligations.WrCmdRunsTheCommand := by
  intro w c s hd
  rw [exec_wrCmd_of_ok hd, exec_ofCommand, execCommand_eq]
  exact ⟨_, rfl, rfl⟩

/-! ## Polling a register -/

/-- One more read of a loop: it ends there, or goes on from the state the read leaves (R101). -/
theorem poll_succ {r : RegName} {s t : State} (h : step (s.issueFirst (rd r)) = .next t)
    (stop : Word → Bool) (n : Nat) :
    poll r stop (n + 1) s = if stop (t.replies.getLastD 0) then some t else poll r stop n t := by
  rw [poll, h]

/-- A read of the host, issued first, runs its own instruction on the machine as it is. -/
theorem step_issueFirst_access {a : BusAccess} {i : Instr} (h : decodeAccess a = .ok i) (s : State) :
    step (s.issueFirst (.access a)) = exec i s :=
  stepRunsTheDecodedAccess _ a i s.pending rfl h

/-- The host's loop tests the word its last read returned. -/
theorem getLastD_reply (s : State) (v d : Word) : (s.reply v).replies.getLastD d = v :=
  List.getLastD_concat ..

/-! ### WAITRDY -/

/-- Bit 3 of STATUS is RDY (R25). -/
theorem statusWord_getLsbD_3 (cfg : Config) (s : Block) : (s.statusWord cfg).getLsbD 3 = s.rdy cfg := by
  simp [Block.statusWord, flagAt]

/-- One read of STATUS: WAITRDY ends there exactly when RDY = 1. -/
theorem waitRdy_succ (n : Nat) (s : State) : waitRdy (n + 1) s =
    if s.block.rdy s.cfg then some (s.reply (s.block.statusWord s.cfg))
    else waitRdy n (s.reply (s.block.statusWord s.cfg)) := by
  have hstep : step (s.issueFirst (rd .status)) = .next (s.reply (s.block.statusWord s.cfg)) :=
    step_issueFirst_access (i := .rdStatus) rfl s
  rw [waitRdy, poll_succ hstep, getLastD_reply, statusWord_getLsbD_3]
  rfl

/-- With RDY = 0 a read of STATUS changes nothing that RDY depends on (R256). -/
theorem waitRdy_eq_none {s : State} (h : s.block.rdy s.cfg = false) (n : Nat) : waitRdy n s = none := by
  induction n generalizing s with
  | zero => rfl
  | succ n ih =>
    rw [waitRdy_succ, h]
    exact ih h

/-- Settles O54: RDY = 1 ends the first read, and RDY = 0 stays. -/
theorem waitrdyEndsAtOnceOrNever : Obligations.WaitrdyEndsAtOnceOrNever := by
  intro s n
  refine ⟨fun h => ?_, fun h => ?_⟩
  · have hrdy : s.block.rdy s.cfg = true := decide_eq_true h
    rw [waitRdy_succ, if_pos hrdy]
    exact ⟨_, rfl, rfl, rfl⟩
  · exact waitRdy_eq_none (decide_eq_false (Nat.not_le.mpr h)) n

/-! ### DRAIN -/

/-- DRAIN ends at the read that finds OUTQ empty (R195). -/
theorem drain_succ_nil {s : State} (h : s.block.outq = []) (n : Nat) :
    drain (n + 1) s = some (s.reply 0) := by
  have hstep : step (s.issueFirst (rd .dout)) = .next (s.reply 0) := by
    rw [rd, step_issueFirst_access (i := .rdDout) rfl]
    simp only [exec, execRdDout, h]
  rw [drain, poll_succ hstep, getLastD_reply]
  rfl

/-- The machine after a read of DOUT that pops `x` and leaves `rest` in OUTQ (R195). -/
def State.popped (s : State) (x : Byte) (rest : List Byte) : State :=
  State.reply { s with block := { s.block with outq := rest } } (BitVec.ofNat 32 (256 + x.toNat))

/-- DRAIN goes on after a read that finds a byte: its VALID is bit 8 (R28, R195). -/
theorem drain_succ_cons {s : State} {x : Byte} {rest : List Byte} (h : s.block.outq = x :: rest) (n : Nat) :
    drain (n + 1) s = drain n (s.popped x rest) := by
  have hstep : step (s.issueFirst (rd .dout)) = .next (s.popped x rest) := by
    rw [rd, step_issueFirst_access (i := .rdDout) rfl]
    simp only [exec, execRdDout, h, doutWord_eq]
    rfl
  have hvalid : (BitVec.ofNat 32 (256 + x.toNat)).getLsbD 8 = true := by
    rw [← doutWord_eq]
    simp
  rw [drain, poll_succ hstep, State.popped, getLastD_reply, hvalid]
  rfl

/-- Settles O53, by induction on OUTQ: each read pops a byte, and one more finds none. -/
theorem drainEmptiesOutq : Obligations.DrainEmptiesOutq := by
  intro s
  refine ⟨_, ?_, rfl⟩
  induction hq : s.block.outq generalizing s with
  | nil =>
    rw [List.length_nil, drain_succ_nil hq]
    simp [State.reply, ← hq]
  | cons x rest ih =>
    rw [List.length_cons, drain_succ_cons hq, ih (s.popped x rest) rfl]
    simp [State.popped, State.reply]

end Sys2Proof.Machine
end

section
/-!
SUPPORT. The commands by the checks that come before them: what runs where it is legal, CMD_STATE where it is not,
validation at START, ABORT, CLRTAB and NOP (spec/40_control.md R120 to R128; spec/60_exceptions.md R230).
-/

namespace Sys2Proof.Machine

/-! ## A command that R230 lets run, and one that it stops -/

/-- A command that the checks of R230 let run is its rule. -/
theorem exec_of_accepts {c : Command} {s : State} (ha : Accepts s.cfg c s.block) :
    exec (.ofCommand c) s = .next (s.onBlock (ruleOf c)) := by
  have hrule : execute c (ruleOf c) s.cfg s.block = ruleOf c s.block := by
    rcases ha with ⟨hs, hr⟩ | ⟨hs, hl, hn⟩
    · rw [execute, if_pos hs, if_pos hr]
    · rw [execute, if_neg hs, if_neg (by simp [hl]), if_neg (by simpa using hn)]
  rw [exec_ofCommand, execCommand_eq, State.onBlock, hrule]
  rfl

/-- A command that is not legal in the state raises CMD_STATE with its word (R128, R230). -/
theorem exec_of_not_legal {c : Command} {s : State} (hs : s.block.state ≠ .error)
    (hl : legal c s.block = false) :
    exec (.ofCommand c) s = .next (s.failed .cmdState (encodeCommand c) s.block.bitcnt) := by
  rw [exec_ofCommand, execCommand_eq, State.onBlock, execute, if_neg hs, if_pos hl]
  rfl

/-- A command that needs no free slots runs wherever it is legal (R128, R230). -/
theorem exec_of_legal {c : Command} {s : State} (hl : legal c s.block = true) (hn : needsRdy c = false) :
    exec (.ofCommand c) s = .next (s.onBlock (ruleOf c)) := by
  by_cases hs : s.block.state = .error
  · exact exec_of_accepts (.inl ⟨hs, by rw [← legal_in_error hs, hl]⟩)
  · exact exec_of_accepts (.inr ⟨hs, hl, by simp [hn]⟩)

/-- The rows of the two STARTs in the matrix: between jobs, with OUTQ empty (R128). -/
theorem legal_start_iff {c : Command} (hc : c = .startPack ∨ c = .startUnpack) {s : Block} :
    legal c s = true ↔ (s.state = .idle ∨ s.state = .done) ∧ s.outq = [] := by
  rcases hc with rfl | rfl <;> cases hs : s.state <;> simp [legal, hs]

/-- Settles O25, by the three rows of the matrix that have such entries. -/
theorem illegalInStateRaisesCmdState : Obligations.IllegalInStateRaisesCmdState := by
  intro c s hs h
  refine exec_of_not_legal hs ?_
  rcases h with ⟨hc, h⟩ | ⟨hc, h⟩ | ⟨rfl, h⟩
  · rw [← Bool.not_eq_true, legal_start_iff hc]
    rintro ⟨hs | hs, hq⟩ <;> simp [hs, hq] at h
  · rcases hc with ⟨d, rfl⟩ | rfl <;> rcases h with h | h <;> simp [legal, h]
  · rcases h with h | h <;> simp [legal, h]

/-- START in a job, or with a byte left in OUTQ, raises CMD_STATE. -/
theorem exec_start_not_legal {c : Command} (hc : c = .startPack ∨ c = .startUnpack) {s : State}
    (h : s.block.state = .pack ∨ s.block.state = .unpack ∨
      ((s.block.state = .idle ∨ s.block.state = .done) ∧ s.block.outq ≠ [])) :
    exec (.ofCommand c) s = .next (s.failed .cmdState (encodeCommand c) s.block.bitcnt) := by
  refine illegalInStateRaisesCmdState c s ?_ (.inl ⟨hc, h.imp_right (.imp_right And.right)⟩)
  rcases h with hs | hs | ⟨hs | hs, -⟩ <;> simp [hs]

/-- Settles O14: NOP's rule leaves the block as it is. -/
theorem nopDoesNothing : Obligations.NopDoesNothing :=
  ⟨decodeCommand_encodeCommand .nop, fun _ => exec_of_legal (c := .nop) rfl rfl⟩

/-! ## Validation -/

/-- What TABLE_INVALID records, in numbers (R120). -/
theorem pairInfo_eq (a b : Byte) : pairInfo a b = BitVec.ofNat 32 (a.toNat + 256 * b.toNat) := by
  have hb := b.isLt
  have hor : b.toNat <<< 8 + a.toNat = b.toNat <<< 8 ||| a.toNat := Nat.shiftLeft_add_eq_or_of_lt a.isLt _
  apply BitVec.eq_of_toNat_eq
  simp only [pairInfo, BitVec.toNat_or, BitVec.toNat_setWidth, BitVec.toNat_shiftLeft, BitVec.toNat_ofNat]
  rw [Nat.or_comm, Nat.mod_eq_of_lt (by omega : a.toNat < 2 ^ 32),
    Nat.mod_eq_of_lt (by omega : b.toNat < 2 ^ 32), Nat.mod_eq_of_lt (by omega : b.toNat <<< 8 < 2 ^ 32), ← hor]
  omega

/-- Each of two first conflicting pairs comes before the other, so they are one pair. -/
theorem firstConflict_unique {s : Block} {a b a' b' : Byte} (h : s.FirstConflict a b)
    (h' : s.FirstConflict a' b') : a' = a ∧ b' = b := by
  obtain ⟨hc, hmin⟩ := h
  obtain ⟨hc', hmin'⟩ := h'
  have h1 := hmin a' b' hc'
  have h2 := hmin' a b hc
  simp only [← BitVec.toNat_inj] at h1 h2 ⊢
  omega

theorem not_firstConflict_of_prefixFree {s : Block} (hf : s.PrefixFree) (a b : Byte) :
    ¬ s.FirstConflict a b := fun h => prefixFree_iff.mp hf a b h.1

theorem validate_of_firstConflict {s : Block} {a b : Byte} (h : s.FirstConflict a b) :
    validate s = raise .tableInvalid (BitVec.ofNat 32 (a.toNat + 256 * b.toNat)) s.bitcnt s := by
  rcases validate_cases s with ⟨hf, -⟩ | ⟨a', b', h', hv⟩
  · exact absurd h (not_firstConflict_of_prefixFree hf a b)
  · obtain ⟨rfl, rfl⟩ := firstConflict_unique h h'
    rw [hv, pairInfo_eq]

theorem validate_eq_go_iff {s : Block} : validate s = .go s ↔ s.PrefixFree := by
  rcases validate_cases s with ⟨hf, hv⟩ | ⟨a, b, h, hv⟩
  · exact iff_of_true hv hf
  · exact iff_of_false (by rw [hv]; nofun) fun hf => not_firstConflict_of_prefixFree hf a b h

/-! ## START -/

/-- What the two STARTs do once their fields are cleared: check the table, and open the job (R121, R122). -/
def openJob (job : JobState) (s : Block) : Flow :=
  (validate s).andThen fun s => .go { s with state := job }

/-- START_PACK clears the counters and the packer first. -/
theorem onBlock_startPack (s : State) : s.onBlock startPack = State.onBlock { s with block :=
    { s.block with bitcnt := 0, outcnt := 0, accbits := 0, acclen := 0 } } (openJob .pack) := rfl

/-- START_UNPACK clears the counters and the decoder first, and copies TAILMODE to JOBTM. -/
theorem onBlock_startUnpack (s : State) : s.onBlock startUnpack = State.onBlock { s with block :=
    { s.block with
      bitcnt := 0, outcnt := 0, cand := [], hold := 0, holdv := false
      jobtm := s.block.tailmode } } (openJob .unpack) := rfl

theorem onBlock_openJob_of_prefixFree {s : State} (hf : s.block.PrefixFree) (job : JobState) :
    s.onBlock (openJob job) = { s with block := { s.block with state := job } } := by
  rw [State.onBlock, openJob, validate_eq_go_iff.mpr hf]
  rfl

theorem onBlock_openJob_of_firstConflict {s : State} {a b : Byte} (h : s.block.FirstConflict a b)
    (job : JobState) : s.onBlock (openJob job) =
      s.failed .tableInvalid (BitVec.ofNat 32 (a.toNat + 256 * b.toNat)) s.block.bitcnt := by
  rw [State.onBlock, openJob, validate_of_firstConflict h]
  rfl

/-- Settles O15: START_PACK opens the job on the cleared block, whose table is the block's own, and raises
CMD_STATE where it is not legal. -/
theorem startPackOpensAPackJob : Obligations.StartPackOpensAPackJob := by
  intro s s0
  refine ⟨fun hs hq => ?_, exec_start_not_legal (c := .startPack) (.inl rfl)⟩
  have hrun : exec .startPack s = .next (s.onBlock startPack) :=
    exec_of_legal (c := .startPack) ((legal_start_iff (.inl rfl)).mpr ⟨hs, hq⟩) rfl
  rw [hrun, onBlock_startPack]
  exact ⟨fun hf => congrArg _ (onBlock_openJob_of_prefixFree (s := s0) hf .pack),
    fun a b h => congrArg _ (onBlock_openJob_of_firstConflict (s := s0) h .pack)⟩

/-- Settles O16: START_UNPACK, as O15 for START_PACK. -/
theorem startUnpackOpensAnUnpackJob : Obligations.StartUnpackOpensAnUnpackJob := by
  intro s s0
  refine ⟨fun hs hq => ?_, exec_start_not_legal (c := .startUnpack) (.inr rfl)⟩
  have hrun : exec .startUnpack s = .next (s.onBlock startUnpack) :=
    exec_of_legal (c := .startUnpack) ((legal_start_iff (.inr rfl)).mpr ⟨hs, hq⟩) rfl
  rw [hrun, onBlock_startUnpack]
  exact ⟨fun hf => congrArg _ (onBlock_openJob_of_prefixFree (s := s0) hf .unpack),
    fun a b h => congrArg _ (onBlock_openJob_of_firstConflict (s := s0) h .unpack)⟩

/-- Validation finds no conflict, or a first one. -/
theorem prefixFree_or_firstConflict (s : Block) : s.PrefixFree ∨ ∃ a b, s.FirstConflict a b := by
  rcases validate_cases s with ⟨hf, -⟩ | ⟨a, b, h, -⟩
  · exact .inl hf
  · exact .inr ⟨a, b, h⟩

/-- A single code conflicts with none. -/
theorem prefixFree_of_subsingleton {s : Block}
    (h : ∀ a b, s.valid a = true → s.valid b = true → a = b) : s.PrefixFree :=
  fun a b hab ha hb => absurd (h a b ha hb) hab

/-- Settles O17: validation by the two kinds of table, and the STARTs by the statements about them. -/
theorem prefixFreeOrOneFirstConflict : Obligations.PrefixFreeOrOneFirstConflict := by
  refine ⟨fun s => ⟨?_, fun h => ?_, fun a b hab ha hb hc hv => ?_⟩, fun s hs hq => ?_⟩
  · rcases prefixFree_or_firstConflict s with hf | ⟨a, b, h⟩
    · exact .inl ⟨hf, not_firstConflict_of_prefixFree hf, validate_eq_go_iff.mpr hf⟩
    · exact .inr ⟨fun hf => not_firstConflict_of_prefixFree hf a b h, a, b, h,
        fun _ _ => firstConflict_unique h, validate_of_firstConflict h⟩
  · exact validate_eq_go_iff.mpr (prefixFree_of_subsingleton h)
  · exact validate_eq_go_iff.mp hv a b hab ha hb (by rw [hc])
  · obtain ⟨hpack, hpackInvalid⟩ := (startPackOpensAPackJob s).1 hs hq
    obtain ⟨hunpack, hunpackInvalid⟩ := (startUnpackOpensAnUnpackJob s).1 hs hq
    rcases prefixFree_or_firstConflict s.block with hf | ⟨a, b, h⟩
    · exact ⟨_, _, hpack hf, hunpack hf, .inl ⟨hf, rfl, rfl⟩⟩
    · exact ⟨_, _, hpackInvalid a b h, hunpackInvalid a b h,
        .inr ⟨rfl, rfl, rfl, rfl, a, b, h, rfl, rfl⟩⟩

/-! ## ABORT -/

/-- Settles O18: R94 for the other words with its opcode, ERROR by O28, and the rule of ABORT. -/
theorem abortClearsJobAndError : Obligations.AbortClearsJobAndError := by
  refine ⟨decodeCommand_encodeCommand .abort, fun w s hop hne hs => ?_, fun s t hs h ht => ?_, fun s => ?_⟩
  · obtain ⟨-, hillegal, -⟩ := illegalCommandWords w s
    have hw : w.toNat ≠ 0x05000000 := fun e => hne (BitVec.eq_of_toNat_eq e)
    exact hillegal (by omega) hs
  · rcases onlyAbortOrResetLeavesError s t hs h with ⟨-, he⟩ | ⟨he, -⟩
    · exact he
    · exact absurd he ht
  · exact exec_of_legal (c := .abort) rfl rfl

/-! ## CLRTAB -/

/-- TABINFO reads 0 of a table without codes (R34). -/
theorem tabinfoWord_of_no_codes {s : Block} (h : ∀ b, s.valid b = false) : s.tabinfoWord = 0 := by
  have hn : s.ncodes = 0 := by simp [Block.ncodes, Block.validBytes, h]
  have hm : s.maxlen = 0 := by
    rcases maxlen_attained s with hm | ⟨b, hb, -⟩
    · exact hm
    · rw [h b] at hb
      cases hb
  rw [Block.tabinfoWord, hn, hm]
  rfl

/-- Settles O19: the rule of CLRTAB outside a job, and CMD_STATE in one. -/
theorem clrtabClearsTheTable : Obligations.ClrtabClearsTheTable := by
  refine ⟨decodeCommand_encodeCommand .clrtab, fun s => ⟨fun hs => ?_, fun hs => ?_⟩⟩
  · have htab : s.block.clearTable.tabinfoWord = 0 := tabinfoWord_of_no_codes fun _ => rfl
    have hl : legal .clrtab s.block = true := by rcases hs with hs | hs | hs <;> simp [legal, hs]
    refine ⟨_, exec_of_legal hl rfl, rfl, len_clearTable s.block, bits_clearTable s.block, ?_⟩
    rw [← htab]
    rfl
  · refine illegalInStateRaisesCmdState .clrtab s ?_ (.inr (.inr ⟨rfl, hs⟩))
    rcases hs with hs | hs <;> simp [hs]

end Sys2Proof.Machine
end

section
/-!
SUPPORT. What a command does to STATE, and what every command leaves unchanged (spec/40_control.md R121 to R128).
-/

namespace Sys2Proof.Machine

/-! ## Where an access leaves STATE -/

/-- The block is in ERROR, with an error recorded. -/
def Failed (s : Block) : Prop := s.state = .error ∧ s.errcode ≠ .noError

theorem failed_raise {e : ErrCode} (he : e ≠ .noError) (i : Word) (p : BitVec 64) (s : Block) :
    Failed (raise e i p s).block := ⟨rfl, he⟩

/-- The access goes on with STATE = `j`, or a raise has ended it. -/
def Flow.EndsIn (j : JobState) : Flow → Prop
  | .go t => t.state = j
  | .ended t => Failed t

theorem endsIn_raise {e : ErrCode} (he : e ≠ .noError) (i : Word) (p : BitVec 64) (s : Block)
    (j : JobState) : (raise e i p s).EndsIn j := failed_raise he i p s

/-- Where the access is over, STATE is `j`, or an error was recorded. -/
theorem Flow.EndsIn.block {j : JobState} {x : Flow} (h : x.EndsIn j) :
    x.block.state = j ∨ Failed x.block := by
  cases x with
  | go t => exact .inl h
  | ended t => exact .inr h

/-- An access in two parts, the second of which starts where the first has left STATE. -/
theorem Flow.EndsIn.andThen {j k : JobState} {x : Flow} {f : Block → Flow} (hx : x.EndsIn j)
    (hf : ∀ t, t.state = j → (f t).EndsIn k) : (x.andThen f).EndsIn k := by
  cases x with
  | go t => exact hf t hx
  | ended t => exact hx

theorem endsIn_validate (s : Block) : (validate s).EndsIn s.state := by
  rcases validate_cases s with ⟨-, he⟩ | ⟨a, b, -, he⟩ <;> rw [he]
  · exact rfl
  · exact endsIn_raise (by decide) ..

theorem endsIn_startPack (s : Block) : (startPack s).EndsIn .pack :=
  (endsIn_validate _).andThen fun _ _ => rfl

theorem endsIn_startUnpack (s : Block) : (startUnpack s).EndsIn .unpack :=
  (endsIn_validate _).andThen fun _ _ => rfl

theorem appendBits_state (c : Bits) (s : Block) : (appendBits c s).state = s.state := by
  induction c generalizing s with
  | nil => rfl
  | cons x c ih =>
    have hbit : (appendBit x s).state = s.state := by
      unfold appendBit
      dsimp only
      split <;> rfl
    rw [appendBits_cons, ih, hbit]

theorem endsIn_packPush (d : Byte) (s : Block) : (packPush d s).EndsIn s.state := by
  unfold packPush
  split
  · exact appendBits_state _ s
  · exact endsIn_raise (by decide) ..

theorem endsIn_packFinish (s : Block) : (packFinish s).EndsIn .done := rfl

theorem endsIn_feedBits (c : Bits) (s : Block) : (feedBits c s).EndsIn s.state := by
  induction c generalizing s with
  | nil => exact rfl
  | cons x c ih =>
    have hbit : (feedBit x s).EndsIn s.state := by
      rcases feedBit_cases x s with ⟨b, -, -, he⟩ | ⟨-, -, he⟩ | ⟨-, -, he⟩ <;> rw [he]
      · exact rfl
      · exact rfl
      · exact ⟨rfl, nofun⟩
    exact hbit.andThen fun t ht => ht ▸ ih t

theorem endsIn_unpackPush (d : Byte) (s : Block) : (unpackPush d s).EndsIn s.state := by
  refine Flow.EndsIn.andThen (j := s.state) ?_ fun _ ht => ht
  split
  · exact endsIn_feedBits _ (dropHold s)
  · exact rfl

theorem endsIn_feedFinal (s : Block) : (feedFinal s).EndsIn s.state := by
  unfold feedFinal
  split
  · split
    · exact endsIn_raise (by decide) ..
    · exact endsIn_feedBits _ (dropHold s)
  · exact endsIn_feedBits _ (dropHold s)

theorem endsIn_unpackFinish (s : Block) : (unpackFinish s).EndsIn .done := by
  refine Flow.EndsIn.andThen (j := s.state) ?_ fun t _ => ?_
  · split
    · exact endsIn_feedFinal s
    · exact rfl
  · split
    · exact endsIn_raise (by decide) ..
    · exact rfl

/-- The state in which a command that raises nothing leaves the block: the moves of R128. -/
def stateAfter : Command → JobState → JobState
  | .startPack, _ => .pack
  | .startUnpack, _ => .unpack
  | .finish, .pack => .done
  | .finish, .unpack => .done
  | .abort, _ => .idle
  | _, j => j

theorem endsIn_ruleOf (c : Command) (s : Block) : (ruleOf c s).EndsIn (stateAfter c s.state) := by
  cases c with
  | nop | abort | clrtab => exact rfl
  | startPack => exact endsIn_startPack s
  | startUnpack => exact endsIn_startUnpack s
  | push d =>
    simp only [ruleOf, pushRule]
    split
    · exact endsIn_packPush d s
    · exact endsIn_unpackPush d s
    · exact rfl
  | finish =>
    cases hs : s.state with
    | pack => rw [ruleOf_finish_pack hs]; exact endsIn_packFinish s
    | unpack => rw [ruleOf_finish_unpack hs]; exact endsIn_unpackFinish s
    | idle | done | error => simp [ruleOf, finishRule, hs, stateAfter, Flow.EndsIn]

/-! ## The moves of STATE -/

/-- A command leaves STATE, or fails, or makes its move where R230 lets it run. -/
theorem execute_state_cases (c : Command) (cfg : Config) (s : Block) :
    let t := (execute c (ruleOf c) cfg s).block
    t.state = s.state ∨ Failed t ∨ (Accepts cfg c s ∧ t.state = stateAfter c s.state) := by
  intro t
  rcases execute_block_cases c (ruleOf c) cfg s with h | ⟨e, hne, h⟩ | ⟨ha, h⟩ <;>
    rw [show t = _ from h]
  · exact .inl rfl
  · exact .inr (.inl (failed_raise hne ..))
  · exact .inr ((endsIn_ruleOf c s).block.symm.imp_right fun hs => ⟨ha, hs⟩)

/-- A write of the table leaves STATE, or fails with TABLE_BUSY (R73). -/
theorem tableWrite_state_cases (a : Addr) {store : Block → Block} {s : Block}
    (h : (store s).state = s.state) :
    (tableWrite a store s).block.state = s.state ∨ Failed (tableWrite a store s).block := by
  rcases tableWrite_cases a store s with ⟨-, he⟩ | ⟨-, he⟩ <;> rw [he]
  · exact .inr (failed_raise (by decide) ..)
  · exact .inl h

/-- An event leaves STATE, or fails, or is reset, or the word of a command that makes its move. -/
theorem Effect.state_cases {cfg : Config} {s t : Block} {e : Event} (h : Effect cfg s e t) :
    t.state = s.state ∨ Failed t ∨ (e = .reset ∧ t.state = .idle) ∨
    ∃ c, e = .access (.write 0x00C (encodeCommand c)) ∧ Accepts cfg c s ∧
      t.state = stateAfter c s.state := by
  cases h with
  | reset => exact .inr (.inr (.inl ⟨rfl, rfl⟩))
  | command c =>
    exact (execute_state_cases c cfg s).imp_right (.imp_right fun h => .inr ⟨c, rfl, h⟩)
  | illegal w =>
    unfold executeIllegal
    split
    · exact .inl rfl
    · exact .inr (.inl (failed_raise (by decide) ..))
  | len b v => exact (tableWrite_state_cases _ rfl).imp_right .inl
  | bits b w v => exact (tableWrite_state_cases _ rfl).imp_right .inl
  | ctrl v | tail v | pop x rest hq | read a => exact .inl rfl
  | rejected a _ _ =>
    rcases busError_cases a s with ⟨-, he⟩ | ⟨-, he⟩ <;> rw [he]
    · exact .inl rfl
    · exact .inr (.inl (failed_raise (by decide) ..))

/-- R230 lets START run only between jobs. -/
theorem between_of_accepts_start {c : Command} (hc : c = .startPack ∨ c = .startUnpack) {cfg : Config}
    {s : Block} (ha : Accepts cfg c s) : s.state = .idle ∨ s.state = .done := by
  rcases ha with ⟨-, hr⟩ | ⟨-, hl, -⟩
  · rcases hc with rfl | rfl <;> cases hr
  · exact between_of_legal_start hc hl

/-- Settles O29: the events that can move STATE, and for a command the move of R128. -/
theorem stateMovesOnlyByItsCommand : Obligations.StateMovesOnlyByItsCommand := by
  intro s t h hne
  obtain ⟨e, hp, -, he⟩ := effect_of_step h
  rcases he.state_cases with hs | hf | ⟨rfl, hi⟩ | ⟨c, rfl, ha, hm⟩
  · exact absurd hs hne
  · exact .inr (.inr (.inr (.inr hf)))
  · exact .inr (.inr (.inr (.inl ⟨hi, .inl hp⟩)))
  · cases c with
    | startPack => exact .inl ⟨hm, between_of_accepts_start (.inl rfl) ha, hp⟩
    | startUnpack => exact .inr (.inl ⟨hm, between_of_accepts_start (.inr rfl) ha, hp⟩)
    | finish =>
      obtain ⟨hs, -⟩ := job_of_accepts rfl ha
      have hd : t.block.state = .done := by
        rcases hs with hs | hs <;> rw [hm, hs] <;> rfl
      exact .inr (.inr (.inl ⟨hd, hs, hp⟩))
    | abort => exact .inr (.inr (.inr (.inl ⟨hm, .inr hp⟩)))
    | nop | push d | clrtab => exact absurd hm hne

/-! ## What every command leaves unchanged -/

/-- The four bits of CTRL (R24). -/
def Block.ctrl (s : Block) : Bool × Bool × Bool × Bool := (s.tailmode, s.ieErr, s.ieDone, s.ieOut)

theorem Appends.ctrl_eq {n : Nat} {s t : Block} (h : Appends n s t) : t.ctrl = s.ctrl := by
  simp [Block.ctrl, h.tailmode, h.ieErr, h.ieDone, h.ieOut]

/-- No command changes CTRL: ABORT by its rule, and every other appends to OUTQ and keeps it. -/
theorem ctrl_execute (c : Command) (cfg : Config) (s : Block) :
    (execute c (ruleOf c) cfg s).block.ctrl = s.ctrl := by
  by_cases ha : c = .abort
  · subst ha
    rw [execute_abort]
    rfl
  · by_cases hf : c = .finish ∧ s.state = .pack
    · obtain ⟨rfl, hp⟩ := hf
      exact (appends_execute_finish cfg hp).ctrl_eq
    · obtain ⟨n, h⟩ := appends_execute ha cfg hf
      exact h.ctrl_eq

/-- No command but CLRTAB changes the table, in any state. -/
theorem table_execute_of_ne_clrtab {c : Command} (hc : c ≠ .clrtab) (cfg : Config) (s : Block) :
    (execute c (ruleOf c) cfg s).block.table = s.table := by
  rcases execute_block_cases c (ruleOf c) cfg s with h | ⟨e, -, h⟩ | ⟨-, h⟩ <;> rw [h]
  · exact table_raise ..
  · exact table_ruleOf hc s

/-- Settles O42: CTRL and the table by their own lemmas; the host's side is not the block's. -/
theorem commandsKeepCtrlAndTable : Obligations.CommandsKeepCtrlAndTable := by
  intro c s t h
  rw [exec_ofCommand, execCommand_eq] at h
  cases h
  have hctrl := ctrl_execute c s.cfg s.block
  simp only [Block.ctrl, Prod.mk.injEq] at hctrl
  obtain ⟨hm, he, hd, ho⟩ := hctrl
  exact ⟨rfl, rfl, rfl, hm, he, hd, ho, fun hc => Prod.mk.inj (table_execute_of_ne_clrtab hc s.cfg s.block)⟩

end Sys2Proof.Machine
end

section
/-!
SUPPORT. The final byte of a packed stream, expanded again, and the bits that a pack job holds and flushes
(spec/20_memory.md R66; spec/41_pack.md R140 to R149; spec/42_unpack.md R162, R169, R170).
-/

namespace Sys2Proof.Machine

/-! ## The byte of a chunk -/

/-- A chunk of at most 8 bits fits its byte (R66). -/
theorem chunkByte_toNat {c : Bits} (h : c.length ≤ 8) : (chunkByte c).toNat = bitsToNat c := by
  have hc := bitsToNat_lt c
  have hp : 2 ^ c.length ≤ 2 ^ 8 := Nat.pow_le_pow_right (by decide) h
  rw [chunkByte, BitVec.toNat_ofNat, Nat.mod_eq_of_lt (by omega)]

/-- The chunk is the low bits of its byte, as many as it has (R170). -/
theorem lowBits_chunkByte {c : Bits} (h : c.length ≤ 8) : lowBits c.length (chunkByte c).toNat = c := by
  rw [chunkByte_toNat h, lowBits_bitsToNat]

/-- A byte other than 0 expands from its highest 1 on (R162). -/
theorem expandFinalCompat_of_ne_zero {v : Byte} (h : v.toNat ≠ 0) :
    expandFinalCompat v = lowBits (Nat.log2 v.toNat + 1) v.toNat :=
  if_neg fun hv => h (congrArg BitVec.toNat hv)

/-- A chunk that begins with 1 comes back whole (R149). -/
theorem expandFinalCompat_chunkByte_true {c : Bits} (h : (true :: c).length ≤ 8) :
    expandFinalCompat (chunkByte (true :: c)) = true :: c := by
  have hc := bitsToNat_lt (true :: c)
  have hge : 2 ^ c.length ≤ bitsToNat (true :: c) := by simp
  have hne : bitsToNat (true :: c) ≠ 0 := Nat.ne_of_gt (Nat.lt_of_lt_of_le (Nat.two_pow_pos _) hge)
  have hlog : Nat.log2 (bitsToNat (true :: c)) = c.length := (Nat.log2_eq_iff hne).mpr ⟨hge, hc⟩
  rw [expandFinalCompat_of_ne_zero (by rwa [chunkByte_toNat h]), chunkByte_toNat h, hlog,
    ← List.length_cons, lowBits_bitsToNat]

/-- A longer chunk that begins with 0 loses that bit at least (R149). -/
theorem expandFinalCompat_chunkByte_false {c : Bits} (h : (false :: c).length ≤ 8) (hc : c ≠ []) :
    (expandFinalCompat (chunkByte (false :: c))).length < (false :: c).length := by
  have hv : (chunkByte (false :: c)).toNat = bitsToNat c := by rw [chunkByte_toNat h]; simp
  have hpos := List.length_pos_of_ne_nil hc
  by_cases h0 : bitsToNat c = 0
  · have : chunkByte (false :: c) = 0 := BitVec.eq_of_toNat_eq (hv.trans h0)
    simpa [expandFinalCompat, this] using hpos
  · have := (Nat.log2_lt h0).mpr (bitsToNat_lt c)
    rw [expandFinalCompat_of_ne_zero (by rwa [hv]), lowBits_length, hv, List.length_cons]
    omega

/-- Settles O55, by the chunk's first bit. -/
theorem finalByteExpansions : Obligations.FinalByteExpansions := by
  intro c h1 h8
  rw [← and_assoc]
  refine ⟨?_, lowBits_chunkByte h8⟩
  match c with
  | [] => simp at h1
  | true :: c =>
    exact ⟨iff_of_true (expandFinalCompat_chunkByte_true h8) (.inl rfl), fun h => absurd (.inl rfl) h⟩
  | [false] => exact ⟨iff_of_true rfl (.inr rfl), fun h => absurd (.inr rfl) h⟩
  | false :: x :: c =>
    have hlt := expandFinalCompat_chunkByte_false h8 (List.cons_ne_nil x c)
    exact ⟨iff_of_false (fun h => by rw [h] at hlt; exact Nat.lt_irrefl _ hlt) (by simp), fun _ => hlt⟩

/-! ## PUSH and FINISH of a pack job -/

/-- PUSH and FINISH run in a job with 32 free slots (R230). -/
theorem accepts_of_job {c : Command} (hc : (∃ d, c = .push d) ∨ c = .finish) {cfg : Config} {s : Block}
    (hs : s.state = .pack ∨ s.state = .unpack) (hq : s.outq.length + 32 ≤ cfg.outqDepth) :
    Accepts cfg c s := by
  refine .inr ⟨?_, ?_, fun _ => decide_eq_true hq⟩
  · rcases hs with hs | hs <;> simp [hs]
  · rcases hc with ⟨d, rfl⟩ | rfl <;> rcases hs with hs | hs <;> simp [legal, hs]

/-- Settles O20: NO_CODE, or the code appended to the bits held. -/
theorem packPushAppendsTheCode : Obligations.PackPushAppendsTheCode := by
  intro s d hi hs hq
  have hrun : exec (.push d) s = .next (s.onBlock (ruleOf (.push d))) :=
    exec_of_accepts (c := .push d) (accepts_of_job (.inl ⟨d, rfl⟩) (.inl hs) hq)
  have hh := holds_acc hi.block.accRange
  refine ⟨fun hv => ?_, fun hv => ⟨?_, packedBytes_length_of_full _ (fullPart_length _), ?_⟩⟩
  · rw [hrun, State.onBlock, ruleOf_push_pack hs, packPush, if_neg (by simp [hv]), BitVec.ofNat_toNat]
    rfl
  · rw [hrun, State.onBlock, ruleOf_push_pack hs, packPush, if_pos hv, appendBits_eq hh]
    rfl
  · have hlt := hh.length_lt
    have hle := code_length_le s.block d
    rw [List.length_append]
    omega

/-- FINISH of a pack job that holds `A` (R145). -/
theorem packFinish_eq {s : Block} {A : Bits} (h : Holds s A) :
    packFinish s = .go { s with
      outq := s.outq ++ packedBytes A
      outcnt := if A = [] then s.outcnt else s.outcnt + 1
      tail := if A ≠ [] then BitVec.ofNat 4 A.length else if s.bitcnt = 0 then 0 else 8
      accbits := 0, acclen := 0, state := .done } := by
  have hl := h.length_lt
  unfold packFinish
  by_cases hA : A = []
  · subst hA
    by_cases hb : s.bitcnt = 0#64 <;> simp [h.len, hb]
  · have hbyte : s.accbits.setWidth 8 = chunkByte A := by
      rw [chunkByte, ← h.bits, BitVec.ofNat_toNat]
    have hlen : s.acclen.setWidth 4 = BitVec.ofNat 4 A.length := by rw [← h.len, BitVec.ofNat_toNat]
    have hpos := List.length_pos_of_ne_nil hA
    simp [h.len, hpos, hA, packedBytes_short hA hl, hbyte, hlen, Block.outPush]

/-- Settles O21: what ACC holds is flushed. -/
theorem packFinishFlushesTheTail : Obligations.PackFinishFlushesTheTail := by
  intro s hi hs hq
  have hrun : exec .finish s = .next (s.onBlock (ruleOf .finish)) :=
    exec_of_accepts (c := .finish) (accepts_of_job (.inr rfl) (.inl hs) hq)
  rw [hrun, State.onBlock, ruleOf_finish_pack hs, packFinish_eq (holds_acc hi.block.accRange)]
  rfl

end Sys2Proof.Machine
end

section
/-!
SUPPORT. What a job neither reads nor writes of the other job's state (spec/41_pack.md R144; spec/42_unpack.md R168,
R174), and the pack invariant of R140.
-/

namespace Sys2Proof.Machine

/-! ## The decoder's state in a pack job -/

/-- The block with other values in TAIL and the decoder's fields. A rule that commutes with this neither reads
nor writes them. -/
def Block.withDecoder (tl : BitVec 4) (j : Bool) (cd : Bits) (h : Byte) (hv : Bool) (s : Block) : Block :=
  { s with tail := tl, jobtm := j, cand := cd, hold := h, holdv := hv }

section

variable (tl : BitVec 4) (j : Bool) (cd : Bits) (h : Byte) (hv : Bool)

theorem appendBit_withDecoder (x : Bool) (s : Block) :
    appendBit x (s.withDecoder tl j cd h hv) = (appendBit x s).withDecoder tl j cd h hv := by
  unfold appendBit Block.withDecoder
  dsimp only
  split <;> rfl

theorem appendBits_withDecoder (c : Bits) (s : Block) :
    appendBits c (s.withDecoder tl j cd h hv) = (appendBits c s).withDecoder tl j cd h hv := by
  induction c generalizing s with
  | nil => rfl
  | cons x c ih => rw [appendBits_cons, appendBits_cons, appendBit_withDecoder, ih]

theorem packPush_withDecoder (d : Byte) (s : Block) : (packPush d (s.withDecoder tl j cd h hv)).block =
    (packPush d s).block.withDecoder tl j cd h hv := by
  by_cases hvd : s.valid d = true
  · rw [packPush, packPush, if_pos hvd, if_pos (show (s.withDecoder tl j cd h hv).valid d = true from hvd)]
    exact appendBits_withDecoder tl j cd h hv (s.code d) s
  · rw [packPush, packPush, if_neg hvd, if_neg (show ¬ (s.withDecoder tl j cd h hv).valid d = true from hvd)]
    rfl

/-- FINISH overwrites TAIL (R145). -/
theorem packFinish_withDecoder (s : Block) : (packFinish (s.withDecoder tl j cd h hv)).block =
    (packFinish s).block.withDecoder (packFinish s).block.tail j cd h hv := by
  unfold packFinish Block.withDecoder
  dsimp only
  split
  · rfl
  · split <;> rfl

/-- PUSH and FINISH of a pack job commute with other values in the decoder's fields, but for TAIL at a FINISH
that ends the job (R144, R145). -/
theorem execute_withDecoder {c : Command} (hc : (∃ d, c = .push d) ∨ c = .finish) (cfg : Config)
    {s : Block} (hs : s.state = .pack) :
    (execute c (ruleOf c) cfg (s.withDecoder tl j cd h hv)).block =
      (execute c (ruleOf c) cfg s).block.withDecoder
        (if (execute c (ruleOf c) cfg s).block.state = .done then (execute c (ruleOf c) cfg s).block.tail
          else tl) j cd h hv := by
  have hne : s.state ≠ .error := by simp [hs]
  have hs' : (s.withDecoder tl j cd h hv).state = .pack := hs
  have hrule : (ruleOf c (s.withDecoder tl j cd h hv)).block = (ruleOf c s).block.withDecoder
      (if (ruleOf c s).block.state = .done then (ruleOf c s).block.tail else tl) j cd h hv := by
    rcases hc with ⟨d, rfl⟩ | rfl
    · have hnd : (packPush d s).block.state ≠ .done := by
        rcases (endsIn_packPush d s).block with he | ⟨he, -⟩ <;> simp [he, hs]
      rw [ruleOf_push_pack hs', ruleOf_push_pack hs, if_neg hnd, packPush_withDecoder]
    · rw [ruleOf_finish_pack hs', ruleOf_finish_pack hs, packFinish_withDecoder]
      rfl
  rw [execute, execute, if_neg hne, if_neg (show (s.withDecoder tl j cd h hv).state ≠ .error from hne)]
  by_cases hl : legal c s = false
  · rw [if_pos hl, if_pos (show legal c (s.withDecoder tl j cd h hv) = false from hl)]
    rfl
  · rw [if_neg hl, if_neg (show ¬ legal c (s.withDecoder tl j cd h hv) = false from hl)]
    by_cases hr : (needsRdy c && !s.rdy cfg) = true
    · rw [if_pos hr, if_pos (show (needsRdy c && !(s.withDecoder tl j cd h hv).rdy cfg) = true from hr)]
      rfl
    · rw [if_neg hr, if_neg (show ¬ (needsRdy c && !(s.withDecoder tl j cd h hv).rdy cfg) = true from hr)]
      exact hrule

end

/-- PUSH ends no job. -/
theorem execute_push_state_ne_done (d : Byte) (cfg : Config) {s : Block} (hs : s.state = .pack) :
    (execute (.push d) (ruleOf (.push d)) cfg s).block.state ≠ .done := by
  rcases execute_state_cases (.push d) cfg s with he | ⟨he, -⟩ | ⟨-, he⟩ <;> simp [he, hs, stateAfter]

/-- A command's next state, in terms of the checks of R230 and the command's rule. -/
theorem exec_ofCommand_eq_next_iff {c : Command} {s t : State} :
    exec (.ofCommand c) s = .next t ↔ t = s.onBlock (execute c (ruleOf c) s.cfg) := by
  rw [exec_ofCommand, execCommand_eq, Host.Outcome.next.injEq, eq_comm]

/-- Settles O44: PUSH and FINISH commute with other values in the decoder's fields. -/
theorem packJobDoesNotReadTheDecoder : Obligations.PackJobDoesNotReadTheDecoder := by
  intro c s t tl j hv cd h hc hs ht
  obtain rfl := exec_ofCommand_eq_next_iff.mp ht
  refine exec_ofCommand_eq_next_iff.mpr ?_
  have hb := execute_withDecoder tl j cd h hv hc s.cfg hs
  exact (congrArg (fun b => { s with block := b }) hb).symm

/-! ## The packer's state in an unpack job -/

/-- What a PUSH or FINISH of an unpack job leaves as it is: ACC, JOBTM and TAIL (R168, R174). -/
def Block.unpackFrame (s : Block) : BitVec 7 × BitVec 3 × Bool × BitVec 4 :=
  (s.accbits, s.acclen, s.jobtm, s.tail)

theorem unpackFrame_andThen {x : Flow} {f : Block → Flow}
    (hf : ∀ t, (f t).block.unpackFrame = t.unpackFrame) :
    (x.andThen f).block.unpackFrame = x.block.unpackFrame := by
  cases x with
  | go t => exact hf t
  | ended t => rfl

theorem unpackFrame_feedBits (c : Bits) (s : Block) : (feedBits c s).block.unpackFrame = s.unpackFrame := by
  induction c generalizing s with
  | nil => rfl
  | cons x c ih =>
    have hbit : (feedBit x s).block.unpackFrame = s.unpackFrame := by
      rcases feedBit_cases x s with ⟨b, -, -, he⟩ | ⟨-, -, he⟩ | ⟨-, -, he⟩ <;> rw [he] <;> rfl
    exact (unpackFrame_andThen ih).trans hbit

theorem unpackFrame_unpackPush (d : Byte) (s : Block) :
    (unpackPush d s).block.unpackFrame = s.unpackFrame := by
  refine (unpackFrame_andThen fun _ => rfl).trans ?_
  split
  · exact unpackFrame_feedBits _ (dropHold s)
  · rfl

theorem unpackFrame_feedFinal (s : Block) : (feedFinal s).block.unpackFrame = s.unpackFrame := by
  unfold feedFinal
  split
  · split
    · rfl
    · exact unpackFrame_feedBits _ (dropHold s)
  · exact unpackFrame_feedBits _ (dropHold s)

theorem unpackFrame_unpackFinish (s : Block) : (unpackFinish s).block.unpackFrame = s.unpackFrame := by
  refine (unpackFrame_andThen fun t => ?_).trans ?_
  · split <;> rfl
  · split
    · exact unpackFrame_feedFinal s
    · rfl

/-- PUSH and FINISH of an unpack job, run or stopped by the checks of R230. -/
theorem unpackFrame_execute {c : Command} (hc : (∃ d, c = .push d) ∨ c = .finish) (cfg : Config)
    {s : Block} (hs : s.state = .unpack) :
    (execute c (ruleOf c) cfg s).block.unpackFrame = s.unpackFrame := by
  rcases execute_block_cases c (ruleOf c) cfg s with he | ⟨e, -, he⟩ | ⟨-, he⟩ <;> rw [he]
  · rfl
  · rcases hc with ⟨d, rfl⟩ | rfl
    · rw [ruleOf_push_unpack hs]; exact unpackFrame_unpackPush d s
    · rw [ruleOf_finish_unpack hs]; exact unpackFrame_unpackFinish s

/-- Settles O43: in a pack job the decoder's fields are those that could have been any, by O44's lemma; in an
unpack job the frame is kept. -/
theorem jobsKeepEachOthersState : Obligations.JobsKeepEachOthersState := by
  intro c s t hc ht
  obtain rfl := exec_ofCommand_eq_next_iff.mp ht
  refine ⟨fun hs => ?_, fun hs => ?_⟩
  · have hb := execute_withDecoder s.block.tail s.block.jobtm s.block.cand s.block.hold s.block.holdv hc
      s.cfg hs
    refine ⟨(congrArg Block.jobtm hb :), (congrArg Block.cand hb :), (congrArg Block.hold hb :),
      (congrArg Block.holdv hb :), fun hne => (congrArg Block.tail hb :).trans (if_neg ?_)⟩
    rcases hc with ⟨d, rfl⟩ | rfl
    · exact execute_push_state_ne_done d s.cfg hs
    · exact absurd rfl hne
  · have hf := unpackFrame_execute hc s.cfg hs
    simp only [Block.unpackFrame, Prod.mk.injEq] at hf
    exact hf

/-! ## The pack invariant -/

/-- Slicing past a multiple of 8 bits. -/
theorem fullPart_append_of_full {B : Bits} (n : Nat) (hB : B.length = 8 * n) (c : Bits) :
    fullPart (B ++ c) = B ++ fullPart c ∧ shortPart (B ++ c) = shortPart c := by
  have h : 8 * ((B ++ c).length / 8) = B.length + 8 * (c.length / 8) := by
    rw [List.length_append]; omega
  rw [fullPart, shortPart, h, List.take_length_add_append, List.drop_length_add_append, fullPart, shortPart]
  exact ⟨rfl, rfl⟩

/-- A longer stream's full chunks are those of the stream, then those of the bits held and appended (R141). -/
theorem fullPart_append (S c : Bits) :
    fullPart (S ++ c) = fullPart S ++ fullPart (shortPart S ++ c) ∧
      shortPart (S ++ c) = shortPart (shortPart S ++ c) := by
  have h := fullPart_append_of_full _ (fullPart_length S) (shortPart S ++ c)
  rwa [← List.append_assoc, fullPart_append_shortPart] at h

/-- In a pack job, ACC holds the bits after the stream's full chunks (R140). -/
theorem Block.PackTrace.holds {s : Block} {S : Bits} {emitted : List Byte} (h : s.PackTrace S emitted) :
    Holds s (shortPart S) := ⟨by rw [h.acclen, shortPart_length], h.accbits⟩

/-- Appending bits extends the stream by them (R140, R141). -/
theorem Block.PackTrace.appendBits {s : Block} {S : Bits} {emitted : List Byte}
    (h : s.PackTrace S emitted) (c : Bits) :
    ∃ new, (appendBits c s).outq = s.outq ++ new ∧
      (Machine.appendBits c s).PackTrace (S ++ c) (emitted ++ new) := by
  have heq := appendBits_eq h.holds c
  obtain ⟨hfull, hshort⟩ := fullPart_append S c
  have hrest := holds_appendBits h.holds c
  rw [← hshort] at hrest
  refine ⟨packedBytes (fullPart (shortPart S ++ c)), by rw [heq],
    (appendBits_state c s).trans h.open_, ?_, ?_, ?_, ?_, hrest.bits⟩
  · rw [congrArg Block.bitcnt heq, h.bitcnt, ← BitVec.ofNat_add, ← List.length_append]
  · rw [congrArg Block.outcnt heq, h.outcnt, List.length_append (as := emitted), BitVec.ofNat_add,
      packedBytes_length_of_full _ (fullPart_length _)]
  · rw [hfull, packedBytes_append _ (fullPart_length S), ← h.bytes]
  · rw [hrest.len, shortPart_length]

/-- PUSH in a pack job: with RDY = 1 and a code for the byte the stream grows by that code, and otherwise the
job ends in ERROR (R142, R230). -/
theorem Block.PackTrace.execute_push {s : Block} {S : Bits} {emitted : List Byte}
    (h : s.PackTrace S emitted) (d : Byte) (cfg : Config) :
    let t := (execute (.push d) (ruleOf (.push d)) cfg s).block
    (s.rdy cfg = true ∧ s.valid d = true ∧
      ∃ new, t.outq = s.outq ++ new ∧ t.PackTrace (S ++ s.code d) (emitted ++ new)) ∨
    (¬ (s.rdy cfg = true ∧ s.valid d = true) ∧ t.state = .error) := by
  intro t
  have hne : s.state ≠ .error := by simp [h.open_]
  have hl : legal (.push d) s = true := by simp [legal, h.open_]
  rcases execute_cases (.push d) (ruleOf (.push d)) cfg s with ⟨hs, -⟩ | ⟨hs, -⟩ | ⟨-, hf, -⟩ |
    ⟨-, -, -, hr, he⟩ | ⟨-, -, hr, he⟩
  · exact absurd hs hne
  · exact absurd hs hne
  · rw [hl] at hf; cases hf
  · exact .inr ⟨by simp [hr], by rw [show t = _ from congrArg Flow.block he]; rfl⟩
  · have ht : t = (packPush d s).block := by
      rw [← ruleOf_push_pack h.open_]; exact congrArg Flow.block he
    rw [ht, packPush]
    by_cases hv : s.valid d = true
    · rw [if_pos hv]
      exact .inl ⟨hr rfl, hv, h.appendBits _⟩
    · rw [if_neg hv]
      exact .inr ⟨fun hv' => hv hv'.2, rfl⟩

/-- START_PACK that opens a job has checked the table, and nothing is packed yet (R121, R140). -/
theorem packTrace_startPack {s : Block} (ht : (startPack s).block.state = .pack) :
    (startPack s).block.PackTrace [] [] := by
  unfold startPack at ht ⊢
  rcases validate_cases { s with bitcnt := 0, outcnt := 0, accbits := 0, acclen := 0 } with
    ⟨-, he⟩ | ⟨a, b, -, he⟩ <;> rw [he] at ht ⊢
  · exact ⟨rfl, rfl, rfl, rfl, rfl, rfl⟩
  · cases ht

/-- Every event but PUSH that leaves the job open keeps the trace. -/
theorem Block.PackTrace.effect {s t : Block} {S : Bits} {emitted : List Byte} {cfg : Config} {e : Event}
    (h : s.PackTrace S emitted) (he : Effect cfg s e t) (ht : t.state = .pack)
    (hne : ∀ d, e ≠ issueCommand (.push d)) : t.PackTrace S emitted := by
  have hact : s.active = true := active_iff.mpr (.inl h.open_)
  have hnb : ¬ (s.state = .idle ∨ s.state = .done) := by simp [h.open_]
  cases he with
  | reset => cases ht
  | command c =>
    rcases execute_block_cases c (ruleOf c) cfg s with hb | ⟨e, -, hb⟩ | ⟨ha, hb⟩ <;> rw [hb] at ht ⊢
    · exact h
    · cases ht
    · cases c with
      | nop => exact h
      | startPack => exact absurd (between_of_accepts_start (.inl rfl) ha) hnb
      | startUnpack => exact absurd (between_of_accepts_start (.inr rfl) ha) hnb
      | push d => exact absurd rfl (hne d)
      | finish => rw [ruleOf_finish_pack h.open_] at ht; cases ht
      | abort => cases ht
      | clrtab => exact absurd ha (not_accepts_clrtab hact)
  | illegal w =>
    rw [executeIllegal, if_neg (by simp [h.open_])] at ht
    cases ht
  | len b v => rw [tableWrite, if_pos hact] at ht; cases ht
  | bits b w v => rw [tableWrite, if_pos hact] at ht; cases ht
  | ctrl v | tail v | pop x rest hq =>
    exact ⟨h.open_, h.bitcnt, h.outcnt, h.bytes, h.acclen, h.accbits⟩
  | read a => exact h
  | rejected a r hd =>
    rw [busError, if_neg (by simp [h.open_])] at ht
    cases ht

/-- Settles O50: START_PACK, PUSH, and every other event by its effect. -/
theorem packTraceIsKept : Obligations.PackTraceIsKept := by
  refine ⟨fun s t hs ht hp => ?_, fun s t d S emitted h ht hp => ?_, fun s t S emitted h ht hp hne => ?_⟩
  · obtain rfl := (exec_ofCommand_eq_next_iff (c := .startPack)).mp ht
    have hns : s.block.state ≠ .pack := by rcases hs with hs | hs <;> simp [hs]
    rw [State.onBlock_block] at hp ⊢
    rcases execute_block_cases .startPack (ruleOf .startPack) s.cfg s.block with hb | ⟨e, -, hb⟩ |
      ⟨-, hb⟩ <;> rw [hb] at hp ⊢
    · exact absurd hp hns
    · cases hp
    · exact packTrace_startPack hp
  · obtain rfl := (exec_ofCommand_eq_next_iff (c := .push d)).mp ht
    rw [State.onBlock_block] at hp ⊢
    rcases h.execute_push d s.cfg with ⟨-, -, hnew⟩ | ⟨-, he⟩
    · exact hnew
    · rw [he] at hp
      cases hp
  · obtain ⟨e, he, -, heff⟩ := effect_of_step ht
    rw [he] at hne
    exact h.effect heff hp fun d hd => hne d (congrArg some hd)

end Sys2Proof.Machine
end

section
/-!
SUPPORT. The host's events inside a job as functions of the machine, a host that drains OUTQ after each PUSH, and the
whole pack job (spec/30_encoding.md R98 to R101; spec/41_pack.md R146, R148; spec/70_reset_and_hazards.md R253, R255).
-/

namespace Sys2Proof.Machine

/-! ## A job as a function of the machine -/

/-- The machine after the host has issued a command (R230). -/
def State.issue (s : State) (c : Command) : State := s.onBlock (execute c (ruleOf c) s.cfg)

/-- The machine after a read of DOUT (R195). -/
def State.afterDout (s : State) : State :=
  match s.block.outq with
  | [] => s.reply 0
  | x :: rest => s.popped x rest

theorem step_issueCommand (s : State) (c : Command) (es : List Event) :
    step { s with pending := issueCommand c :: es } = .next { s.issue c with pending := es } := by
  rw [stepRunsTheDecodedAccess _ _ _ es rfl (decodeAccess_write_cmd _),
    exec_wrCmd_of_ok (decodeCommand_encodeCommand c), execCommand_eq]
  rfl

theorem step_readDout (s : State) (es : List Event) :
    step { s with pending := readDout :: es } = .next { s.afterDout with pending := es } := by
  rw [stepRunsTheDecodedAccess _ (.read 0x010) .rdDout es rfl rfl]
  unfold exec execRdDout State.afterDout
  cases hq : s.block.outq with
  | nil => rfl
  | cons x rest =>
    simp only [doutWord_eq]
    rfl

/-- The machine after an operation of the host inside a job. -/
def JobOp.run (s : State) : JobOp → State
  | .push d => s.issue (.push d)
  | .readDout => s.afterDout

/-- The machine after a list of operations. -/
def State.runOps (s : State) (ops : List JobOp) : State := ops.foldl JobOp.run s

/-- The machine after a whole job. -/
def State.runJob (s : State) (start : Command) (ops : List JobOp) : State :=
  ((s.issue start).runOps ops).issue .finish

@[simp] theorem runOps_nil (s : State) : s.runOps [] = s := rfl

@[simp] theorem runOps_cons (s : State) (op : JobOp) (ops : List JobOp) :
    s.runOps (op :: ops) = (JobOp.run s op).runOps ops := rfl

theorem runOps_append (s : State) (ops ops' : List JobOp) :
    s.runOps (ops ++ ops') = (s.runOps ops).runOps ops' := List.foldl_append

/-- A run whose first event leaves `u` is a run of the other events from `u`. -/
theorem runs_cons_iff {s t u : State} {e : Event} {es : List Event}
    (h : step { s with pending := e :: es } = .next { u with pending := es }) :
    Runs s (e :: es) t ↔ Runs u es t := by
  unfold Runs
  simp only [List.length_cons, Host.Core.run]
  rw [show core.step { s with pending := e :: es } = _ from h]

theorem runs_runOps_iff {s t : State} (ops : List JobOp) (es : List Event) :
    Runs s (ops.map JobOp.event ++ es) t ↔ Runs (s.runOps ops) es t := by
  induction ops generalizing s with
  | nil => exact Iff.rfl
  | cons op ops ih =>
    rw [runOps_cons, ← ih]
    cases op with
    | push d => exact runs_cons_iff (step_issueCommand s (.push d) _)
    | readDout => exact runs_cons_iff (step_readDout s _)

/-- The one machine that a job ends in. -/
theorem runs_jobEvents_iff {s t : State} (start : Command) (ops : List JobOp) :
    Runs s (jobEvents start ops) t ↔ t = { s.runJob start ops with pending := [] } := by
  rw [jobEvents, runs_cons_iff (step_issueCommand s start _), runs_runOps_iff,
    runs_cons_iff (step_issueCommand _ .finish _), eq_comm (a := t)]
  exact Iff.of_eq (Host.Outcome.next.injEq _ _)

/-! ## Commands and reads of DOUT -/

/-- In ERROR a command that does not run there leaves the machine as it is (R228). -/
theorem issue_of_error {s : State} (hs : s.block.state = .error) {c : Command}
    (hc : runsInError c = false) : s.issue c = s := by
  rw [State.issue, State.onBlock, execute, if_pos hs, hc]
  rfl

/-- PUSH and FINISH in a job with RDY = 1 are the job's rules (R230). -/
theorem issue_block_of_job {s : State} {c : Command} (hc : (∃ d, c = .push d) ∨ c = .finish)
    (hs : s.block.state = .pack ∨ s.block.state = .unpack) (hr : s.block.rdy s.cfg = true) :
    (s.issue c).block = (ruleOf c s.block).block :=
  congrArg State.block
    (exec_ofCommand_eq_next_iff.mp (exec_of_accepts (accepts_of_job hc hs (of_decide_eq_true hr)))).symm

/-- A read of DOUT drops the head of OUTQ, if there is one, and nothing else of the block. -/
theorem afterDout_block (s : State) :
    s.afterDout.block = { s.block with outq := s.block.outq.tail } := by
  unfold State.afterDout
  cases hq : s.block.outq with
  | nil => exact congrArg (fun q => { s.block with outq := q }) hq
  | cons x rest => rfl

theorem doutBytes_append (vs ws : List Word) : doutBytes (vs ++ ws) = doutBytes vs ++ doutBytes ws := by
  simp [doutBytes]

/-- A read of DOUT that finds a byte returns that byte (R28). -/
theorem doutBytes_doutWord (x : Byte) : doutBytes [BitVec.ofNat 32 (256 + x.toNat)] = [x] := by
  rw [← doutWord_eq]
  revert x
  decide

/-- A read of DOUT moves a byte from OUTQ to the host, so what the host has or could read stays. -/
theorem output_afterDout (s : State) : s.afterDout.output = s.output := by
  unfold State.afterDout State.output
  cases hq : s.block.outq with
  | nil => simp [doutBytes, hq]
  | cons x rest => simp [State.popped, doutBytes_append, doutBytes_doutWord]

theorem inv_issue {s : State} (h : s.Inv) (c : Command) : (s.issue c).Inv :=
  ⟨h.cfg, inv_execute h.block c⟩

theorem inv_afterDout {s : State} (h : s.Inv) : s.afterDout.Inv :=
  have ht := stepKeepsTheInvariant { s with pending := [readDout] } _ ⟨h.cfg, h.block⟩ (step_readDout s [])
  ⟨ht.cfg, ht.block⟩

/-! ## A host that drains OUTQ -/

/-- With OUTQ empty, RDY = 1 at every legal OUTQ_DEPTH (R8, R27). -/
theorem rdy_of_outq_nil {s : State} (h : s.Inv) (hq : s.block.outq = []) :
    s.block.rdy s.cfg = true := by
  have hcfg := h.cfg
  rw [Config.valid, Bool.and_eq_true, decide_eq_true_eq] at hcfg
  rw [Block.rdy, hq, List.length_nil, Nat.zero_add, decide_eq_true_eq]
  exact hcfg.1

/-- One PUSH leaves at most 32 bytes in a queue that was empty (R27). -/
theorem outq_length_issue_push {s : State} (h : s.Inv) (hq : s.block.outq = []) (d : Byte) :
    (s.issue (.push d)).block.outq.length ≤ 32 := by
  obtain ⟨new, hnew, hp, hu, hn⟩ := oneCommandAddsAtMost32Bytes (.push d) s (s.issue (.push d)) h
    (.inl ⟨d, rfl⟩) (exec_ofCommand_eq_next_iff.mpr rfl)
  rw [hnew, hq, List.nil_append]
  by_cases hsp : s.block.state = .pack
  · exact hp hsp
  · by_cases hsu : s.block.state = .unpack
    · exact (hu hsu).trans (by decide)
    · simp [hn hsp hsu]

/-- What `n` reads of DOUT leave. -/
theorem runOps_readDout {P : State → Prop} (hread : ∀ s, P s → P s.afterDout) {s : State} (hi : s.Inv)
    (h : P s) (n : Nat) :
    let t := s.runOps (List.replicate n .readDout)
    P t ∧ t.Inv ∧ t.block.outq = s.block.outq.drop n := by
  induction n generalizing s with
  | zero => exact ⟨h, hi, rfl⟩
  | succ n ih =>
    obtain ⟨hP, hI, hq⟩ := ih (inv_afterDout hi) (hread s h)
    exact ⟨hP, hI, by rw [List.replicate_succ, runOps_cons, JobOp.run, hq, afterDout_block, List.drop_tail]⟩

/-- What reads of DOUT keep, and every PUSH with RDY = 1 extends, holds after a host has pushed `ds` and drained
OUTQ after each PUSH: RDY = 1 at each (R255 H1). -/
theorem runOps_drainedPushes {P : List Byte → State → Prop}
    (hread : ∀ ds s, P ds s → P ds s.afterDout)
    (hpush : ∀ ds d s, s.block.rdy s.cfg = true → P ds s → P (ds ++ [d]) (s.issue (.push d)))
    {ds₀ : List Byte} {s : State} (hi : s.Inv) (hq : s.block.outq = []) (h : P ds₀ s) (ds : List Byte) :
    let t := s.runOps (drainedPushes ds)
    P (ds₀ ++ ds) t ∧ t.Inv ∧ t.block.outq = [] := by
  induction ds generalizing ds₀ s with
  | nil => exact ⟨by rwa [List.append_nil], hi, hq⟩
  | cons d ds ih =>
    obtain ⟨hP, hI, hq'⟩ := runOps_readDout (hread _) (inv_issue hi (.push d))
      (hpush ds₀ d s (rdy_of_outq_nil hi hq) h) 32
    rw [List.drop_eq_nil_of_le (outq_length_issue_push hi hq d)] at hq'
    have ht := ih hI hq' hP
    rw [List.append_assoc, List.singleton_append] at ht
    rwa [drainedPushes, List.flatMap_cons, List.cons_append, runOps_cons, runOps_append]

/-! ## The pack job -/

/-- A pack job with the table of `s₀` has packed `ds` so far: the pack invariant, with what the host has or could
read as the bytes emitted (R140). -/
structure PackProgress (s₀ : Block) (ds : List Byte) (s : State) : Prop where
  trace : s.block.PackTrace (s₀.stream ds) s.output
  valid : s₀.AllValid ds
  table : s.block.table = s₀.table

/-- What the host has or could read, after a command that appended `new` to OUTQ. -/
theorem output_issue {s : State} {c : Command} {new : List Byte}
    (h : (s.issue c).block.outq = s.block.outq ++ new) :
    (s.issue c).output = s.output ++ new := by
  rw [State.output, State.output, List.append_assoc, ← h]
  rfl

theorem Block.SameTable.entry {s t : Block} (h : s.SameTable t) (b : Byte) :
    t.valid b = s.valid b ∧ t.code b = s.code b := entry_congr (h.1 b) (h.2 b)

theorem allValid_append {s : Block} {ds es : List Byte} (hd : s.AllValid ds) (he : s.AllValid es) :
    s.AllValid (ds ++ es) := fun x hx => (List.mem_append.mp hx).elim (hd x) (he x)

/-- PUSH in a pack job: the job has packed one more byte, or it has failed (R142). -/
theorem PackProgress.push {s₀ : Block} {ds : List Byte} {s : State} (h : PackProgress s₀ ds s) (d : Byte) :
    (s.block.rdy s.cfg = true ∧ s₀.valid d = true ∧ PackProgress s₀ (ds ++ [d]) (s.issue (.push d))) ∨
    (¬ (s.block.rdy s.cfg = true ∧ s₀.valid d = true) ∧ (s.issue (.push d)).block.state = .error) := by
  obtain ⟨hvalid, hcode⟩ := (sameTable_of_table_eq h.table).entry d
  rcases h.trace.execute_push d s.cfg with ⟨hr, hv, new, hnew, ht⟩ | ⟨hn, he⟩
  · rw [hvalid] at hv
    refine .inl ⟨hr, hv, ⟨?_, ?_, ?_⟩⟩
    · rw [output_issue (c := .push d) hnew, stream_append, stream_cons, stream_nil, List.append_nil, ← hcode]
      exact ht
    · exact allValid_append h.valid fun x hx => by rwa [List.mem_singleton.mp hx]
    · exact (table_execute (active_iff.mpr (.inl h.trace.open_)) _ _).trans h.table
  · exact .inr ⟨by rwa [hvalid] at hn, he⟩

theorem PackProgress.afterDout {s₀ : Block} {ds : List Byte} {s : State} (h : PackProgress s₀ ds s) :
    PackProgress s₀ ds s.afterDout := by
  obtain ⟨ht, hv, htab⟩ := h
  refine ⟨?_, hv, ?_⟩
  · rw [output_afterDout, afterDout_block]
    exact ⟨ht.open_, ht.bitcnt, ht.outcnt, ht.bytes, ht.acclen, ht.accbits⟩
  · rw [afterDout_block]
    exact htab

/-- Neither START adds a byte to OUTQ. -/
theorem outq_issue_start {c : Command} (hc : c = .startPack ∨ c = .startUnpack) (s : State) :
    (s.issue c).block.outq = s.block.outq := by
  have hrule : Appends 0 s.block (ruleOf c s.block).block := by
    rcases hc with rfl | rfl
    · exact appends_startPack s.block
    · exact appends_startUnpack s.block
  rw [State.issue, State.onBlock_block]
  rcases execute_block_cases c (ruleOf c) s.cfg s.block with h | ⟨e, -, h⟩ | ⟨-, h⟩ <;> rw [h]
  · rfl
  · obtain ⟨new, hq, hn⟩ := hrule.outq
    rw [hq, List.eq_nil_of_length_eq_zero (Nat.le_zero.mp hn), List.append_nil]

/-- START_PACK between jobs, with nothing read or in OUTQ: the job is open, or the table is refused (R121). -/
theorem issue_startPack_cases {s : State} (hr : s.ready) :
    (s.block.PrefixFree ∧ PackProgress s.block [] (s.issue .startPack)) ∨
    (¬ s.block.PrefixFree ∧ (s.issue .startPack).block.state = .error) := by
  obtain ⟨hs, hq, hrep⟩ := hr
  obtain ⟨hfree, hconf⟩ := (startPackOpensAPackJob s).1 hs hq
  have hiss : exec .startPack s = .next (s.issue .startPack) :=
    (exec_ofCommand_eq_next_iff (c := .startPack)).mpr rfl
  have hout : doutBytes s.replies ++ s.block.outq = [] := by rw [hq, hrep]; rfl
  rcases prefixFree_or_firstConflict s.block with hf | ⟨a, b, hab⟩
  · have hfree := hfree hf
    rw [hiss, Host.Outcome.next.injEq] at hfree
    rw [hfree]
    refine .inl ⟨hf, ⟨?_, nofun, rfl⟩⟩
    change Block.PackTrace _ [] (doutBytes s.replies ++ s.block.outq)
    rw [hout]
    exact ⟨rfl, rfl, rfl, rfl, rfl, rfl⟩
  · have hconf := hconf a b hab
    rw [hiss, Host.Outcome.next.injEq] at hconf
    rw [hconf]
    exact .inr ⟨fun hf => not_firstConflict_of_prefixFree hf a b hab, rfl⟩

/-- A pack job, with DOUT read at any point, has packed what was pushed, or has failed. -/
theorem packProgress_runOps {s₀ : Block} {ds : List Byte} {s : State}
    (h : PackProgress s₀ ds s ∨ s.block.state = .error) (ops : List JobOp) :
    PackProgress s₀ (ds ++ pushedBytes ops) (s.runOps ops) ∨ (s.runOps ops).block.state = .error := by
  induction ops generalizing ds s with
  | nil => rwa [pushedBytes, List.append_nil]
  | cons op ops ih =>
    cases op with
    | push d =>
      rw [pushedBytes, ← List.singleton_append, ← List.append_assoc]
      refine ih ?_
      rcases h with h | he
      · exact h.push d |>.imp (fun h => h.2.2) And.right
      · exact .inr (by rw [JobOp.run, issue_of_error he rfl, he])
    | readDout =>
      refine ih ?_
      rcases h with h | he
      · exact .inl h.afterDout
      · exact .inr (by rw [JobOp.run, afterDout_block]; exact he)

/-! ### FINISH -/

theorem packedBytes_parts (S : Bits) :
    packedBytes S = packedBytes (fullPart S) ++ packedBytes (shortPart S) := by
  rw [← packedBytes_append _ (fullPart_length S), fullPart_append_shortPart]

/-- The bits held are none exactly when the stream is a multiple of 8 bits. -/
theorem shortPart_eq_nil_iff (S : Bits) : shortPart S = [] ↔ S.length % 8 = 0 := by
  rw [← List.length_eq_zero_iff, shortPart_length]

theorem packedBytes_length (S : Bits) : (packedBytes S).length = (S.length + 7) / 8 := by
  rw [packedBytes_parts, List.length_append, packedBytes_length_of_full _ (fullPart_length S)]
  by_cases h : shortPart S = []
  · have := (shortPart_eq_nil_iff S).mp h
    rw [h, packedBytes_nil, List.length_nil]
    omega
  · have := mt (shortPart_eq_nil_iff S).mpr h
    rw [packedBytes_short h (by rw [shortPart_length]; omega), List.length_singleton]
    omega

/-- What FINISH leaves in TAIL is the number of valid bits of the last byte (R29, R145). -/
theorem packFinish_tail {S : Bits} (h : S.length < 2 ^ 64) :
    (if shortPart S ≠ [] then BitVec.ofNat 4 (shortPart S).length
      else if BitVec.ofNat 64 S.length = 0 then 0 else 8).toNat = tailOf S := by
  have hz : BitVec.ofNat 64 S.length = 0 ↔ S.length = 0 := by
    rw [← BitVec.toNat_inj, BitVec.toNat_ofNat, Nat.mod_eq_of_lt h]
    rfl
  simp only [ne_eq, shortPart_eq_nil_iff, shortPart_length, hz, tailOf]
  by_cases h8 : S.length % 8 = 0
  · by_cases h0 : S.length = 0
    · simp [h0]
    · simp only [h8, h0, not_true, if_false]
      exact show 8 = _ by omega
  · simp only [h8, show S.length ≠ 0 by omega, not_false_eq_true, if_true, if_false, BitVec.toNat_ofNat]
    omega

/-- A pack job of the input `ds` has ended DONE, and the host has or can read its output (R146, R148). -/
structure PackDone (s₀ : Block) (ds : List Byte) (t : State) : Prop where
  state : t.block.state = .done
  valid : s₀.AllValid ds
  output : t.output = packedBytes (s₀.stream ds)
  outcnt : t.block.outcnt = BitVec.ofNat 32 (((s₀.stream ds).length + 7) / 8)
  bitcnt : t.block.bitcnt = BitVec.ofNat 64 (s₀.stream ds).length
  tail : (s₀.stream ds).length < 2 ^ 64 → t.block.tail.toNat = tailOf (s₀.stream ds)

/-- FINISH with RDY = 1 ends the job (R145). -/
theorem PackProgress.finish {s₀ : Block} {ds : List Byte} {s : State} (h : PackProgress s₀ ds s)
    (hr : s.block.rdy s.cfg = true) : PackDone s₀ ds (s.issue .finish) := by
  obtain ⟨ht, hv, -⟩ := h
  have hemitted : s.output.length = (s₀.stream ds).length / 8 := by
    rw [ht.bytes, packedBytes_length_of_full _ (fullPart_length _)]
  have hnil := shortPart_eq_nil_iff (s₀.stream ds)
  have hblock := issue_block_of_job (.inr rfl) (.inl ht.open_) hr
  rw [ruleOf_finish_pack ht.open_, packFinish_eq ht.holds, Flow.block_go] at hblock
  refine ⟨by rw [hblock], hv, ?_, ?_, ?_, fun hlt => ?_⟩
  · rw [output_issue (congrArg Block.outq hblock), packedBytes_parts (s₀.stream ds), ← ht.bytes]
  · rw [hblock, ht.outcnt, hemitted]
    by_cases h0 : shortPart (s₀.stream ds) = []
    · have := hnil.mp h0
      rw [if_pos h0, show ((s₀.stream ds).length + 7) / 8 = (s₀.stream ds).length / 8 by omega]
    · have := mt hnil.mpr h0
      rw [if_neg h0, show ((s₀.stream ds).length + 7) / 8 = (s₀.stream ds).length / 8 + 1 by omega,
        BitVec.ofNat_add]
      rfl
  · rw [hblock]
    exact ht.bitcnt
  · rw [hblock, ht.bitcnt]
    exact packFinish_tail hlt

/-- FINISH of a pack job with RDY = 0 raises OVERRUN (R230). -/
theorem issue_finish_of_not_rdy {s : State} (hs : s.block.state = .pack) (hr : s.block.rdy s.cfg = false) :
    (s.issue .finish).block.state = .error := by
  have hl : legal .finish s.block = true := by simp [legal, hs]
  rw [State.issue, State.onBlock_block, execute, if_neg (by simp [hs]), if_neg (by simp [hl]),
    if_pos (by rw [hr]; rfl)]
  rfl

/-- A pack job that ends DONE had packed its input when FINISH ran. -/
theorem packDone_of_done {s : State} (hr : s.ready) (ops : List JobOp)
    (hd : (s.runJob .startPack ops).block.state = .done) :
    PackDone s.block (pushedBytes ops) (s.runJob .startPack ops) := by
  have hstart := (issue_startPack_cases hr).imp And.right And.right
  rw [State.runJob] at hd ⊢
  rcases packProgress_runOps hstart ops with h | he
  · rw [List.nil_append] at h
    cases hrdy : Block.rdy ((s.issue .startPack).runOps ops).cfg ((s.issue .startPack).runOps ops).block with
    | true => exact h.finish hrdy
    | false => rw [issue_finish_of_not_rdy h.trace.open_ hrdy] at hd; cases hd
  · rw [issue_of_error he rfl, he] at hd
    cases hd

/-- Settles O56: the job has packed what it has pushed, at every point, and FINISH flushes the rest. -/
theorem packJobPacksTheStream : Obligations.PackJobPacksTheStream := by
  intro s t ops hi hr hrun hd
  obtain rfl := (runs_jobEvents_iff .startPack ops).mp hrun
  obtain ⟨-, hv, hout, hoc, hbc, htail⟩ := packDone_of_done hr ops hd
  exact ⟨hv, hout, (congrArg List.length hout).trans (packedBytes_length _), hoc, hbc, htail⟩

/-- A pack job whose host drains OUTQ ends DONE, on a well-formed table with codes for every byte (R253). -/
theorem packDone_drainedPushes {s : State} (hi : s.Inv) (hr : s.ready) (hf : s.block.PrefixFree)
    {ds : List Byte} (hv : s.block.AllValid ds) :
    PackDone s.block ds (s.runJob .startPack (drainedPushes ds)) := by
  have hstart : PackProgress s.block [] (s.issue .startPack) :=
    (issue_startPack_cases hr).elim And.right fun h => absurd hf h.1
  have hq : (s.issue .startPack).block.outq = [] := (outq_issue_start (.inl rfl) s).trans hr.2.1
  have hpush : ∀ ds d (t : State), t.block.rdy t.cfg = true →
      (s.block.AllValid ds → PackProgress s.block ds t) →
      s.block.AllValid (ds ++ [d]) → PackProgress s.block (ds ++ [d]) (t.issue (.push d)) := by
    intro ds d t hrdy h hv
    rcases (h fun x hx => hv x (by simp [hx])).push d with ⟨-, -, h⟩ | ⟨hn, -⟩
    · exact h
    · exact absurd ⟨hrdy, hv d (by simp)⟩ hn
  obtain ⟨hp, hI, hq'⟩ := runOps_drainedPushes
    (P := fun ds t => s.block.AllValid ds → PackProgress s.block ds t)
    (fun _ _ h hv => (h hv).afterDout) hpush (inv_issue hi .startPack) hq (fun _ => hstart) ds
  exact (hp hv).finish (rdy_of_outq_nil hI hq')

end Sys2Proof.Machine
end

section
/-!
SUPPORT. The whole unpack job, and the round trip in COMPAT mode (spec/42_unpack.md R160 to R176; spec/41_pack.md
R149).
-/

namespace Sys2Proof.Machine

/-! ## Parses -/

/-- Blocks with the same stores parse alike. -/
theorem Block.Parses.of_table_eq {s t : Block} {E rest : Bits} {out : List Byte}
    (hp : s.Parses E out rest) (h : t.table = s.table) : t.Parses E out rest := by
  obtain ⟨hl, hb⟩ := Prod.mk.inj h
  obtain ⟨hv, hc, -, hm, -⟩ := table_congr hl hb
  refine ⟨?_, ?_, ?_, ?_⟩
  · rw [Block.AllValid, hv]; exact hp.valid
  · rw [stream_congr hl hb]; exact hp.parse
  · rw [Block.Unmatched, hv, hc]; exact hp.unmatched
  · rw [hm]; exact hp.short

theorem Block.FailsAt.of_table_eq {s t : Block} {E bad rest : Bits} {out : List Byte}
    (hp : s.FailsAt E out bad rest) (h : t.table = s.table) : t.FailsAt E out bad rest := by
  obtain ⟨hl, hb⟩ := Prod.mk.inj h
  obtain ⟨hv, hc, -, hm, -⟩ := table_congr hl hb
  refine ⟨?_, ?_, ?_, ?_⟩
  · rw [Block.AllValid, hv]; exact hp.valid
  · rw [stream_congr hl hb]; exact hp.parse
  · rw [Block.Unmatched, hv, hc]; exact hp.unmatched
  · rw [hm]; exact hp.long

/-- A parse goes on where the candidate of an earlier one was left. -/
theorem Block.Parses.append {s : Block} {E cand c rest : Bits} {out new : List Byte}
    (h : s.Parses E out cand) (h' : s.Parses (cand ++ c) new rest) :
    s.Parses (E ++ c) (out ++ new) rest :=
  ⟨allValid_append h.valid h'.valid, by
    rw [h.parse, stream_append, List.append_assoc, h'.parse, List.append_assoc], h'.unmatched, h'.short⟩

theorem Block.Parses.append_fails {s : Block} {E cand c bad rest : Bits} {out new : List Byte}
    (h : s.Parses E out cand) (h' : s.FailsAt (cand ++ c) new bad rest) :
    s.FailsAt (E ++ c) (out ++ new) bad rest :=
  ⟨allValid_append h.valid h'.valid, by
    rw [h.parse, stream_append, List.append_assoc, h'.parse, List.append_assoc], h'.unmatched, h'.long⟩

/-- What follows a failed candidate does not matter. -/
theorem Block.FailsAt.mono {s : Block} {E E' bad rest : Bits} {out : List Byte}
    (h : s.FailsAt E out bad rest) (hE : E <+: E') : ∃ rest', s.FailsAt E' out bad rest' := by
  obtain ⟨c, rfl⟩ := hE
  exact ⟨rest ++ c, h.valid, by rw [h.parse, List.append_assoc, List.append_assoc], h.unmatched, h.long⟩

/-- A failed candidate, as long as the longest code, holds no code whatever follows. -/
theorem Block.FailsAt.unmatched_append {s : Block} {E bad rest : Bits} {out : List Byte}
    (h : s.FailsAt E out bad rest) : s.Unmatched (bad ++ rest) := by
  intro b hb hp
  have hle := code_length_le_maxlen s b
  have hlong := h.long
  exact h.unmatched b hb (List.prefix_of_prefix_length_le hp (List.prefix_append bad rest) (by omega))

/-- A string of codes does not fail (R172). -/
theorem Block.FailsAt.ne_stream {s : Block} (hf : s.PrefixFree) {E bad rest : Bits} {out ds : List Byte}
    (h : s.FailsAt E out bad rest) (hv : s.AllValid ds) : E ≠ s.stream ds := by
  intro he
  have hlong := h.long
  obtain ⟨-, hnil⟩ := parse_unique hf h.valid hv h.unmatched_append (unmatched_nil s)
    (by rw [← h.parse, he, List.append_nil])
  have := congrArg List.length hnil
  rw [List.length_append, List.length_nil] at this
  omega

/-! ## The expansion -/

/-- The bits of bytes that are not the last of a packed stream (R161). -/
def bytesBits (ps : List Byte) : Bits := ps.flatMap fun p => lowBits 8 p.toNat

@[simp] theorem bytesBits_nil : bytesBits [] = [] := rfl

@[simp] theorem bytesBits_cons (p : Byte) (ps : List Byte) :
    bytesBits (p :: ps) = lowBits 8 p.toNat ++ bytesBits ps := rfl

theorem bytesBits_append (ps qs : List Byte) : bytesBits (ps ++ qs) = bytesBits ps ++ bytesBits qs :=
  List.flatMap_append

/-- The machine's final byte is the source's (R162). -/
theorem naturalBits_eq (v : Byte) : naturalBits v = expandFinalCompat v := by
  revert v
  decide

/-- The bits of the last byte (R167). -/
def finalBits (exact : Bool) (t : Nat) (p : Byte) : Bits :=
  if exact then lowBits t p.toNat else naturalBits p

/-- The expansion by the last byte (R167). -/
theorem expansion_concat (exact : Bool) (t : Nat) (ps : List Byte) (p : Byte) :
    expansion exact t (ps ++ [p]) = bytesBits ps ++ finalBits exact t p := by
  induction ps with
  | nil => rfl
  | cons q ps ih =>
    rw [bytesBits_cons, List.append_assoc, ← ih]
    cases ps <;> rfl

/-! ## The unpack job -/

/-- A TAIL that fits the held byte is not bad (R168). -/
theorem tailIsBad_of_tailFits {s : Block} (h : TailFits s.tail.toNat s.hold) : s.tailIsBad = false := by
  obtain ⟨h1, h8, hlt⟩ := h
  have hshift : s.hold >>> s.tail.toNat = 0 := by
    apply BitVec.eq_of_toNat_eq
    rw [BitVec.toNat_ushiftRight, Nat.shiftRight_eq_div_pow, Nat.div_eq_of_lt hlt]
    rfl
  simp only [Block.tailIsBad, hshift, bne_self_eq_false, Bool.and_false, Bool.or_false,
    Bool.or_eq_false_iff, decide_eq_false_iff_not]
  omega

/-- FINISH feeds the bits of the final byte, where TAIL fits (R168). -/
theorem feedFinal_eq {s : Block} (h : s.jobtm = true → TailFits s.tail.toNat s.hold) :
    feedFinal s = feedBits (finalBits s.jobtm s.tail.toNat s.hold) (dropHold s) := by
  cases hj : s.jobtm with
  | true =>
    rw [feedFinal, if_pos hj, if_neg (by simp [tailIsBad_of_tailFits (h hj)])]
    rfl
  | false =>
    rw [feedFinal, if_neg (by simp [hj]), ← naturalBits_eq]
    rfl

/-- The access has raised CORRUPT: the bits `E` fail, after the bytes `out`, in the table of `u` (R163). -/
structure CorruptAt (u : Block) (E : Bits) (out : List Byte) (t : Block) : Prop where
  state : t.state = .error
  errcode : t.errcode = .corrupt
  fails : ∃ bad rest, u.FailsAt E out bad rest

/-- Feeding bits when the held byte is dropped: the parse of all the bits fed so far goes on, or it fails
(R160, R163). -/
theorem Block.UnpackTrace.feed {s : Block} {ps emitted : List Byte} (h : s.UnpackTrace ps emitted)
    (c : Bits) :
    (∃ out rest, s.Parses (bytesBits ps.dropLast ++ c) (emitted ++ out) rest ∧
      feedBits c (dropHold s) = .go (fedBlock (dropHold s) c out rest)) ∨
    (∃ out t, feedBits c (dropHold s) = .ended t ∧ t.outq = s.outq ++ out ∧
      CorruptAt s (bytesBits ps.dropLast ++ c) (emitted ++ out) t) := by
  have hp : (dropHold s).Parses (bytesBits ps.dropLast) emitted s.cand := h.parses.of_table_eq rfl
  rcases feedBits_cases c (dropHold s) hp.unmatched hp.short with
    ⟨out, rest, hp', he⟩ | ⟨out, bad, rest, hf, -, he⟩
  · exact .inl ⟨out, rest, (hp.append hp').of_table_eq rfl, he⟩
  · exact .inr ⟨out, _, he, rfl, rfl, rfl, bad, rest, (hp.append_fails hf).of_table_eq rfl⟩

/-- PUSH in an unpack job: the trace grows by the byte, or the bits of the byte held before fail (R165). -/
theorem Block.UnpackTrace.push {s : Block} {ps emitted : List Byte} (h : s.UnpackTrace ps emitted)
    (p : Byte) :
    ∃ out, (unpackPush p s).block.outq = s.outq ++ out ∧
      ((unpackPush p s).block.UnpackTrace (ps ++ [p]) (emitted ++ out) ∨
        CorruptAt s (bytesBits ps) (emitted ++ out) (unpackPush p s).block) := by
  rcases h.held with ⟨rfl, hv⟩ | ⟨init, q, rfl, hv, hq⟩
  · have hgo : unpackPush p s = .go { s with hold := p, holdv := true } := by simp [unpackPush, hv]
    rw [hgo]
    refine ⟨[], by simp, .inl ⟨h.open_, .inr ⟨[], p, rfl, rfl, rfl⟩, h.bitcnt, ?_, ?_⟩⟩
    · rw [List.append_nil]; exact h.outcnt
    · rw [List.append_nil]; exact h.parses.of_table_eq rfl
  · have hbits : bytesBits (init ++ [q]).dropLast ++ bin8 s.hold = bytesBits (init ++ [q]) := by
      rw [List.dropLast_concat, bytesBits_append, hq]
      simp [bin8, binN_eq]
    have hpush : unpackPush p s = (feedBits (bin8 s.hold) (dropHold s)).andThen fun s =>
        .go { s with hold := p, holdv := true } := by simp [unpackPush, hv]
    have hfeed := h.feed (bin8 s.hold)
    rw [hbits] at hfeed
    rcases hfeed with ⟨out, rest, hp, he⟩ | ⟨out, t, he, hout, hc⟩ <;> rw [hpush, he]
    · refine ⟨out, rfl, .inl ⟨h.open_, .inr ⟨init ++ [q], p, rfl, rfl, rfl⟩, ?_, ?_, ?_⟩⟩
      · have hcnt : s.bitcnt + BitVec.ofNat 64 (bin8 s.hold).length = _ := congrArg (· + _) h.bitcnt
        rw [List.dropLast_concat, List.length_append, Nat.mul_add, BitVec.ofNat_add]
        rw [List.dropLast_concat, bin8_length] at hcnt
        exact hcnt
      · rw [List.length_append, BitVec.ofNat_add, ← h.outcnt]
        rfl
      · rw [List.dropLast_concat]
        exact hp.of_table_eq rfl
    · exact ⟨out, hout, .inr hc⟩

/-- How an unpack job ends: the bits `E` are parsed, completely or with bits left over, or fail (R168, R171). -/
def UnpackEnds (u : Block) (E : Bits) (out : List Byte) (t : Block) : Prop :=
  (∃ rest, u.Parses E out rest ∧ (rest = [] → t.state = .done) ∧
    (rest ≠ [] → t.state = .error ∧ t.errcode = .corrupt)) ∨
  CorruptAt u E out t

/-- The end of FINISH, once the final byte is fed (R171). -/
def closeUnpack (s : Block) : Flow :=
  if 0 < s.cand.length then
    raise .corrupt (s.candlen.setWidth 32 ||| (1 <<< 8)) (s.bitcnt - s.candlen.setWidth 64) s
  else .go { s with state := .done }

theorem closeUnpack_ends {u t : Block} {E : Bits} {out : List Byte} (h : u.Parses E out t.cand) :
    (closeUnpack t).block.outq = t.outq ∧ UnpackEnds u E out (closeUnpack t).block := by
  by_cases hc : t.cand = []
  · rw [closeUnpack, if_neg (by simp [hc])]
    exact ⟨rfl, .inl ⟨t.cand, h, fun _ => rfl, fun hne => absurd hc hne⟩⟩
  · rw [closeUnpack, if_pos (List.length_pos_of_ne_nil hc)]
    exact ⟨rfl, .inl ⟨t.cand, h, fun he => absurd he hc, fun _ => ⟨rfl, rfl⟩⟩⟩

/-- FINISH of an unpack job, where TAIL fits: the decoder has read the whole expansion (R167, R168). -/
theorem Block.UnpackTrace.finish {s : Block} {ps emitted : List Byte} (h : s.UnpackTrace ps emitted)
    (hfit : s.jobtm = true → ∀ p, ps.getLast? = some p → TailFits s.tail.toNat p) :
    ∃ out, (unpackFinish s).block.outq = s.outq ++ out ∧
      UnpackEnds s (expansion s.jobtm s.tail.toNat ps) (emitted ++ out) (unpackFinish s).block := by
  rcases h.held with ⟨rfl, hv⟩ | ⟨init, q, rfl, hv, rfl⟩
  · have hfin : unpackFinish s = closeUnpack s := by simp [unpackFinish, closeUnpack, hv]
    obtain ⟨hq, he⟩ := closeUnpack_ends h.parses
    rw [hfin]
    exact ⟨[], by rw [hq, List.append_nil], by rw [List.append_nil]; exact he⟩
  · have hfin : unpackFinish s =
        (feedBits (finalBits s.jobtm s.tail.toNat s.hold) (dropHold s)).andThen closeUnpack := by
      rw [← feedFinal_eq fun hj => hfit hj s.hold (by simp), unpackFinish, if_pos hv]
      rfl
    have hfeed := h.feed (finalBits s.jobtm s.tail.toNat s.hold)
    rw [List.dropLast_concat, ← expansion_concat] at hfeed
    rw [hfin]
    rcases hfeed with ⟨out, rest, hp, he⟩ | ⟨out, t, he, hout, hc⟩ <;> rw [he]
    · obtain ⟨hq, hends⟩ := closeUnpack_ends (t := fedBlock (dropHold s) _ out rest) hp
      exact ⟨out, hq, hends⟩
    · exact ⟨out, hout, .inr hc⟩

/-! ## The host's view of an unpack job -/

/-- An unpack job with the table of `u` has been given `ps` so far: the unpack invariant, with what the host has or
could read as the bytes emitted, in the mode that START found (R122, R160). -/
structure UnpackRunning (u : Block) (ps : List Byte) (s : State) : Prop where
  trace : s.block.UnpackTrace ps s.output
  table : s.block.table = u.table
  mode : s.block.jobtm = u.tailmode ∧ s.block.tail = u.tail

/-- The job runs, or the bits fed so far have failed. -/
def UnpackProgress (u : Block) (ps : List Byte) (s : State) : Prop :=
  UnpackRunning u ps s ∨ CorruptAt u (bytesBits ps.dropLast) s.output s.block

theorem CorruptAt.mono {u t : Block} {E E' : Bits} {out : List Byte} (h : CorruptAt u E out t)
    (hE : E <+: E') : CorruptAt u E' out t := by
  obtain ⟨hs, he, bad, rest, hf⟩ := h
  obtain ⟨rest', hf'⟩ := hf.mono hE
  exact ⟨hs, he, bad, rest', hf'⟩

theorem CorruptAt.of_table_eq {s u t : Block} {E : Bits} {out : List Byte} (h : CorruptAt s E out t)
    (hu : u.table = s.table) : CorruptAt u E out t := by
  obtain ⟨hs, he, bad, rest, hf⟩ := h
  exact ⟨hs, he, bad, rest, hf.of_table_eq hu⟩

theorem bytesBits_dropLast_prefix (ps : List Byte) : bytesBits ps.dropLast <+: bytesBits ps := by
  obtain ⟨qs, h⟩ := List.dropLast_prefix ps
  exact ⟨bytesBits qs, by rw [← bytesBits_append, h]⟩

/-- The bytes that are not the last begin the expansion in either mode. -/
theorem bytesBits_dropLast_prefix_expansion (exact : Bool) (t : Nat) (ps : List Byte) :
    bytesBits ps.dropLast <+: expansion exact t ps := by
  rcases List.eq_nil_or_concat ps with rfl | ⟨init, p, rfl⟩
  · exact List.prefix_refl _
  · rw [List.concat_eq_append, List.dropLast_concat, expansion_concat]
    exact List.prefix_append _ _

/-- START_UNPACK between jobs, with nothing read or in OUTQ, on a well-formed table (R122). -/
theorem unpackRunning_start {s : State} (hr : s.ready) (hf : s.block.PrefixFree) :
    UnpackRunning s.block [] (s.issue .startUnpack) := by
  obtain ⟨hs, hq, hrep⟩ := hr
  have hout : doutBytes s.replies ++ s.block.outq = [] := by rw [hq, hrep]; rfl
  have hopen := ((startUnpackOpensAnUnpackJob s).1 hs hq).1 hf
  rw [show exec .startUnpack s = .next (s.issue .startUnpack) from
    (exec_ofCommand_eq_next_iff (c := .startUnpack)).mpr rfl, Host.Outcome.next.injEq] at hopen
  rw [hopen]
  refine ⟨?_, rfl, rfl, rfl⟩
  change Block.UnpackTrace _ [] (doutBytes s.replies ++ s.block.outq)
  rw [hout]
  exact ⟨rfl, .inl ⟨rfl, rfl⟩, rfl, rfl, nofun, rfl, unmatched_nil _,
    Nat.lt_of_lt_of_le Nat.zero_lt_one (Nat.le_max_right _ 1)⟩

/-- PUSH with RDY = 1: the job has been given one more byte (R165). -/
theorem UnpackProgress.push {u : Block} {ps : List Byte} {s : State} (h : UnpackProgress u ps s)
    (hr : s.block.rdy s.cfg = true) (d : Byte) : UnpackProgress u (ps ++ [d]) (s.issue (.push d)) := by
  rcases h with ⟨ht, htab, hj, htl⟩ | hc
  · have hb := issue_block_of_job (.inl ⟨d, rfl⟩) (.inr ht.open_) hr
    rw [ruleOf_push_unpack ht.open_] at hb
    obtain ⟨out, hq, hpush⟩ := ht.push d
    rw [← hb] at hq hpush
    rw [← output_issue hq] at hpush
    have htab' : (s.issue (.push d)).block.table = u.table := by
      rw [hb, table_unpackPush, htab]
    have hframe := unpackFrame_unpackPush d s.block
    rw [← hb, Block.unpackFrame, Block.unpackFrame, Prod.mk.injEq, Prod.mk.injEq, Prod.mk.injEq] at hframe
    obtain ⟨-, -, hj', htl'⟩ := hframe
    rcases hpush with ht' | hc
    · exact .inl ⟨ht', htab', hj'.trans hj, htl'.trans htl⟩
    · exact .inr (by rw [List.dropLast_concat]; exact hc.of_table_eq htab.symm)
  · refine .inr ?_
    rw [issue_of_error hc.state rfl, List.dropLast_concat]
    exact hc.mono (bytesBits_dropLast_prefix ps)

theorem UnpackProgress.afterDout {u : Block} {ps : List Byte} {s : State} (h : UnpackProgress u ps s) :
    UnpackProgress u ps s.afterDout := by
  rw [UnpackProgress, output_afterDout, afterDout_block]
  rcases h with ⟨ht, htab, hm⟩ | ⟨hs, he, hf⟩
  · refine .inl ⟨?_, ?_, ?_⟩ <;> rw [afterDout_block]
    · rw [output_afterDout]
      exact ⟨ht.open_, ht.held, ht.bitcnt, ht.outcnt, ht.parses.of_table_eq rfl⟩
    · exact htab
    · exact hm
  · exact .inr ⟨hs, he, hf⟩

theorem UnpackEnds.of_table_eq {s u t : Block} {E : Bits} {out : List Byte} (h : UnpackEnds s E out t)
    (hu : u.table = s.table) : UnpackEnds u E out t :=
  h.imp (fun ⟨rest, hp, hends⟩ => ⟨rest, hp.of_table_eq hu, hends⟩) fun hc => hc.of_table_eq hu

/-- FINISH with RDY = 1, where TAIL fits: the whole expansion is read (R167, R168). -/
theorem UnpackProgress.finish {u : Block} {ps : List Byte} {s : State} (h : UnpackProgress u ps s)
    (hr : s.block.rdy s.cfg = true)
    (hfit : u.tailmode = true → ∀ p, ps.getLast? = some p → TailFits u.tail.toNat p) :
    UnpackEnds u (expansion u.tailmode u.tail.toNat ps) (s.issue .finish).output (s.issue .finish).block := by
  rcases h with ⟨ht, htab, hj, htl⟩ | hc
  · rw [← hj, ← htl] at hfit ⊢
    have hb := issue_block_of_job (.inr rfl) (.inr ht.open_) hr
    rw [ruleOf_finish_unpack ht.open_] at hb
    obtain ⟨out, hq, hends⟩ := ht.finish hfit
    rw [← hb] at hq hends
    rw [output_issue hq]
    exact hends.of_table_eq htab.symm
  · rw [issue_of_error hc.state rfl]
    exact .inr (hc.mono (bytesBits_dropLast_prefix_expansion _ _ ps))

/-- An unpack job whose host drains OUTQ reads the whole expansion, on a well-formed table (R173, R175). -/
theorem unpackEnds_drainedPushes {s : State} (hi : s.Inv) (hr : s.ready) (hf : s.block.PrefixFree)
    {ps : List Byte}
    (hfit : s.block.tailmode = true → ∀ p, ps.getLast? = some p → TailFits s.block.tail.toNat p) :
    let t := s.runJob .startUnpack (drainedPushes ps)
    UnpackEnds s.block (expansion s.block.tailmode s.block.tail.toNat ps) t.output t.block := by
  have hq : (s.issue .startUnpack).block.outq = [] := (outq_issue_start (.inr rfl) s).trans hr.2.1
  obtain ⟨hp, hI, hq'⟩ := runOps_drainedPushes (P := UnpackProgress s.block)
    (fun _ _ h => h.afterDout) (fun _ d _ hrdy h => h.push hrdy d) (inv_issue hi .startUnpack) hq
    (.inl (unpackRunning_start hr hf)) ps
  exact UnpackProgress.finish hp (rdy_of_outq_nil hI hq') hfit

/-- A job ends DONE with the output `ds` exactly when its bits are the codes of `ds` (R175). -/
theorem UnpackEnds.done_iff {u t : Block} {E : Bits} {out ds : List Byte} (h : UnpackEnds u E out t)
    (hf : u.PrefixFree) (hv : u.AllValid ds) : (t.state = .done ∧ out = ds) ↔ E = u.stream ds := by
  rcases h with ⟨rest, hp, hdone, herr⟩ | ⟨hs, -, bad, rest, hfail⟩
  · constructor
    · rintro ⟨hd, rfl⟩
      by_cases hr : rest = []
      · rw [hp.parse, hr, List.append_nil]
      · rw [(herr hr).1] at hd
        cases hd
    · intro hE
      obtain ⟨rfl, rfl⟩ := parse_unique hf hp.valid hv hp.unmatched (unmatched_nil u)
        (by rw [← hp.parse, hE, List.append_nil])
      exact ⟨hdone rfl, rfl⟩
  · exact iff_of_false (fun hd => by rw [hs] at hd; cases hd.1) (hfail.ne_stream hf hv)

/-! ## The packed bytes, expanded again -/

/-- A string of 1 to 8 bits is one chunk. -/
theorem chunks_of_length_le {c : Bits} (h0 : c ≠ []) (h : c.length ≤ 8) : chunks c = [c] := by
  rw [chunks.eq_def]
  split
  case h_1 rest =>
    obtain rfl : rest = [] := List.eq_nil_of_length_eq_zero (by simp only [List.length_cons] at h; omega)
    rfl
  case h_2 => exact absurd rfl h0
  case h_3 => rfl

theorem chunks_append {B : Bits} (n : Nat) (hB : B.length = 8 * n) (c : Bits) :
    chunks (B ++ c) = chunks B ++ chunks c := by
  induction n generalizing B with
  | zero =>
    rw [List.eq_nil_of_length_eq_zero hB]
    rfl
  | succ n ih =>
    have h8 : (B.take 8).length = 8 := by simp; omega
    have hB' := List.take_append_drop 8 B
    rw [← hB', List.append_assoc, chunks_of_length_8_append h8, chunks_of_length_8_append h8,
      ih (by simp; omega), List.cons_append]

/-- The last chunk of a string, of 1 to 8 bits, after full chunks (R66). -/
theorem exists_last_chunk {S : Bits} (hS : S ≠ []) :
    ∃ (B c : Bits) (n : Nat), S = B ++ c ∧ B.length = 8 * n ∧ c ≠ [] ∧ c.length ≤ 8 ∧
      chunks S = chunks B ++ [c] := by
  have hpos := List.length_pos_of_ne_nil hS
  have hB : (S.take (8 * ((S.length - 1) / 8))).length = 8 * ((S.length - 1) / 8) := by
    rw [List.length_take]; omega
  have hc : (S.drop (8 * ((S.length - 1) / 8))).length = S.length - 8 * ((S.length - 1) / 8) :=
    List.length_drop
  have hne : S.drop (8 * ((S.length - 1) / 8)) ≠ [] := List.ne_nil_of_length_pos (by omega)
  have hsplit := List.take_append_drop (8 * ((S.length - 1) / 8)) S
  have hchunks := chunks_append _ hB (S.drop (8 * ((S.length - 1) / 8)))
  rw [hsplit, chunks_of_length_le hne (by omega)] at hchunks
  exact ⟨_, _, _, hsplit.symm, hB, hne, by omega, hchunks⟩

/-- The bytes of full chunks expand to the chunks (R161). -/
theorem bytesBits_packedBytes {B : Bits} (n : Nat) (hB : B.length = 8 * n) :
    bytesBits (packedBytes B) = B := by
  induction n generalizing B with
  | zero => simp [List.eq_nil_of_length_eq_zero (by simpa using hB)]
  | succ n ih =>
    have h8 : (B.take 8).length = 8 := by simp; omega
    have hlow := lowBits_chunkByte (Nat.le_of_eq h8)
    rw [h8] at hlow
    conv_lhs => rw [← List.take_append_drop 8 B]
    rw [packedBytes_of_length_8_append h8, bytesBits_cons, ih (by simp; omega), hlow,
      List.take_append_drop]

/-- In COMPAT mode the packed bytes expand to the string exactly under R149's condition on its last chunk. -/
theorem expansion_packedBytes_eq_iff {S : Bits} (hS : S ≠ []) (t : Nat) :
    expansion false t (packedBytes S) = S ↔
      ∃ c, (chunks S).getLast? = some c ∧ (c.head? = some true ∨ c = [false]) := by
  obtain ⟨B, c, n, hsplit, hB, hne, h8, hchunks⟩ := exists_last_chunk hS
  obtain ⟨hiff, -⟩ := finalByteExpansions c (List.length_pos_of_ne_nil hne) h8
  have hexp : expansion false t (packedBytes S) = B ++ expandFinalCompat (chunkByte c) := by
    rw [packedBytes, hchunks, List.map_append, List.map_singleton, expansion_concat]
    exact congrArg₂ _ (bytesBits_packedBytes n hB) (naturalBits_eq _)
  rw [hexp, hchunks, List.getLast?_concat]
  conv_lhs => rw [hsplit, List.append_cancel_left_eq, hiff]
  simp

/-! ## The round trip -/

/-- The source's notions read the table alone. -/
theorem Block.SameTable.congr {s t : Block} (h : s.SameTable t) :
    (t.PrefixFree ↔ s.PrefixFree) ∧ t.AllValid = s.AllValid ∧ t.stream = s.stream := by
  have hv : t.valid = s.valid := funext fun b => (h.entry b).1
  have hc : t.code = s.code := funext fun b => (h.entry b).2
  refine ⟨?_, ?_, ?_⟩
  · rw [Block.PrefixFree, Block.PrefixFree, hv, hc]
  · funext ds; rw [Block.AllValid, Block.AllValid, hv]
  · funext ds; rw [Block.stream, Block.stream, hc]

/-- Bytes that have codes pack to some bits. -/
theorem stream_ne_nil {s : Block} {ds : List Byte} (hv : s.AllValid ds) (h : ds ≠ []) : s.stream ds ≠ [] := by
  cases ds with
  | nil => exact absurd rfl h
  | cons d ds => simp [code_ne_nil (hv d (by simp))]

/-- Settles O60: the job ends DONE with the input exactly when the expansion of the packed bytes is the packed
string, and R149 says when it is. -/
theorem compatRoundTripCondition : Obligations.CompatRoundTripCondition := by
  intro s ds hi hr hf hv
  have hpack := packDone_drainedPushes hi hr hf hv
  refine ⟨_, (runs_jobEvents_iff _ _).mpr rfl, hpack.state, fun u hui hur htab hmode =>
    ⟨_, (runs_jobEvents_iff _ _).mpr rfl, ?_⟩⟩
  obtain ⟨hf', hv', hstream⟩ := htab.congr
  have hends := unpackEnds_drainedPushes hui hur (hf'.mpr hf)
    (ps := (s.runJob .startPack (drainedPushes ds)).output) fun h => by rw [hmode] at h; cases h
  refine (hends.done_iff (hf'.mpr hf) (by rwa [hv'])).trans ?_
  rw [hmode, hstream, hpack.output]
  by_cases hnil : ds = []
  · exact iff_of_true (by rw [hnil]; rfl) (.inl hnil)
  · rw [expansion_packedBytes_eq_iff (stream_ne_nil hv hnil)]
    exact (or_iff_right hnil).symm

end Sys2Proof.Machine
end

section
/-!
SUPPORT. The one parse or the one failure of a bit string on a well-formed table, the whole unpack job for every
interleaving of PUSH and DOUT reads, and the round trip in EXACT mode (spec/42_unpack.md R163 to R176;
spec/60_exceptions.md R230).
-/

namespace Sys2Proof.Machine

/-! ## One parse, or one failure -/

/-- The decoder, started afresh on `E`, reads all of it or fails (R163). -/
theorem parses_or_failsAt (s : Block) (E : Bits) :
    (∃ out rest, s.Parses E out rest) ∨ ∃ out bad rest, s.FailsAt E out bad rest := by
  rcases feedBits_cases E { s with cand := [] } (unmatched_nil _)
    (Nat.lt_of_lt_of_le Nat.zero_lt_one (Nat.le_max_right _ 1)) with
    ⟨out, rest, hp, -⟩ | ⟨out, bad, rest, hfail, -⟩
  · exact .inl ⟨out, rest, hp.of_table_eq rfl⟩
  · exact .inr ⟨out, bad, rest, hfail.of_table_eq rfl⟩

theorem Block.Parses.unique {s : Block} (hf : s.PrefixFree) {E rest rest' : Bits} {out out' : List Byte}
    (h : s.Parses E out rest) (h' : s.Parses E out' rest') : out' = out ∧ rest' = rest :=
  parse_unique hf h'.valid h.valid h'.unmatched h.unmatched (h'.parse.symm.trans h.parse)

/-- Failed candidates are equally long, so two of them after the same bytes are one. -/
theorem Block.FailsAt.unique {s : Block} (hf : s.PrefixFree) {E bad rest bad' rest' : Bits}
    {out out' : List Byte} (h : s.FailsAt E out bad rest) (h' : s.FailsAt E out' bad' rest') :
    out' = out ∧ bad' = bad ∧ rest' = rest := by
  obtain ⟨hout, hrest⟩ := parse_unique hf h'.valid h.valid h'.unmatched_append h.unmatched_append
    (h'.parse.symm.trans h.parse)
  exact ⟨hout, List.append_inj hrest (h'.long.trans h.long.symm)⟩

/-- What a parse leaves is shorter than a failed candidate. -/
theorem Block.Parses.not_failsAt {s : Block} (hf : s.PrefixFree) {E rest bad rest' : Bits}
    {out out' : List Byte} (h : s.Parses E out rest) : ¬ s.FailsAt E out' bad rest' := by
  intro h'
  obtain ⟨-, hrest⟩ := parse_unique hf h.valid h'.valid h.unmatched h'.unmatched_append
    (h.parse.symm.trans h'.parse)
  have hlen := congrArg List.length hrest
  rw [List.length_append] at hlen
  have hshort := h.short
  have hlong := h'.long
  omega

/-- Settles O24: the decoder gives a parse or a failure, and a well-formed table allows no other. -/
theorem everyStringParsesOrFailsOnce : Obligations.EveryStringParsesOrFailsOnce := by
  intro s E hf
  rcases parses_or_failsAt s E with ⟨out, rest, h⟩ | ⟨out, bad, rest, h⟩
  · exact .inl ⟨out, rest, h, fun _ _ h' => h.unique hf h', fun _ _ _ => h.not_failsAt hf⟩
  · exact .inr ⟨out, bad, rest, h, fun _ _ _ h' => h.unique hf h', fun _ _ h' => h'.not_failsAt hf h⟩

/-! ## The unpack job with DOUT read at any point -/

/-- PUSH and FINISH in a job are the job's rules with RDY = 1, and OVERRUN with RDY = 0 (R230). -/
theorem execute_of_job {c : Command} (hc : (∃ d, c = .push d) ∨ c = .finish) (rule : Block → Flow)
    (cfg : Config) {s : Block} (hs : s.state = .pack ∨ s.state = .unpack) :
    execute c rule cfg s =
      if s.rdy cfg then rule s else raise .overrun (encodeCommand c) s.bitcnt s := by
  have hne : s.state ≠ .error := by rcases hs with hs | hs <;> simp [hs]
  have hl : legal c s = true := by
    rcases hc with ⟨d, rfl⟩ | rfl <;> rcases hs with hs | hs <;> simp [legal, hs]
  have hn : needsRdy c = true := by rcases hc with ⟨d, rfl⟩ | rfl <;> rfl
  rw [execute, if_neg hne, if_neg (by simp [hl]), hn]
  cases s.rdy cfg <;> rfl

/-- A command that needs RDY found RDY = 0 (R230). -/
def Overrun (s : Block) : Prop := s.state = .error ∧ s.errcode = .overrun

/-- PUSH and FINISH in a job with RDY = 0 (R230). -/
theorem overrun_issue {s : State} {c : Command} (hc : (∃ d, c = .push d) ∨ c = .finish)
    (hs : s.block.state = .pack ∨ s.block.state = .unpack) (hr : s.block.rdy s.cfg = false) :
    Overrun (s.issue c).block := by
  rw [State.issue, State.onBlock_block, execute_of_job hc _ _ hs, if_neg (by simp [hr])]
  exact ⟨rfl, rfl⟩

/-- PUSH at any time: the job has been given one more byte, or was not ready for it (R165, R230). -/
theorem UnpackProgress.push_or_overrun {u : Block} {ps : List Byte} {s : State}
    (h : UnpackProgress u ps s) (d : Byte) :
    UnpackProgress u (ps ++ [d]) (s.issue (.push d)) ∨ Overrun (s.issue (.push d)).block := by
  cases hr : s.block.rdy s.cfg with
  | true => exact .inl (h.push hr d)
  | false =>
    rcases h with h | hc
    · exact .inr (overrun_issue (.inl ⟨d, rfl⟩) (.inr h.trace.open_) hr)
    · refine .inl (.inr ?_)
      rw [issue_of_error hc.state rfl, List.dropLast_concat]
      exact hc.mono (bytesBits_dropLast_prefix ps)

/-- FINISH at any time, where TAIL fits: the whole expansion is read, or the job was not ready (R168, R230). -/
theorem UnpackProgress.finish_or_overrun {u : Block} {ps : List Byte} {s : State}
    (h : UnpackProgress u ps s)
    (hfit : u.tailmode = true → ∀ p, ps.getLast? = some p → TailFits u.tail.toNat p) :
    UnpackEnds u (expansion u.tailmode u.tail.toNat ps) (s.issue .finish).output (s.issue .finish).block ∨
      Overrun (s.issue .finish).block := by
  cases hr : s.block.rdy s.cfg with
  | true => exact .inl (h.finish hr hfit)
  | false =>
    rcases h with h | hc
    · exact .inr (overrun_issue (.inr rfl) (.inr h.trace.open_) hr)
    · rw [issue_of_error hc.state rfl]
      exact .inl (.inr (hc.mono (bytesBits_dropLast_prefix_expansion _ _ ps)))

/-- An unpack job, with DOUT read at any point, has been given what was pushed, or has met OVERRUN. -/
theorem unpackProgress_runOps {u : Block} {ps : List Byte} {s : State}
    (h : UnpackProgress u ps s ∨ Overrun s.block) (ops : List JobOp) :
    UnpackProgress u (ps ++ pushedBytes ops) (s.runOps ops) ∨ Overrun (s.runOps ops).block := by
  induction ops generalizing ps s with
  | nil => rwa [pushedBytes, List.append_nil]
  | cons op ops ih =>
    cases op with
    | push d =>
      rw [pushedBytes, ← List.singleton_append, ← List.append_assoc]
      refine ih ?_
      rcases h with h | ho
      · exact h.push_or_overrun d
      · exact .inr (by rw [JobOp.run, issue_of_error ho.1 rfl]; exact ho)
    | readDout =>
      refine ih ?_
      rcases h with h | ho
      · exact .inl h.afterDout
      · exact .inr (by rw [JobOp.run, afterDout_block]; exact ho)

/-- An unpack job that meets no OVERRUN has read the whole expansion. -/
theorem unpackEnds_or_overrun {s : State} (hr : s.ready) (hf : s.block.PrefixFree) (ops : List JobOp)
    (hfit : s.block.tailmode = true → ∀ p, (pushedBytes ops).getLast? = some p →
      TailFits s.block.tail.toNat p) :
    let t := s.runJob .startUnpack ops
    UnpackEnds s.block (expansion s.block.tailmode s.block.tail.toNat (pushedBytes ops)) t.output t.block ∨
      Overrun t.block := by
  rcases unpackProgress_runOps (.inl (.inl (unpackRunning_start hr hf))) ops with h | ho
  · exact UnpackProgress.finish_or_overrun h hfit
  · rw [State.runJob, issue_of_error ho.1 rfl]
    exact .inr ho

/-- How the job ended, in the words of R175: what is left of `E` after the codes read holds no code, and the job
is DONE exactly when nothing is left. -/
theorem UnpackEnds.exists_rest {u t : Block} {E : Bits} {out : List Byte} (h : UnpackEnds u E out t) :
    ∃ rest, E = u.stream out ++ rest ∧ u.AllValid out ∧ u.Unmatched rest ∧
      (rest = [] → t.state = .done) ∧ (rest ≠ [] → t.state = .error ∧ t.errcode = .corrupt) := by
  rcases h with ⟨rest, hp, hdone, herr⟩ | ⟨hs, he, bad, rest, hfail⟩
  · exact ⟨rest, hp.parse, hp.valid, hp.unmatched, hdone, herr⟩
  · have hne : bad ++ rest ≠ [] := by
      have hlong := hfail.long
      exact List.append_ne_nil_of_left_ne_nil (List.ne_nil_of_length_pos (by omega)) rest
    exact ⟨bad ++ rest, hfail.parse, hfail.valid, hfail.unmatched_append, fun h => absurd h hne,
      fun _ => ⟨hs, he⟩⟩

theorem inv_runOps {s : State} (h : s.Inv) (ops : List JobOp) : (s.runOps ops).Inv := by
  induction ops generalizing s with
  | nil => exact h
  | cons op ops ih =>
    cases op with
    | push d => exact ih (inv_issue h (.push d))
    | readDout => exact ih (inv_afterDout h)

theorem inv_runJob {s : State} (h : s.Inv) (start : Command) (ops : List JobOp) :
    (s.runJob start ops).Inv := inv_issue (inv_runOps (inv_issue h start) ops) .finish

/-- A job that has read its bits is DONE without an error, or has raised CORRUPT; it has not met OVERRUN (R25). -/
theorem UnpackEnds.errcode_ne_overrun {u t : Block} {cfg : Config} {E : Bits} {out : List Byte}
    (h : UnpackEnds u E out t) (hi : t.Inv cfg) : t.errcode ≠ .overrun := by
  obtain ⟨rest, -, -, -, hdone, herr⟩ := h.exists_rest
  by_cases hr : rest = []
  · rw [hi.errcode.mpr (by simp [hdone hr])]
    decide
  · rw [(herr hr).2]
    decide

/-- Settles O58: the job ends as R175 says unless it meets OVERRUN, and a host that drains OUTQ never does. -/
theorem unpackJobIsTheSourcesDecoder : Obligations.UnpackJobIsTheSourcesDecoder := by
  intro s ops hi hr hf hfit
  refine ⟨fun t hrun hno => ?_, fun hops => ⟨_, (runs_jobEvents_iff _ _).mpr rfl, ?_⟩⟩
  · obtain rfl := (runs_jobEvents_iff .startUnpack ops).mp hrun
    rcases unpackEnds_or_overrun hr hf ops hfit with hends | ho
    · exact hends.exists_rest
    · exact absurd ho.2 hno
  · have hends := unpackEnds_drainedPushes hi hr hf hfit
    rw [← hops] at hends
    exact hends.errcode_ne_overrun (inv_runJob hi .startUnpack ops).block

/-! ## The round trip in EXACT mode -/

/-- Packed bytes end in the byte of the last chunk, and the number of its valid bits is that chunk's length (R29,
R66). -/
theorem packedBytes_concat {S : Bits} (hS : S ≠ []) :
    ∃ (B c : Bits) (n : Nat), S = B ++ c ∧ B.length = 8 * n ∧ 1 ≤ c.length ∧ c.length ≤ 8 ∧
      packedBytes S = packedBytes B ++ [chunkByte c] ∧ tailOf S = c.length := by
  obtain ⟨B, c, n, rfl, hB, hne, h8, hchunks⟩ := exists_last_chunk hS
  have hpos := List.length_pos_of_ne_nil hne
  refine ⟨B, c, n, rfl, hB, hpos, h8, by rw [packedBytes, hchunks, List.map_append]; rfl, ?_⟩
  rw [tailOf, List.length_append, hB, if_neg (by omega)]
  omega

/-- In EXACT mode the packed bytes expand to the string (R170). -/
theorem expansion_packedBytes_exact (S : Bits) : expansion true (tailOf S) (packedBytes S) = S := by
  by_cases hS : S = []
  · rw [hS]
    rfl
  · obtain ⟨B, c, n, hsplit, hB, -, h8, hbytes, htail⟩ := packedBytes_concat hS
    rw [hbytes, htail, expansion_concat, bytesBits_packedBytes n hB, hsplit]
    exact congrArg (B ++ ·) (lowBits_chunkByte h8)

/-- TAIL fits the last packed byte (R168, R170). -/
theorem tailFits_packedBytes {S : Bits} {p : Byte} (hp : (packedBytes S).getLast? = some p) :
    TailFits (tailOf S) p := by
  have hS : S ≠ [] := fun h => by rw [h] at hp; cases hp
  obtain ⟨B, c, n, -, -, h1, h8, hbytes, htail⟩ := packedBytes_concat hS
  rw [hbytes, List.getLast?_concat, Option.some.injEq] at hp
  rw [← hp, htail, TailFits, chunkByte_toNat h8]
  exact ⟨h1, h8, bitsToNat_lt c⟩

/-- Settles O59: with the TAIL that the pack job left, the packed bytes expand to the packed string. -/
theorem exactRoundTrip : Obligations.ExactRoundTrip := by
  intro s ds hi hr hf hv hlt
  have hpack := packDone_drainedPushes hi hr hf hv
  have htail := hpack.tail hlt
  refine ⟨_, (runs_jobEvents_iff _ _).mpr rfl, hpack.state, fun u hui hur htab hmode hut =>
    ⟨_, (runs_jobEvents_iff _ _).mpr rfl, ?_⟩⟩
  obtain ⟨hf', hv', hstream⟩ := htab.congr
  rw [← hut] at htail
  have hends := unpackEnds_drainedPushes hui hur (hf'.mpr hf)
    (ps := (s.runJob .startPack (drainedPushes ds)).output) fun _ p hp => by
      rw [hpack.output] at hp
      rw [htail]
      exact tailFits_packedBytes hp
  refine (hends.done_iff (hf'.mpr hf) (by rwa [hv'])).mpr ?_
  rw [hmode, hstream, hpack.output, htail]
  exact expansion_packedBytes_exact _

end Sys2Proof.Machine
end

section
/-!
SUPPORT. What PUSH and FINISH of an unpack job do, as equations between machines (spec/42_unpack.md R161 to R171).
-/

namespace Sys2Proof.Machine

/-! ## Feeding bits, by the parse -/

/-- A parse of the candidate and the bits fed says what feeding them does (R163, R164). -/
theorem feedBits_of_parses {s : Block} (hf : s.PrefixFree) (hu : s.Unmatched s.cand)
    (hs : s.cand.length < max s.maxlen 1) {c rest : Bits} {out : List Byte}
    (h : s.Parses (s.cand ++ c) out rest) : feedBits c s = .go (fedBlock s c out rest) := by
  rcases feedBits_cases c s hu hs with ⟨out', rest', h', he⟩ | ⟨_, _, _, h', -⟩
  · obtain ⟨rfl, rfl⟩ := h.unique hf h'
    exact he
  · exact absurd h' (h.not_failsAt hf)

/-- A failure of the candidate and the bits fed says what feeding them does (R163, R164). -/
theorem feedBits_of_failsAt {s : Block} (hf : s.PrefixFree) (hu : s.Unmatched s.cand)
    (hs : s.cand.length < max s.maxlen 1) {c bad rest : Bits} {out : List Byte}
    (h : s.FailsAt (s.cand ++ c) out bad rest) :
    feedBits c s = .ended (failedBlock s c out bad rest) := by
  rcases feedBits_cases c s hu hs with ⟨_, _, h', -⟩ | ⟨out', bad', rest', h', -, he⟩
  · exact absurd h (h'.not_failsAt hf)
  · obtain ⟨rfl, rfl, rfl⟩ := h.unique hf h'
    exact he

/-- Feeding bits sends at most one byte for each bit. -/
theorem length_le_of_feedBits {s : Block} {c : Bits} {out : List Byte}
    (h : (feedBits c s).block.outq = s.outq ++ out) : out.length ≤ c.length := by
  obtain ⟨new, hnew, hlen⟩ := (appends_feedBits c s).outq
  rwa [← List.append_cancel_left (h.symm.trans hnew)] at hlen

section

variable {cfg : Config} {s : Block} (hd : Decoding cfg s)

include hd

/-- Feeding bits in an unpack job once the held byte is dropped (R165, R168). -/
theorem Decoding.feed_of_parses {c rest : Bits} {out : List Byte} (h : s.Parses (s.cand ++ c) out rest) :
    feedBits c (dropHold s) = .go (fedBlock (dropHold s) c out rest) :=
  have hd' := decoding_dropHold hd
  feedBits_of_parses hd'.tableFree hd'.candUnmatched hd'.candShort (h.of_table_eq rfl)

theorem Decoding.feed_of_failsAt {c bad rest : Bits} {out : List Byte}
    (h : s.FailsAt (s.cand ++ c) out bad rest) :
    feedBits c (dropHold s) = .ended (failedBlock (dropHold s) c out bad rest) :=
  have hd' := decoding_dropHold hd
  feedBits_of_failsAt hd'.tableFree hd'.candUnmatched hd'.candShort (h.of_table_eq rfl)

end

/-! ## PUSH -/

/-- The first PUSH of a job only holds its byte (R165). -/
theorem unpackPush_of_not_held {s : Block} (h : s.holdv = false) (d : Byte) :
    unpackPush d s = .go { s with hold := d, holdv := true } := by
  simp [unpackPush, h]

/-- A later PUSH feeds the byte held before (R161, R165). -/
theorem unpackPush_of_held {s : Block} (h : s.holdv = true) (d : Byte) :
    unpackPush d s = (feedBits (bin8 s.hold) (dropHold s)).andThen fun s =>
      .go { s with hold := d, holdv := true } := by
  simp [unpackPush, h]

/-- PUSH and FINISH of an unpack job with 32 free slots are the job's rules (R126, R127, R230). -/
theorem exec_push_of_unpack {s : State} (hs : s.block.state = .unpack)
    (hq : s.block.outq.length + 32 ≤ s.cfg.outqDepth) (d : Byte) :
    exec (.push d) s = .next (s.onBlock (unpackPush d)) := by
  have h := exec_of_accepts (c := .push d) (accepts_of_job (.inl ⟨d, rfl⟩) (.inr hs) hq)
  rw [State.onBlock, ruleOf_push_unpack hs] at h
  exact h

theorem exec_finish_of_unpack {s : State} (hs : s.block.state = .unpack)
    (hq : s.block.outq.length + 32 ≤ s.cfg.outqDepth) :
    exec .finish s = .next (s.onBlock unpackFinish) := by
  have h := exec_of_accepts (c := .finish) (accepts_of_job (.inr rfl) (.inr hs) hq)
  rw [State.onBlock, ruleOf_finish_unpack hs] at h
  exact h

/-- Settles O22: the first PUSH by HOLDV, a later one by the parse or the failure of the bits it feeds. -/
theorem unpackPushFeedsTheHeldByte : Obligations.UnpackPushFeedsTheHeldByte := by
  intro s d hi hs hq
  have hd := decoding_of_inv hi.block hs
  rw [exec_push_of_unpack hs hq, State.onBlock]
  refine ⟨fun hv => ?_, fun hv out rest h => ?_, fun hv out bad rest h => ?_⟩
  · rw [unpackPush_of_not_held hv]
    rfl
  · have hfeed := hd.feed_of_parses (c := bin8 s.block.hold) h
    refine ⟨?_, bin8_length s.block.hold ▸ length_le_of_feedBits (congrArg (·.block.outq) hfeed)⟩
    rw [unpackPush_of_held hv, hfeed]
    rfl
  · have hfeed := hd.feed_of_failsAt (c := bin8 s.block.hold) h
    refine ⟨?_, bin8_length s.block.hold ▸ length_le_of_feedBits (congrArg (·.block.outq) hfeed)⟩
    rw [unpackPush_of_held hv, hfeed]
    rfl

/-! ## FINISH -/

/-- With no byte held, FINISH only closes the job (R168). -/
theorem unpackFinish_of_not_held {s : Block} (h : s.holdv = false) : unpackFinish s = closeUnpack s := by
  simp [unpackFinish, closeUnpack, h]

theorem unpackFinish_of_held {s : Block} (h : s.holdv = true) :
    unpackFinish s = (feedFinal s).andThen closeUnpack := by
  rw [unpackFinish, if_pos h]
  rfl

theorem closeUnpack_of_cand_nil {s : Block} (h : s.cand = []) :
    closeUnpack s = .go { s with state := .done } := by
  rw [closeUnpack, if_neg (by simp [h])]

/-- Bits left over at FINISH: CANDLEN and bit 8 are recorded, and where the left bits begin (R168, R221). -/
theorem closeUnpack_of_cand_ne_nil {s : Block} (h : s.cand ≠ []) (hlt : s.cand.length < 256) :
    closeUnpack s = raise .corrupt (BitVec.ofNat 32 (s.cand.length + 256))
      (s.bitcnt - BitVec.ofNat 64 s.cand.length) s := by
  have hinfo : s.candlen.setWidth 32 ||| (1 <<< 8) = BitVec.ofNat 32 (s.cand.length + 256) := by
    rw [show s.candlen.setWidth 32 ||| (1 <<< 8) = pairInfo s.candlen 1 from rfl, pairInfo_eq,
      Block.candlen, BitVec.toNat_ofNat, Nat.mod_eq_of_lt hlt]
    rfl
  rw [closeUnpack, if_pos (List.length_pos_of_ne_nil h), hinfo, Block.candlen,
    setWidth_ofNat_8 (by decide) hlt]

/-- A TAIL that is not bad fits the held byte (R168). -/
theorem tailFits_of_tailIsBad_eq_false {s : Block} (h : s.tailIsBad = false) :
    TailFits s.tail.toNat s.hold := by
  simp only [Block.tailIsBad, Bool.or_eq_false_iff, decide_eq_false_iff_not, Bool.and_eq_false_iff,
    bne_eq_false_iff_eq] at h
  obtain ⟨⟨h1, h8⟩, hshift⟩ := h
  refine ⟨by omega, by omega, ?_⟩
  rcases hshift with h8' | h0
  · rw [show s.tail.toNat = 8 by omega]
    exact s.hold.isLt
  · have hdiv := congrArg BitVec.toNat h0
    rw [BitVec.toNat_ushiftRight, Nat.shiftRight_eq_div_pow] at hdiv
    exact Nat.lt_of_div_eq_zero (Nat.two_pow_pos _) hdiv

/-- What BAD_TAIL records, in numbers (R168, R221). -/
theorem badTailInfo_eq (h : Byte) (t : BitVec 4) :
    h.setWidth 32 ||| (t.setWidth 32 <<< 8) = BitVec.ofNat 32 (h.toNat + 256 * t.toNat) := by
  have ht := t.isLt
  have hinfo := pairInfo_eq h (t.setWidth 8)
  rw [pairInfo, BitVec.setWidth_setWidth (by decide), BitVec.toNat_setWidth,
    Nat.mod_eq_of_lt (by omega)] at hinfo
  exact hinfo

/-- In EXACT mode a TAIL that does not fit raises BAD_TAIL before anything is fed (R168). -/
theorem feedFinal_of_not_tailFits {s : Block} (hj : s.jobtm = true)
    (h : ¬ TailFits s.tail.toNat s.hold) :
    feedFinal s = raise .badTail (BitVec.ofNat 32 (s.hold.toNat + 256 * s.tail.toNat)) s.bitcnt s := by
  have hbad : s.tailIsBad = true := by
    by_contra hb
    exact h (tailFits_of_tailIsBad_eq_false (by simpa using hb))
  rw [feedFinal, if_pos hj, if_pos hbad, badTailInfo_eq]

/-- Settles O23: no byte held, BAD_TAIL, and the parse or the failure of the final byte's bits. -/
theorem unpackFinishFeedsTheFinalByte : Obligations.UnpackFinishFeedsTheFinalByte := by
  intro s hi hs hq
  have hd := decoding_of_inv hi.block hs
  rw [exec_finish_of_unpack hs hq, State.onBlock]
  refine ⟨fun hv => ?_, fun hv hj hfit => ?_, fun hv hfit => ⟨fun out rest h => ?_, fun out bad rest h => ?_⟩⟩
  · rw [unpackFinish_of_not_held hv, closeUnpack_of_cand_nil (hi.block.candHeld hs hv)]
    rfl
  · rw [unpackFinish_of_held hv, feedFinal_of_not_tailFits hj hfit]
    rfl
  · have hlt : rest.length < 256 := by
      have hshort := h.short
      have hmax := maxlen_le s.block
      omega
    rw [unpackFinish_of_held hv, feedFinal_eq hfit,
      hd.feed_of_parses (c := finalBits s.block.jobtm s.block.tail.toNat s.block.hold) h, Flow.andThen_go]
    refine ⟨fun hr => ?_, fun hr => ?_⟩
    · rw [closeUnpack_of_cand_nil hr]
      rfl
    · rw [closeUnpack_of_cand_ne_nil hr hlt]
      rfl
  · rw [unpackFinish_of_held hv, feedFinal_eq hfit,
      hd.feed_of_failsAt (c := finalBits s.block.jobtm s.block.tail.toNat s.block.hold) h]
    rfl

end Sys2Proof.Machine
end

section
/-!
SUPPORT. What an unpack job does not read of the packer's state (spec/42_unpack.md R174), and the unpack invariant of
R160.
-/

namespace Sys2Proof.Machine

/-! ## One bit, by the inverse mapping -/

/-- The candidate with the bit is a code (R163). -/
theorem feedBit_of_lookup_some {x : Bool} {s : Block} {b : Byte} (h : s.lookup (s.cand ++ [x]) = some b) :
    feedBit x s = .go { { s with bitcnt := s.bitcnt + 1 }.outPush b with cand := [] } := by
  unfold feedBit
  dsimp only
  split
  case h_1 b' hb =>
    obtain rfl := Option.some.inj (h.symm.trans hb)
    rfl
  case h_2 hn => exact absurd (h.symm.trans hn) nofun

/-- The candidate with the bit is no code: it may become one, or it fails (R163). -/
theorem feedBit_of_lookup_none {x : Bool} {s : Block} (h : s.lookup (s.cand ++ [x]) = none) :
    let t : Block := { s with bitcnt := s.bitcnt + 1, cand := s.cand ++ [x] }
    feedBit x s =
      if t.maxlen ≤ t.cand.length then
        raise .corrupt (t.candlen.setWidth 32) (t.bitcnt - t.candlen.setWidth 64) t
      else .go t := by
  unfold feedBit
  dsimp only
  split
  case h_1 b hb => exact absurd (h.symm.trans hb) nofun
  case h_2 => rfl

/-! ## The packer's state in an unpack job -/

/-- The block with other values in ACC and TAIL. A rule that commutes with this neither reads nor writes them. -/
def Block.withPacker (ab : BitVec 7) (al : BitVec 3) (tl : BitVec 4) (s : Block) : Block :=
  { s with accbits := ab, acclen := al, tail := tl }

/-- An access that left another block, at the same point. -/
def Flow.mapBlock (f : Block → Block) : Flow → Flow
  | .go s => .go (f s)
  | .ended s => .ended (f s)

theorem Flow.block_mapBlock (f : Block → Block) (x : Flow) : (x.mapBlock f).block = f x.block := by
  cases x <;> rfl

/-- Two parts that commute with `f` commute with it together. -/
theorem Flow.mapBlock_andThen {f : Block → Block} {g : Block → Flow}
    (hg : ∀ t, g (f t) = (g t).mapBlock f) (x : Flow) :
    (x.mapBlock f).andThen g = (x.andThen g).mapBlock f := by
  cases x with
  | go t => exact hg t
  | ended t => rfl

section

variable (ab : BitVec 7) (al : BitVec 3) (tl : BitVec 4)

/-- A fed bit reads the table, CAND and the counters (R163). -/
theorem feedBit_withPacker (x : Bool) (s : Block) :
    feedBit x (s.withPacker ab al tl) = (feedBit x s).mapBlock (.withPacker ab al tl) := by
  cases h : s.lookup (s.cand ++ [x]) with
  | some b =>
    rw [feedBit_of_lookup_some h, feedBit_of_lookup_some (s := s.withPacker ab al tl) h]
    rfl
  | none =>
    rw [feedBit_of_lookup_none h, feedBit_of_lookup_none (s := s.withPacker ab al tl) h,
      apply_ite (Flow.mapBlock _)]
    rfl

theorem feedBits_withPacker (c : Bits) (s : Block) :
    feedBits c (s.withPacker ab al tl) = (feedBits c s).mapBlock (.withPacker ab al tl) := by
  induction c generalizing s with
  | nil => rfl
  | cons x c ih => rw [feedBits, feedBits, feedBit_withPacker, Flow.mapBlock_andThen ih]

theorem unpackPush_withPacker (d : Byte) (s : Block) :
    unpackPush d (s.withPacker ab al tl) = (unpackPush d s).mapBlock (.withPacker ab al tl) := by
  cases hv : s.holdv with
  | false =>
    rw [unpackPush_of_not_held hv, unpackPush_of_not_held (s := s.withPacker ab al tl) hv]
    rfl
  | true =>
    rw [unpackPush_of_held hv, unpackPush_of_held (s := s.withPacker ab al tl) hv,
      ← Flow.mapBlock_andThen fun _ => rfl, ← feedBits_withPacker]
    rfl

/-- The final byte reads TAIL in EXACT mode only (R168). -/
theorem feedFinal_withPacker {s : Block} (htl : s.jobtm = true → tl = s.tail) :
    feedFinal (s.withPacker ab al tl) = (feedFinal s).mapBlock (.withPacker ab al tl) := by
  have hj' : (s.withPacker ab al tl).jobtm = s.jobtm := rfl
  cases hj : s.jobtm with
  | false =>
    rw [feedFinal, feedFinal, hj', hj]
    exact feedBits_withPacker ab al tl (expandFinalCompat s.hold) (dropHold s)
  | true =>
    obtain rfl := htl hj
    rw [feedFinal, feedFinal, hj', hj, if_pos rfl, if_pos rfl, apply_ite (Flow.mapBlock _),
      ← feedBits_withPacker]
    rfl

theorem closeUnpack_withPacker (s : Block) :
    closeUnpack (s.withPacker ab al tl) = (closeUnpack s).mapBlock (.withPacker ab al tl) := by
  rw [closeUnpack, closeUnpack, apply_ite (Flow.mapBlock _)]
  rfl

theorem unpackFinish_withPacker {s : Block} (htl : s.jobtm = true → tl = s.tail) :
    unpackFinish (s.withPacker ab al tl) = (unpackFinish s).mapBlock (.withPacker ab al tl) := by
  cases hv : s.holdv with
  | false =>
    rw [unpackFinish_of_not_held hv, unpackFinish_of_not_held (s := s.withPacker ab al tl) hv,
      closeUnpack_withPacker]
  | true =>
    rw [unpackFinish_of_held hv, unpackFinish_of_held (s := s.withPacker ab al tl) hv,
      ← Flow.mapBlock_andThen (closeUnpack_withPacker ab al tl), feedFinal_withPacker ab al tl htl]

/-- PUSH and FINISH of an unpack job, run or stopped by RDY = 0. -/
theorem execute_withPacker {c : Command} {s : Block} (hs : s.state = .unpack)
    (hc : (∃ d, c = .push d) ∨ (c = .finish ∧ (s.jobtm = true → tl = s.tail))) (cfg : Config) :
    execute c (ruleOf c) cfg (s.withPacker ab al tl) =
      (execute c (ruleOf c) cfg s).mapBlock (.withPacker ab al tl) := by
  have hrule : ruleOf c (s.withPacker ab al tl) = (ruleOf c s).mapBlock (.withPacker ab al tl) := by
    rcases hc with ⟨d, rfl⟩ | ⟨rfl, htl⟩
    · rw [ruleOf_push_unpack hs, ruleOf_push_unpack (s := s.withPacker ab al tl) hs, unpackPush_withPacker]
    · rw [ruleOf_finish_unpack hs, ruleOf_finish_unpack (s := s.withPacker ab al tl) hs,
        unpackFinish_withPacker ab al tl htl]
  have hc' := hc.imp_right And.left
  rw [execute_of_job hc' _ cfg (.inr hs), execute_of_job hc' _ cfg (s := s.withPacker ab al tl) (.inr hs),
    apply_ite (Flow.mapBlock _), hrule]
  rfl

end

/-- Settles O45: PUSH and FINISH commute with other values in ACC and TAIL. -/
theorem unpackJobDoesNotReadThePacker : Obligations.UnpackJobDoesNotReadThePacker := by
  intro c s t ab al tl hc hs ht
  obtain rfl := exec_ofCommand_eq_next_iff.mp ht
  refine exec_ofCommand_eq_next_iff.mpr ?_
  have hb := (congrArg Flow.block (execute_withPacker ab al tl hs hc s.cfg)).trans (Flow.block_mapBlock _ _)
  exact (congrArg (fun b => { s with block := b }) hb).symm

/-! ## The unpack invariant -/

/-- In a job, an event that neither pushes nor moves STATE leaves the job as it is. -/
theorem Effect.sameJob {cfg : Config} {s t : Block} {e : Event} (he : Effect cfg s e t)
    (ha : s.active = true) (ht : t.state = s.state) (hne : ∀ d, e ≠ issueCommand (.push d)) :
    SameJob s t := by
  have hjob := active_iff.mp ha
  have herr : s.state ≠ .error := by rcases hjob with hs | hs <;> simp [hs]
  have hbetween : ¬ (s.state = .idle ∨ s.state = .done) := by rcases hjob with hs | hs <;> simp [hs]
  cases he with
  | reset => exact absurd (.inl ht.symm) hbetween
  | command c =>
    rcases execute_block_cases c (ruleOf c) cfg s with hb | ⟨_, -, hb⟩ | ⟨hacc, hb⟩ <;> rw [hb] at ht ⊢
    · exact .refl s
    · exact absurd ht.symm herr
    · cases c with
      | nop => exact .refl s
      | startPack => exact absurd (between_of_accepts_start (.inl rfl) hacc) hbetween
      | startUnpack => exact absurd (between_of_accepts_start (.inr rfl) hacc) hbetween
      | push d => exact absurd rfl (hne d)
      | finish =>
        have hdone : stateAfter .finish s.state = .done := by rcases hjob with hs | hs <;> rw [hs] <;> rfl
        rcases (endsIn_ruleOf .finish s).block with hd | hf
        · exact absurd (.inr (ht.symm.trans (hd.trans hdone))) hbetween
        · exact absurd (ht.symm.trans hf.1) herr
      | abort => exact absurd (.inl ht.symm) hbetween
      | clrtab => exact absurd hacc (not_accepts_clrtab ha)
  | illegal w =>
    rw [executeIllegal, if_neg herr] at ht
    exact absurd ht.symm herr
  | len b v | bits b w v =>
    rw [tableWrite, if_pos ha] at ht
    exact absurd ht.symm herr
  | ctrl v | tail v | pop x rest hq => exact ⟨rfl, rfl, rfl, rfl, rfl, rfl, rfl, rfl, rfl, rfl, rfl, rfl⟩
  | read a => exact .refl s
  | rejected a r hd =>
    rw [busError, if_neg herr] at ht
    exact absurd ht.symm herr

/-- The trace reads the job and the table (R160). -/
theorem Block.UnpackTrace.of_sameJob {s t : Block} {ps emitted : List Byte} (h : s.UnpackTrace ps emitted)
    (hj : SameJob s t) (htab : t.table = s.table) : t.UnpackTrace ps emitted := by
  refine ⟨hj.state.trans h.open_, ?_, hj.bitcnt.trans h.bitcnt, hj.outcnt.trans h.outcnt, ?_⟩
  · rw [hj.holdv, hj.hold]
    exact h.held
  · rw [hj.cand]
    exact h.parses.of_table_eq htab

/-- START_UNPACK that opens a job has checked the table, and nothing is fed yet (R122, R160). -/
theorem unpackTrace_startUnpack {s : Block} (ht : (startUnpack s).block.state = .unpack) :
    (startUnpack s).block.UnpackTrace [] [] := by
  unfold startUnpack at ht ⊢
  rcases validate_cases { s with
      bitcnt := 0, outcnt := 0, cand := [], hold := 0, holdv := false, jobtm := s.tailmode } with
    ⟨-, he⟩ | ⟨a, b, -, he⟩ <;> rw [he] at ht ⊢
  · exact ⟨rfl, .inl ⟨rfl, rfl⟩, rfl, rfl, nofun, rfl, unmatched_nil _,
      Nat.lt_of_lt_of_le Nat.zero_lt_one (Nat.le_max_right _ 1)⟩
  · cases ht

/-- PUSH that leaves the job open has run its rule: RDY = 0 would have raised OVERRUN (R165, R230). -/
theorem Block.UnpackTrace.execute_push {s : Block} {ps emitted : List Byte} (h : s.UnpackTrace ps emitted)
    (p : Byte) {cfg : Config} (ht : (execute (.push p) (ruleOf (.push p)) cfg s).block.state = .unpack) :
    ∃ new, (execute (.push p) (ruleOf (.push p)) cfg s).block.outq = s.outq ++ new ∧
      (execute (.push p) (ruleOf (.push p)) cfg s).block.UnpackTrace (ps ++ [p]) (emitted ++ new) := by
  rw [execute_of_job (.inl ⟨p, rfl⟩) _ cfg (.inr h.open_), ruleOf_push_unpack h.open_] at ht ⊢
  cases hr : s.rdy cfg with
  | false =>
    rw [hr] at ht
    cases ht
  | true =>
    rw [hr, if_pos rfl] at ht
    obtain ⟨new, hq, htrace | hcorrupt⟩ := h.push p
    · exact ⟨new, hq, htrace⟩
    · rw [hcorrupt.state] at ht
      cases ht

/-- Every event but PUSH that leaves the job open keeps the trace. -/
theorem Block.UnpackTrace.effect {s t : Block} {ps emitted : List Byte} {cfg : Config} {e : Event}
    (h : s.UnpackTrace ps emitted) (he : Effect cfg s e t) (ht : t.state = .unpack)
    (hne : ∀ d, e ≠ issueCommand (.push d)) : t.UnpackTrace ps emitted := by
  have hact : s.active = true := active_iff.mpr (.inr h.open_)
  have hnr : e ≠ .reset := by
    rintro rfl
    cases he
    cases ht
  exact h.of_sameJob (he.sameJob hact (ht.trans h.open_.symm) hne) (he.table_eq hact hnr)

/-- Settles O51: START_UNPACK, PUSH, and every other event, which leaves the job as it is. -/
theorem unpackTraceIsKept : Obligations.UnpackTraceIsKept := by
  refine ⟨fun s t hs ht hu => ?_, fun s t p ps emitted h ht hu => ?_, fun s t ps emitted h ht hu hne => ?_⟩
  · obtain rfl := (exec_ofCommand_eq_next_iff (c := .startUnpack)).mp ht
    have hns : s.block.state ≠ .unpack := by rcases hs with hs | hs <;> simp [hs]
    rw [State.onBlock_block] at hu ⊢
    rcases execute_block_cases .startUnpack (ruleOf .startUnpack) s.cfg s.block with hb | ⟨_, -, hb⟩ |
      ⟨-, hb⟩ <;> rw [hb] at hu ⊢
    · exact absurd hu hns
    · cases hu
    · exact unpackTrace_startUnpack hu
  · obtain rfl := (exec_ofCommand_eq_next_iff (c := .push p)).mp ht
    exact h.execute_push p hu
  · obtain ⟨e, he, -, heff⟩ := effect_of_step ht
    rw [he] at hne
    exact h.effect heff hu fun d hd => hne d (congrArg some hd)

end Sys2Proof.Machine
end

section
/-!
SUPPORT. The register accesses of spec/43_bus.md: what the reads return, field by field (R190 to R204, R206),
what a read of DOUT pops (R195), and what the writes of CTRL, LEN and BITS change (R192, R205, R207).
-/

namespace Sys2Proof.Machine

/-! ## Reads -/

/-- The low half of a counter, in numbers (R198, R201). -/
theorem extractLsb'_lo_eq_ofNat (x : BitVec 64) :
    x.extractLsb' 0 32 = BitVec.ofNat 32 (x.toNat % 2 ^ 32) := by
  apply BitVec.eq_of_toNat_eq
  simp [BitVec.extractLsb'_toNat]

/-- The high half of a counter, in numbers (R198, R201). -/
theorem extractLsb'_hi_eq_ofNat (x : BitVec 64) :
    x.extractLsb' 32 32 = BitVec.ofNat 32 (x.toNat / 2 ^ 32) := by
  apply BitVec.eq_of_toNat_eq
  simp [BitVec.extractLsb'_toNat, Nat.shiftRight_eq_div_pow]

/-- A read of the word with the number `n` appends that word to the replies, and nothing else changes (R69). -/
theorem next_reply_eq_of_ofNat (s : State) {v : Word} {n : Nat} (h : v = BitVec.ofNat 32 n) :
    (.next (s.reply v) : Host.Outcome State Fault Refusal) =
      .next { s with replies := s.replies ++ [BitVec.ofNat 32 n] } := by
  rw [h]
  rfl

/-- A word is its own number. -/
theorem word_eq_ofNat (x : Word) : x = BitVec.ofNat 32 x.toNat := by
  rw [BitVec.ofNat_toNat, BitVec.setWidth_eq]

/-- Settles O30: the addresses from the register map, the values as numbers. -/
theorem readsReturnTheRegister : Obligations.ReadsReturnTheRegister := by
  intro s b w
  refine ⟨⟨rfl, rfl, rfl, rfl, rfl, rfl, rfl, rfl, ?_, ?_⟩, rfl,
    next_reply_eq_of_ofNat s (BitVec.ofNat_toNat ..).symm,
    next_reply_eq_of_ofNat s (extractLsb'_lo_eq_ofNat _), next_reply_eq_of_ofNat s (extractLsb'_hi_eq_ofNat _),
    next_reply_eq_of_ofNat s (word_eq_ofNat _), next_reply_eq_of_ofNat s (word_eq_ofNat _),
    next_reply_eq_of_ofNat s (extractLsb'_lo_eq_ofNat _), next_reply_eq_of_ofNat s (extractLsb'_hi_eq_ofNat _),
    next_reply_eq_of_ofNat s (BitVec.ofNat_toNat ..).symm, next_reply_eq_of_ofNat s (word_eq_ofNat _)⟩
  · rw [ofNat_lenAddr, decodeAccess_read_lenAddr]
  · rw [ofNat_bitsAddr, decodeAccess_read_bitsAddr]

/-- Settles O36: the two branches of the pop. -/
theorem doutPopsTheOldestByte : Obligations.DoutPopsTheOldestByte := by
  refine ⟨rfl, fun s => ⟨fun hq => ?_, fun x rest hq => ?_⟩⟩ <;> simp only [exec, execRdDout, hq]
  · rfl
  · rw [doutWord_eq]
    rfl

/-! ## STATUS -/

/-- STATUS is its seven fields (R25). -/
theorem statusWord_eq_fields (cfg : Config) (s : Block) : s.statusWord cfg =
    regField s.state.encoding 0 ||| regField (BitVec.ofBool (s.rdy cfg)) 3 |||
    regField (BitVec.ofBool s.outv) 4 ||| regField (BitVec.ofBool s.holdv) 5 |||
    regField s.errcode.encoding 8 ||| regField s.outlvl 16 ||| regField (BitVec.ofBool s.irq) 31 := by
  simp [Block.statusWord, flagAt, regField]

/-- RDY = 1 with 32 free slots or more (R27). -/
theorem rdy_eq_decide_free (cfg : Config) (s : Block) :
    s.rdy cfg = decide (32 ≤ cfg.outqDepth - s.outq.length) := by
  rw [Block.rdy, decide_eq_decide, Config.rdyFree]
  omega

/-- OUTV = 1 when OUTQ holds a byte (R25). -/
theorem outv_eq_decide (s : Block) : s.outv = decide (s.outq ≠ []) := by
  rw [Block.outv]
  cases s.outq <;> rfl

/-- OUTLVL loses nothing at a legal OUTQ_DEPTH (R44). -/
theorem outlvl_toNat {s : State} (hi : s.Inv) : s.block.outlvl.toNat = s.block.outq.length := by
  obtain ⟨-, hd⟩ : Config.rdyFree ≤ s.cfg.outqDepth ∧ s.cfg.outqDepth ≤ 255 := by
    simpa [Config.valid] using hi.cfg
  exact Nat.mod_eq_of_lt (Nat.lt_succ_of_le (hi.block.outqBound.trans hd))

/-- The error codes of R220 are non-zero, but for NO_ERROR. -/
theorem errcode_encoding_ne_zero_iff {e : ErrCode} : e.encoding ≠ 0 ↔ e ≠ .noError := by
  cases e <;> decide

/-- IRQ is the level of R235. -/
theorem irq_eq_true_iff {s : Block} : s.irq = true ↔
    (s.ieErr = true ∧ s.state = .error) ∨ (s.ieDone = true ∧ s.state = .done) ∨
    (s.ieOut = true ∧ 0 < s.outq.length) := by
  simp [Block.irq, outv_eq_decide, List.length_pos_iff, or_assoc]

/-- Each field of STATUS read back at its place, and the reserved bits 0 (R25). -/
theorem extractLsb'_statusWord (cfg : Config) (s : Block) :
    (s.statusWord cfg).extractLsb' 0 3 = s.state.encoding ∧
    (s.statusWord cfg).extractLsb' 3 1 = BitVec.ofBool (s.rdy cfg) ∧
    (s.statusWord cfg).extractLsb' 4 1 = BitVec.ofBool s.outv ∧
    (s.statusWord cfg).extractLsb' 5 1 = BitVec.ofBool s.holdv ∧
    (s.statusWord cfg).extractLsb' 6 2 = 0 ∧
    (s.statusWord cfg).extractLsb' 8 4 = s.errcode.encoding ∧
    (s.statusWord cfg).extractLsb' 12 4 = 0 ∧
    (s.statusWord cfg).extractLsb' 16 8 = s.outlvl ∧
    (s.statusWord cfg).extractLsb' 24 7 = 0 ∧
    (s.statusWord cfg).extractLsb' 31 1 = BitVec.ofBool s.irq := by
  rw [statusWord_eq_fields]
  refine ⟨?_, ?_, ?_, ?_, ?_, ?_, ?_, ?_, ?_, ?_⟩
  all_goals
    simp (disch := omega) only [BitVec.extractLsb'_or, extractLsb'_regField, extractLsb'_regField_beside,
      BitVec.or_zero, BitVec.zero_or, BitVec.ofNat_eq_ofNat]

/-- Settles O31: each field of STATUS at its place, and then what the field holds. -/
theorem statusReadsTheFlags : Obligations.StatusReadsTheFlags := by
  refine ⟨rfl, fun s hi => ⟨s.block.statusWord s.cfg, rfl, ?_⟩⟩
  obtain ⟨hstate, hrdy, houtv, hholdv, hrsv6, herr, hrsv12, hlvl, hrsv24, hirq⟩ :=
    extractLsb'_statusWord s.cfg s.block
  replace hirq := getLsbD_of_extractLsb' hirq
  refine ⟨?_, (getLsbD_of_extractLsb' hrdy).trans (rdy_eq_decide_free ..),
    (getLsbD_of_extractLsb' houtv).trans (outv_eq_decide _), getLsbD_of_extractLsb' hholdv, hrsv6, ?_, ?_,
    hrsv12, ?_, hrsv24, ?_, hirq⟩
  · rw [hstate]
    cases s.block.state <;> rfl
  · rw [herr]
    cases s.block.errcode <;> rfl
  · rw [herr, errcode_encoding_ne_zero_iff, Ne, hi.block.errcode, not_not]
  · rw [hlvl, outlvl_toNat hi]
  · rw [hirq, irq_eq_true_iff]

/-! ## CTRL -/

/-- CTRL is its four bits (R24). -/
theorem ctrlWord_eq_fields (s : Block) : s.ctrlWord =
    regField (BitVec.ofBool s.tailmode) 0 ||| regField (BitVec.ofBool s.ieErr) 1 |||
    regField (BitVec.ofBool s.ieDone) 2 ||| regField (BitVec.ofBool s.ieOut) 3 := rfl

/-- Settles O32: the write is `setCtrl`, and each bit is read back at its place. -/
theorem ctrlWriteThenRead : Obligations.CtrlWriteThenRead := by
  intro s v
  refine ⟨rfl, decodeAccess_write_ctrl v, rfl, s.block.ctrlWord, rfl, ?_⟩
  rw [ctrlWord_eq_fields]
  refine ⟨getLsbD_of_extractLsb' ?_, getLsbD_of_extractLsb' ?_, getLsbD_of_extractLsb' ?_,
    getLsbD_of_extractLsb' ?_, ?_⟩
  all_goals
    simp (disch := omega) only [BitVec.extractLsb'_or, extractLsb'_regField, extractLsb'_regField_beside,
      BitVec.or_zero, BitVec.zero_or, BitVec.ofNat_eq_ofNat]

/-! ## TABINFO -/

/-- NCODES counts the byte values whose LEN is not 0 (R38). -/
theorem ncodes_eq_card (s : Block) :
    s.ncodes = ((Finset.range 256).filter fun n => s.len (BitVec.ofNat 8 n) ≠ 0).card := by
  rw [← Nat.count_eq_card_filter_range, Nat.count, Block.ncodes, Block.validBytes, allBytes,
    ← List.countP_eq_length_filter, List.countP_map]
  exact List.countP_congr fun n _ => by simp [valid_iff]

/-- NCODES is at most NSYM (R8, R38). -/
theorem ncodes_le (s : Block) : s.ncodes ≤ 256 := by
  rw [ncodes_eq_card]
  exact (Finset.card_filter_le _ _).trans_eq (Finset.card_range 256)

/-- TABINFO is NCODES in nine bits and MAXLEN in eight (R34). -/
theorem tabinfoWord_eq_fields (s : Block) : s.tabinfoWord =
    regField (BitVec.ofNat 9 s.ncodes) 0 ||| regField (BitVec.ofNat 8 s.maxlen) 16 := by
  have hn := ncodes_le s
  have hm := maxlen_le s
  rw [Block.tabinfoWord, regField, regField, BitVec.setWidth_ofNat_of_le_of_lt (by decide) (by omega),
    BitVec.setWidth_ofNat_of_le_of_lt (by decide) (by omega), BitVec.shiftLeft_zero]

/-- MAXLEN fits its eight bits (R34). -/
theorem toNat_ofNat_maxlen (s : Block) : (BitVec.ofNat 8 s.maxlen).toNat = s.maxlen :=
  Nat.mod_eq_of_lt (Nat.lt_succ_of_le (maxlen_le s))

/-- Both fields of TABINFO read back at their places, and the reserved bits 0 (R34). -/
theorem extractLsb'_tabinfoWord (s : Block) :
    s.tabinfoWord.extractLsb' 0 9 = BitVec.ofNat 9 s.ncodes ∧
    s.tabinfoWord.extractLsb' 9 7 = 0 ∧
    s.tabinfoWord.extractLsb' 16 8 = BitVec.ofNat 8 s.maxlen ∧
    s.tabinfoWord.extractLsb' 24 8 = 0 := by
  rw [tabinfoWord_eq_fields]
  refine ⟨?_, ?_, ?_, ?_⟩
  all_goals
    simp (disch := omega) only [BitVec.extractLsb'_or, extractLsb'_regField, extractLsb'_regField_beside,
      BitVec.or_zero, BitVec.zero_or, BitVec.ofNat_eq_ofNat]

/-- Settles O35: NCODES is the count, and MAXLEN bounds every LEN and is 0 or one of them. -/
theorem tabinfoReadsNcodesAndMaxlen : Obligations.TabinfoReadsNcodesAndMaxlen := by
  refine ⟨rfl, fun s => ⟨s.block.tabinfoWord, rfl, ?_⟩⟩
  obtain ⟨hncodes, hrsv9, hmaxlen, hrsv24⟩ := extractLsb'_tabinfoWord s.block
  rw [hncodes, hmaxlen, toNat_ofNat_maxlen, ← ncodes_eq_card]
  refine ⟨Nat.mod_eq_of_lt ((ncodes_le s.block).trans_lt (by decide)), hrsv9, fun b => ?_, ?_, hrsv24⟩
  · rw [← code_length]
    exact code_length_le_maxlen s.block b
  · refine (maxlen_attained s.block).imp (congrArg (BitVec.ofNat 8)) fun ⟨b, _, h⟩ => ⟨b, ?_⟩
    rw [← h, code_length, BitVec.ofNat_toNat, BitVec.setWidth_eq]

/-! ## Writes of the code table -/

/-- A write of the table in a job is dropped with TABLE_BUSY, which records its address (R205, R207, R221). -/
theorem writeReg_tableWrite_in_job {s : State} (hs : s.block.state = .pack ∨ s.block.state = .unpack)
    (a : Addr) (store : Block → Block) : writeReg (tableWrite a store) s =
      .next (s.failed .tableBusy (BitVec.ofNat 32 (a.toNat + 65536)) s.block.bitcnt) := by
  rw [← accessInfo_write, writeReg, State.onBlock, tableWrite, if_pos (active_iff.mpr hs)]
  rfl

/-- Outside a job, a write of the table is stored (R205, R207). -/
theorem writeReg_tableWrite_outside_job {s : State} (hp : s.block.state ≠ .pack)
    (hu : s.block.state ≠ .unpack) (a : Addr) (store : Block → Block) :
    writeReg (tableWrite a store) s = .next { s with block := store s.block } := by
  rw [writeReg, State.onBlock, tableWrite, if_neg fun h => (active_iff.mp h).elim hp hu]
  rfl

/-- LEN[b] takes bits 7..0 of the value, as a number (R205). -/
theorem toNat_extractLsb'_byte (v : Word) : (v.extractLsb' 0 8).toNat = v.toNat % 256 := by
  simp [BitVec.extractLsb'_toNat]

/-- Settles O37: the two outcomes of a table write, and what LEN reads after the store. -/
theorem lenWriteChangesOneEntry : Obligations.LenWriteChangesOneEntry := by
  intro s b v hi
  rw [ofNat_lenAddr, ← lenAddr_toNat]
  refine ⟨decodeAccess_write_lenAddr b v, fun hs => writeReg_tableWrite_in_job hs _ _, fun hp hu =>
    ⟨_, writeReg_tableWrite_outside_job hp hu _ _, rfl, fun c => ?_, fun c w => rfl⟩⟩
  rw [len_setLen hi.block.lenWf, ← toNat_extractLsb'_byte]
  exact apply_ite BitVec.toNat ..

/-- A code reads its words only at the bits before LEN[b]: two blocks with one LEN[b], whose words agree there,
have one code of `b` (R37). -/
theorem code_congr_of_code_bits {s t : Block} {b : Byte} (hl : t.len b = s.len b)
    (hb : ∀ i, i < (s.len b).toNat → (t.bits b (BitVec.ofNat 3 (i / 32))).getLsbD (31 - i % 32) =
      (s.bits b (BitVec.ofNat 3 (i / 32))).getLsbD (31 - i % 32)) : t.code b = s.code b := by
  rw [Block.code, Block.code, hl]
  exact List.map_congr_left fun i hi => hb i (List.mem_range.mp hi)

/-- A write of BITS[b][w] that keeps the bits before LEN[b] keeps the code of `b` (R37, R207). -/
theorem code_setBits_of_code_bits {s : Block}
    (h : Memory.wf (Config.bitsWords * Config.nsym) s.tabBits = true) {b : Byte} {w : BitVec 3} {v : Word}
    (hv : ∀ i, i < (s.len b).toNat → i / 32 = w.toNat →
      v.getLsbD (31 - i % 32) = (s.bits b w).getLsbD (31 - i % 32)) :
    (s.setBits b w v).code b = s.code b := by
  refine code_congr_of_code_bits rfl fun i hi => ?_
  rw [bits_setBits h]
  split
  case isTrue hw =>
    have hiw : i / 32 = w.toNat := by
      rw [← hw.2, BitVec.toNat_ofNat, Nat.mod_eq_of_lt]
      have := (s.len b).isLt
      omega
    rw [hw.2]
    exact hv i hi hiw
  case isFalse => rfl

/-- A write of BITS[b] keeps every code but that of `b` (R207). -/
theorem code_setBits_other {s : Block}
    (h : Memory.wf (Config.bitsWords * Config.nsym) s.tabBits = true) {b c : Byte} (hc : c ≠ b)
    (w : BitVec 3) (v : Word) : (s.setBits b w v).code c = s.code c :=
  (entry_congr (len_setBits s b c w v) fun x => by rw [bits_setBits h, if_neg fun hb => hc hb.1]).2

/-- Settles O38: the two outcomes of a table write, and what BITS and the codes are after the store. -/
theorem bitsWriteChangesOneWord : Obligations.BitsWriteChangesOneWord := by
  intro s b w v hi
  have hwf := hi.block.bitsWf
  rw [ofNat_bitsAddr, ← bitsAddr_toNat]
  exact ⟨decodeAccess_write_bitsAddr b w v, fun hs => writeReg_tableWrite_in_job hs _ _, fun hp hu =>
    ⟨_, writeReg_tableWrite_outside_job hp hu _ _, rfl, fun c x => bits_setBits hwf b c w x v,
      fun c => rfl, fun c hc => code_setBits_other hwf hc w v, fun hv => code_setBits_of_code_bits hwf hv⟩⟩

end Sys2Proof.Machine
end

section
/-!
SUPPORT. The commands that the checks of R230 stop: OVERRUN in a job with RDY = 0, and the commands that ERROR ignores
(spec/60_exceptions.md R226 to R230; spec/70_reset_and_hazards.md R255).
-/

namespace Sys2Proof.Machine

/-- The word of PUSH d is its opcode in the top byte over `d` (R92). -/
theorem encodeCommand_push (d : Byte) :
    encodeCommand (.push d) = BitVec.ofNat 32 (0x03000000 + d.toNat) := by
  have hd := d.isLt
  apply BitVec.eq_of_toNat_eq
  simp only [encodeCommand, BitVec.toNat_append, BitVec.ofNat_eq_ofNat, BitVec.toNat_ofNat]
  rw [← Nat.shiftLeft_add_eq_or_of_lt hd, ← Nat.shiftLeft_add_eq_or_of_lt (by decide)]
  omega

/-- The instruction of a command leaves the machine that issuing it leaves. -/
theorem exec_ofCommand_eq_issue (c : Command) (s : State) : exec (.ofCommand c) s = .next (s.issue c) :=
  exec_ofCommand_eq_next_iff.mpr rfl

/-- PUSH and FINISH in a job with RDY = 0 raise OVERRUN with their word, and change nothing else (R230). -/
theorem issue_of_job_not_rdy {s : State} {c : Command} (hc : (∃ d, c = .push d) ∨ c = .finish)
    (hs : s.block.state = .pack ∨ s.block.state = .unpack) (hr : s.block.rdy s.cfg = false) :
    s.issue c = s.failed .overrun (encodeCommand c) s.block.bitcnt := by
  rw [State.issue, State.onBlock, execute_of_job hc _ _ hs, if_neg (by simp [hr])]
  rfl

/-- Settles O26: both commands reach the readiness check of R230, and it stops them. -/
theorem notReadyRaisesOverrun : Obligations.NotReadyRaisesOverrun := by
  intro s d hs hfull
  have hr : s.block.rdy s.cfg = false := decide_eq_false (Nat.not_le.mpr hfull)
  have hpush := exec_ofCommand_eq_issue (.push d) s
  have hfinish := exec_ofCommand_eq_issue .finish s
  rw [issue_of_job_not_rdy (.inl ⟨d, rfl⟩) hs hr, encodeCommand_push] at hpush
  rw [issue_of_job_not_rdy (.inr rfl) hs hr] at hfinish
  exact ⟨hpush, hfinish⟩

/-- NOP, ABORT and CLRTAB are the only commands that run in ERROR (R226, R230). -/
theorem runsInError_eq_false {c : Command} (hnop : c ≠ .nop) (habort : c ≠ .abort) (hclrtab : c ≠ .clrtab) :
    runsInError c = false := by
  cases c with
  | nop => exact absurd rfl hnop
  | abort => exact absurd rfl habort
  | clrtab => exact absurd rfl hclrtab
  | startPack | startUnpack | push _ | finish => rfl

/-- Settles O27: a command that does not run in ERROR is stopped by the first check of R230. -/
theorem errorStateIgnoresCommands : Obligations.ErrorStateIgnoresCommands := by
  intro c s hs hnop habort hclrtab
  rw [exec_ofCommand_eq_issue, issue_of_error hs (runsInError_eq_false hnop habort hclrtab)]

end Sys2Proof.Machine
end

section
/-!
SUPPORT. Where a run and a job end: the host's last access, and a pack job that a draining host brings to DONE
(spec/70_reset_and_hazards.md R253, R255, R258).
-/

namespace Sys2Proof.Machine

/-- The host has no next event exactly when it has nothing more to do (R15, R258). -/
theorem fetch_eq_none_iff {s : State} : s.fetch = none ↔ s.pending = [] := by
  unfold State.fetch
  cases s.pending with
  | nil => exact iff_of_true rfl rfl
  | cons e rest => exact iff_of_false (Option.some_ne_none _) (List.cons_ne_nil e rest)

/-- Settles O11: `step` finds no event to take, and that is its one fault. -/
theorem runEndsWithTheHost : Obligations.RunEndsWithTheHost := by
  intro s hp
  rw [step, fetch_eq_none_iff.mpr hp]

/-- Settles O57: a job runs to one machine, and a host that drains OUTQ meets RDY = 1 at every PUSH and at FINISH,
so that machine is DONE. -/
theorem drainedPackJobEndsDone : Obligations.DrainedPackJobEndsDone := by
  intro s ds hi hr hf hv
  exact ⟨{ s.runJob .startPack (drainedPushes ds) with pending := [] },
    (runs_jobEvents_iff .startPack _).mpr rfl, (packDone_drainedPushes hi hr hf hv).state⟩

end Sys2Proof.Machine
end
